-- ==== Sys2Proof/Word.lean ====
section
/-!
DEFINITION. The word of the block and the byte of a frame's payload (00_scope R8 WORD = 32, R16).
-/
namespace Sys2Proof

/-- One register, one command word, one response word: WORD = 32 bits (00_scope R8, 30_encoding R100). -/
abbrev Word := BitVec 32

/-- One payload byte of a frame (00_scope R16). -/
abbrev Byte := BitVec 8

end Sys2Proof
end

