-- ==== Sys2Proof/Config.lean ====
section
/-!
DEFINITION. What is fixed for the machine: the parameters of 00_scope R8 and R9 at the values the spec takes,
and the open values, which have no body.
-/
namespace Sys2Proof.Config

/-- N_MAILBOX (R8). The mailbox index type has this many values. -/
def nMailbox : Nat := 3
/-- N_FIFO (R8). -/
def nFifo : Nat := 2
/-- DLC_MAX (R8). -/
def dlcMax : Nat := 8

/-- N_BANKS (R9, decision D16). PRESUMED by the spec itself (general knowledge G5), log 9. -/
abbrev nBanks : Nat := 14
/-- FIFO_DEPTH (R9, D16). PRESUMED by the spec itself (G5), log 9. -/
def fifoDepth : Nat := 3
/-- PRESC_MIN, PRESC_MAX (R9, D4; G1), log 9. -/
def prescMin : Nat := 1
def prescMax : Nat := 1024
/-- SEG1_MIN, SEG1_MAX in quanta (R9, D4; G1), log 9. -/
def seg1Min : Nat := 1
def seg1Max : Nat := 16
/-- SEG2_MIN, SEG2_MAX in quanta (R9, D4; G1), log 9. -/
def seg2Min : Nat := 1
def seg2Max : Nat := 8
/-- SJW_CAP (R9, D4; G1), log 9. -/
def sjwCap : Nat := 4

/-- A parameter written as a fraction (40_bit_timing R144: `num`, `den`). -/
structure Ratio where
  num : Nat
  den : Nat
  deriving DecidableEq, Repr

/-- SP_MIN = 3/4, inclusive (R9, D5). -/
def spMin : Ratio := ⟨3, 4⟩
/-- SP_MAX = 7/8, inclusive (R9, D5). -/
def spMax : Ratio := ⟨7, 8⟩
/-- SP_TARGET = 7/8 (R9, D5; G9), log 9. -/
def spTarget : Ratio := ⟨7, 8⟩

/-- N_MIN and N_MAX bound the quanta of one bit (R10). -/
def nMin : Nat := 1 + seg1Min + seg2Min
def nMax : Nat := 1 + seg1Max + seg2Max

/-- The `n`-th free word: every value the rules call `any` (00_scope R14, 10_state R49, R50, R283,
93 U9) is one of these, drawn by the counter `State.free`. No body: nothing can be proved of it. Log 6. -/
opaque freeWord : Nat → Word

/-- Accept(fsc, fbm, fr1, fr2, idw), the engine's acceptance comparison: an open function of these five
arguments (44_receive R220, D33). No body. Log 7. -/
opaque accept : Bool → Bool → Word → Word → Word → Bool

end Sys2Proof.Config
end

