-- ==== Sys2Proof/Syntax.lean ====
section
/-!
DEFINITION. The six host commands with their operands (30_encoding R101 to R107), and the indices they use.
-/
namespace Sys2Proof

/-- A receive FIFO, f = 0 or 1 (00_scope R8 N_FIFO = 2). -/
inductive FifoId where
  | fifo0 | fifo1
  deriving DecidableEq, Repr

/-- A transmit mailbox, m = 0, 1 or 2 (00_scope R8 N_MAILBOX = 3). -/
inductive MbxId where
  | mbx0 | mbx1 | mbx2
  deriving DecidableEq, Repr

/-- The operating modes of CONSTRUCT (30_encoding R103, R129): three, enumerated by the source. -/
inductive OpMode where
  | normal | loopback | silent
  deriving DecidableEq, Repr

/-- The scale of a filter bank (00_scope R17): one 32-bit filter or two 16-bit filters. -/
inductive BitMode where
  | b16 | b32
  deriving DecidableEq, Repr

/-- The match mode of a filter bank (00_scope R17). -/
inductive MatchMode where
  | mask | list
  deriving DecidableEq, Repr

/-- The host commands, one constructor per row of spec/opcode_table.json (30_encoding R101). `bank` and `dlc`
are the numbers of their fields; their ranges are checked by `Instr.wellFormed`. -/
inductive Instr where
  /-- BTCALC clk, bitrate (R102, R140). -/
  | btcalc (clk bitrate : Word)
  /-- CONSTRUCT fifo, mode, bitrate (R103, R237). -/
  | construct (fifo : FifoId) (mode : OpMode) (bitrate : Word)
  /-- ADDFILTER bank, bitmode, match, idvalue, idmask, fifo (R104, R176). -/
  | addfilter (bank : Nat) (bitmode : BitMode) (matchmode : MatchMode) (idvalue idmask : Word) (fifo : FifoId)
  /-- TRANSMIT id, dlc, data (R105, R190); the payload travels as the two words DATAL and DATAH (R108). -/
  | transmit (id : BitVec 11) (dlc : Nat) (datal datah : Word)
  /-- TXSTATUS (R106, R197). -/
  | txstatus
  /-- TRYRECV (R107, R216). -/
  | tryrecv
  deriving DecidableEq, Repr

end Sys2Proof
end

