-- ==== Sys2Proof/WellFormed.lean ====
section
/-!
DEFINITION. Which commands the encoding can express legally: the operand ranges of 30_encoding R104 and R105.
-/
namespace Sys2Proof

/-- Operand ranges: BANK < N_BANKS (R104, R112 case 4) and DLC ≤ 8 (R105, R112 case 5). Every other operand
fills its field. -/
def Instr.wellFormed : Instr → Bool
  | .btcalc _ _ => true
  | .construct _ _ _ => true
  | .addfilter bank _ _ _ _ _ => decide (bank < Config.nBanks)
  | .transmit _ dlc _ _ => decide (dlc ≤ Config.dlcMax)
  | .txstatus => true
  | .tryrecv => true

end Sys2Proof
end

