-- ==== Sys2Proof/Decode.lean ====
section
/-!
DEFINITION. Decoding a command packet and encoding a command (30_encoding R100 to R108, R112, R113). A packet is
a list of 32-bit words, word 0 first. Decoding is total and rejects by name; cases 6 and 7 of R112 need the handle
and are tested at dispatch (Machine/Commands.lean).
-/
namespace Sys2Proof

/-! ### One-bit and small fields of the headers -/

/-- A FIFO field: bit 0 means FIFO 0, 1 means FIFO 1 (R103, R104). -/
def FifoId.ofBit (b : Bool) : FifoId := if b then .fifo1 else .fifo0
def FifoId.toBit : FifoId → Bool
  | .fifo0 => false
  | .fifo1 => true

/-- BITMODE: 1 = B32, 0 = B16 (R104). -/
def BitMode.ofBit (b : Bool) : BitMode := if b then .b32 else .b16
def BitMode.toBit : BitMode → Bool
  | .b16 => false
  | .b32 => true

/-- MATCH: 0 = MASK, 1 = LIST (R104). -/
def MatchMode.ofBit (b : Bool) : MatchMode := if b then .list else .mask
def MatchMode.toBit : MatchMode → Bool
  | .mask => false
  | .list => true

/-- MODE: 0 normal, 1 loopback, 2 silent (R103); 3 is illegal. -/
def OpMode.toField : OpMode → BitVec 2
  | .normal => 0
  | .loopback => 1
  | .silent => 2
def OpMode.ofField (v : BitVec 2) : Option OpMode :=
  if v = 0 then some .normal
  else if v = 1 then some .loopback
  else if v = 2 then some .silent
  else none

/-! ### The opcode table -/

/-- One row of the opcode table: word 0 has the row's form when its masked bits equal the pattern, and the packet
has this many words (R101). -/
structure OpcodeRow where
  pattern : Word
  mask : Word
  words : Nat
  deriving DecidableEq, Repr

def OpcodeRow.btcalc : OpcodeRow := ⟨0x10000000, 0xFFFFFFFF, 3⟩
def OpcodeRow.construct : OpcodeRow := ⟨0x20000000, 0xFFFFFFF8, 2⟩
def OpcodeRow.addfilter : OpcodeRow := ⟨0x30000000, 0xFFFFECE0, 3⟩
def OpcodeRow.transmit : OpcodeRow := ⟨0x40000000, 0xFFF0F800, 3⟩
def OpcodeRow.txstatus : OpcodeRow := ⟨0x50000000, 0xFFFFFFFF, 1⟩
def OpcodeRow.tryrecv : OpcodeRow := ⟨0x60000000, 0xFFFFFFFF, 1⟩

/-- The table as a list, in the order of spec/opcode_table.json. -/
def opcodeRows : List OpcodeRow := [.btcalc, .construct, .addfilter, .transmit, .txstatus, .tryrecv]

/-- Word 0 has the row's opcode and no reserved bit set. -/
def OpcodeRow.hits (r : OpcodeRow) (w0 : Word) : Bool := w0 &&& r.mask == r.pattern

/-! ### Decoding -/

/-- Why a packet is no legal command whatever the handle holds: R112 cases 1 to 5, and a list of words that is no
packet of its opcode's length (R113). -/
inductive Reject where
  /-- R112 case 1: OPC is 0x0 or 0x7 to 0xF. -/
  | illegalOpcode
  /-- R112 case 2: a reserved header bit of the opcode's format is 1. -/
  | reservedBit
  /-- R112 case 3: CONSTRUCT with MODE = 3. -/
  | illegalMode
  /-- R112 case 4: ADDFILTER with BANK ≥ N_BANKS. -/
  | bankOutOfRange
  /-- R112 case 5: TRANSMIT with DLC > 8. -/
  | dlcAbove8
  /-- Not a packet: the number of words is not the length that OPC fixes (R113). -/
  | wrongLength
  deriving DecidableEq, Repr

/-- OPC, bits 31:28 of word 0 (R100). -/
def opcodeOf (w0 : Word) : Nat := (w0.extractLsb' 28 4).toNat

/-- The length of the packet that starts with `w0`, by OPC alone: 3, 2 or 1 words, 1 for every illegal opcode
(R113). -/
def packetLength (w0 : Word) : Nat :=
  match opcodeOf w0 with
  | 1 => OpcodeRow.btcalc.words
  | 2 => OpcodeRow.construct.words
  | 3 => OpcodeRow.addfilter.words
  | 4 => OpcodeRow.transmit.words
  | _ => 1

/-- CONSTRUCT's fields (R103): MODE 2:1, FIFO 0. -/
def decodeConstruct (w0 w1 : Word) : Except Reject Instr :=
  match OpMode.ofField (w0.extractLsb' 1 2) with
  | none => .error .illegalMode
  | some mode => .ok (.construct (.ofBit (w0.getLsbD 0)) mode w1)

/-- ADDFILTER's fields (R104): FIFO 12, MATCH 9, BITMODE 8, BANK 4:0. -/
def decodeAddfilter (w0 w1 w2 : Word) : Except Reject Instr :=
  let bank := (w0.extractLsb' 0 5).toNat
  if bank < Config.nBanks then
    .ok (.addfilter bank (.ofBit (w0.getLsbD 8)) (.ofBit (w0.getLsbD 9)) w1 w2 (.ofBit (w0.getLsbD 12)))
  else .error .bankOutOfRange

/-- TRANSMIT's fields (R105): DLC 19:16, ID 10:0. -/
def decodeTransmit (w0 w1 w2 : Word) : Except Reject Instr :=
  let dlc := (w0.extractLsb' 16 4).toNat
  if dlc ≤ Config.dlcMax then .ok (.transmit (w0.extractLsb' 0 11) dlc w1 w2) else .error .dlcAbove8

/-- Word 0 and its operand words (absent ones 0) to a command, testing the cases of R112 in order: opcode,
reserved bits, operand ranges. -/
def decodeFields (w0 w1 w2 : Word) : Except Reject Instr :=
  match opcodeOf w0 with
  | 1 => if OpcodeRow.btcalc.hits w0 then .ok (.btcalc w1 w2) else .error .reservedBit
  | 2 => if OpcodeRow.construct.hits w0 then decodeConstruct w0 w1 else .error .reservedBit
  | 3 => if OpcodeRow.addfilter.hits w0 then decodeAddfilter w0 w1 w2 else .error .reservedBit
  | 4 => if OpcodeRow.transmit.hits w0 then decodeTransmit w0 w1 w2 else .error .reservedBit
  | 5 => if OpcodeRow.txstatus.hits w0 then .ok .txstatus else .error .reservedBit
  | 6 => if OpcodeRow.tryrecv.hits w0 then .ok .tryrecv else .error .reservedBit
  | _ => .error .illegalOpcode

/-- A packet to a command (R113). -/
def decode : List Word → Except Reject Instr
  | [] => .error .wrongLength
  | w0 :: ops =>
    if (w0 :: ops).length = packetLength w0 then decodeFields w0 (ops.getD 0 0) (ops.getD 1 0)
    else .error .wrongLength

/-- The words of an instruction whose bits are `w`, bit 0 the least significant bit of word 0, with the bits at and
above `nbits` zero: as many words as OPC asks for. -/
def tablePacket (nbits w : Nat) : List Word :=
  let v := w % 2 ^ nbits
  let w0 : Word := BitVec.ofNat 32 v
  [w0, BitVec.ofNat 32 (v / 2 ^ 32), BitVec.ofNat 32 (v / 2 ^ 64)].take (packetLength w0)

/-- What the decoder reads from an instruction numbered as spec/opcode_table.json numbers it. -/
def decodeTableWord (nbits w : Nat) : Option Instr :=
  match decode (tablePacket nbits w) with
  | .ok i => some i
  | .error _ => none

/-! ### Encoding -/

/-- Word 0 of TRANSMIT (R105): OPC, 27:20 reserved, DLC, 15:11 reserved, ID. -/
def transmitHeader (id : BitVec 11) (dlc : Nat) : Word := 0x4#4 ++ 0#8 ++ BitVec.ofNat 4 dlc ++ 0#5 ++ id

/-- Word 0 of ADDFILTER (R104): OPC, 27:13 reserved, FIFO, 11:10 reserved, MATCH, BITMODE, 7:5 reserved, BANK. -/
def addfilterHeader (bank : Nat) (bm : BitMode) (mm : MatchMode) (fifo : FifoId) : Word :=
  0x3#4 ++ 0#15 ++ BitVec.ofBool fifo.toBit ++ 0#2 ++ BitVec.ofBool mm.toBit ++ BitVec.ofBool bm.toBit
    ++ 0#3 ++ BitVec.ofNat 5 bank

/-- Word 0 of CONSTRUCT (R103): OPC, 27:3 reserved, MODE, FIFO. -/
def constructHeader (fifo : FifoId) (mode : OpMode) : Word := 0x2#4 ++ 0#25 ++ mode.toField ++ BitVec.ofBool fifo.toBit

/-- The packet of a well-formed command, from the formats R102 to R107. -/
def encode : Instr → List Word
  | .btcalc clk bitrate => [0x10000000, clk, bitrate]
  | .construct fifo mode bitrate => [constructHeader fifo mode, bitrate]
  | .addfilter bank bm mm idvalue idmask fifo => [addfilterHeader bank bm mm fifo, idvalue, idmask]
  | .transmit id dlc datal datah => [transmitHeader id dlc, datal, datah]
  | .txstatus => [0x50000000]
  | .tryrecv => [0x60000000]

end Sys2Proof
end

