-- ==== Sys2Proof/Machine/State.lean ====
section
/-!
DEFINITION. The architectural state of 10_state.md as plain data: the sequencer position with its operands and local
values, the handle, the register block, the ports, and the inputs of a run. Then the reasons a step can stop, and reset.
-/
namespace Sys2Proof.Machine

/-! ### Families of like things -/

/-- One value for each transmit mailbox. -/
structure PerMbx (α : Type) where
  m0 : α
  m1 : α
  m2 : α
  deriving DecidableEq, Repr

/-- One value for each receive FIFO. -/
structure PerFifo (α : Type) where
  f0 : α
  f1 : α
  deriving DecidableEq, Repr

/-- A filter bank, b = 0 to N_BANKS − 1. -/
abbrev BankId := Fin Config.nBanks

/-- One value for each filter bank. -/
abbrev PerBank (α : Type) := Vector α Config.nBanks

/-! ### The register block (10_state sections 3 to 6) -/

/-- The timing register fields (R29), each length stored less one. -/
structure Timing where
  brp : BitVec 10
  ts1 : BitVec 4
  ts2 : BitVec 3
  sjw : BitVec 2
  lbkm : Bool
  silm : Bool
  deriving DecidableEq, Repr

/-- One transmit mailbox: TME (R30), RQCP, TXOK, ALST, TERR (R31), TXRQ (R32), the data registers (R33) and the
hidden XMIT (R34). -/
structure Mailbox where
  tme : Bool
  rqcp : Bool
  txok : Bool
  alst : Bool
  terr : Bool
  txrq : Bool
  xmit : Bool
  stid : BitVec 11
  ide : Bool
  rtr : Bool
  dlc : BitVec 4
  datal : Word
  datah : Word
  deriving DecidableEq, Repr

/-- A raw slot: the four words of a received frame (R36, 30_encoding R126). -/
structure Slot where
  idw : Word
  dtw : Word
  dlw : Word
  dhw : Word
  deriving DecidableEq, Repr

/-- One receive FIFO: the hidden queue Q, oldest first (R36), and FOVR (R38). FMP (R37) is computed from Q. -/
structure Fifo where
  q : List Slot
  fovr : Bool
  deriving DecidableEq, Repr

/-- One filter bank: FSC (R42), FBM (R43), FFA (R44), FACT (R45), FR1 and FR2 (R46). -/
structure Bank where
  fsc : Bool
  fbm : Bool
  ffa : Bool
  fact : Bool
  fr1 : Word
  fr2 : Word
  deriving DecidableEq, Repr

/-- The register block shared with the engine. -/
structure RegBlock where
  /-- INRQ (R26). -/
  inrq : Bool
  /-- INAK (R27). -/
  inak : Bool
  timing : Timing
  mailboxes : PerMbx Mailbox
  fifos : PerFifo Fifo
  /-- FINIT (R41). -/
  finit : Bool
  banks : PerBank Bank
  deriving DecidableEq, Repr

/-! ### The values the registers hold when read or written (30_encoding section 8)

Each named field by name; `other` is the whole word that the bits of no named field are taken from (R49). -/

structure Ctlr where
  inrq : Bool
  other : Word
  deriving DecidableEq, Repr

structure Statr where
  inak : Bool
  other : Word
  deriving DecidableEq, Repr

/-- The TSTATR bits of one mailbox (R119). -/
structure TxFlags where
  rqcp : Bool
  txok : Bool
  alst : Bool
  terr : Bool
  tme : Bool
  deriving DecidableEq, Repr

structure Tstatr where
  flags : PerMbx TxFlags
  other : Word
  deriving DecidableEq, Repr

structure Rfifo where
  fmp : BitVec 2
  fovr : Bool
  rfom : Bool
  other : Word
  deriving DecidableEq, Repr

structure Btimr where
  timing : Timing
  other : Word
  deriving DecidableEq, Repr

structure Txmir where
  stid : BitVec 11
  ide : Bool
  rtr : Bool
  txrq : Bool
  other : Word
  deriving DecidableEq, Repr

structure Txmdtr where
  dlc : BitVec 4
  other : Word
  deriving DecidableEq, Repr

structure Fctlr where
  finit : Bool
  other : Word
  deriving DecidableEq, Repr

/-- A per-bank bit register: FMCFGR, FSCFGR, FAFIFOR or FWR (R124). -/
structure BankBits where
  bits : PerBank Bool
  other : Word
  deriving DecidableEq, Repr

/-! ### The sequencer position (R21) -/

/-- Bit Timing Parameters (00_scope R18). -/
structure BitTiming where
  presc : Nat
  seg1 : Nat
  seg2 : Nat
  sjw : Nat
  deriving DecidableEq, Repr

/-- A frame (00_scope R16): `data` has exactly `dlc` bytes, the first on the bus first. -/
structure Frame where
  id : BitVec 11
  dlc : Nat
  data : List Byte
  deriving DecidableEq, Repr

/-- The next micro-step of BTCALC (40_bit_timing R140) with the values read so far. -/
inductive BtcalcPos where
  | s1
  | s2 (r : Option BitTiming)
  deriving DecidableEq, Repr

/-- The next micro-step of CONSTRUCT (45_facade R237), with EnterInit's E1 to E4 and LeaveInit's L1 to L4
(41_mode_control R160 to R163) in the place of its steps 4 and 6. -/
inductive ConstructPos where
  | s1
  | s2 (r : BitTiming)
  | s3 (r : BitTiming)
  | e1 (r : BitTiming)
  | e2 (r : BitTiming) (t : Ctlr)
  | e3 (r : BitTiming)
  | e4 (r : BitTiming) (s : Statr)
  | s5 (r : BitTiming)
  | l1
  | l2 (t : Ctlr)
  | l3
  | l4 (s : Statr)
  | s7
  | s8
  deriving DecidableEq, Repr

/-- The next micro-step of ADDFILTER (42_filter R176). -/
inductive AddfilterPos where
  | s1
  | s2 (t : Fctlr)
  | s3
  | s4 (t : BankBits)
  | s5
  | s6
  | s7
  | s8 (t : BankBits)
  | s9
  | s10 (t : BankBits)
  | s11
  | s12 (t : BankBits)
  | s13
  | s14 (t : Fctlr)
  | s15
  deriving DecidableEq, Repr

/-- The next micro-step of TRANSMIT (43_transmit R190). -/
inductive TransmitPos where
  | s1
  | s2 (s : Tstatr)
  | s3 (m : MbxId)
  | s4 (m : MbxId)
  | s5 (m : MbxId)
  | s6 (m : MbxId)
  | s7 (m : MbxId)
  | s8
  deriving DecidableEq, Repr

/-- The next micro-step of TXSTATUS (43_transmit R197). -/
inductive TxstatusPos where
  | s1
  | s2
  | s3 (m : MbxId)
  | s4 (m : MbxId) (s : Tstatr)
  deriving DecidableEq, Repr

/-- The next micro-step of TRYRECV (44_receive R216). -/
inductive TryrecvPos where
  | s1
  | s2 (r : Rfifo)
  | s3
  | s4 (idw : Word)
  | s5 (idw dtw : Word)
  | s6 (idw dtw dlw : Word)
  | s7 (slot : Slot)
  | s8 (slot : Slot) (frame : Frame)
  | s9 (slot : Slot) (frame : Frame)
  deriving DecidableEq, Repr

/-- The decoded operands of CONSTRUCT. -/
structure ConstructOps where
  fifo : FifoId
  mode : OpMode
  bitrate : Word
  deriving DecidableEq, Repr

/-- The decoded operands of a legal ADDFILTER. -/
structure AddfilterOps where
  bank : BankId
  bitmode : BitMode
  matchmode : MatchMode
  idvalue : Word
  idmask : Word
  fifo : FifoId
  deriving DecidableEq, Repr

/-- The decoded operands of TRANSMIT. -/
structure TransmitOps where
  id : BitVec 11
  dlc : Nat
  datal : Word
  datah : Word
  deriving DecidableEq, Repr

/-- SEQ (R21): IDLE, or the command in execution with its decoded operands and its next micro-step. -/
inductive Seq where
  | idle
  | btcalc (clk bitrate : Word) (pos : BtcalcPos)
  | construct (ops : ConstructOps) (pos : ConstructPos)
  | addfilter (ops : AddfilterOps) (pos : AddfilterPos)
  | transmit (ops : TransmitOps) (pos : TransmitPos)
  | txstatus (pos : TxstatusPos)
  | tryrecv (pos : TryrecvPos)
  deriving DecidableEq, Repr

/-! ### The handle (10_state section 2) -/

structure Handle where
  /-- CONSTRUCTED (R22). -/
  constructed : Bool
  /-- BOUND_FIFO (R23). -/
  boundFifo : FifoId
  /-- LAST_MBX (R24); NONE is `none`. -/
  lastMbx : Option MbxId
  deriving DecidableEq, Repr

/-! ### The inputs of a run (R51) -/

/-- One step of the engine (00_scope R15), with the choices the rules leave free (93 U10). -/
inductive EngineEvent where
  /-- AckInit (41_mode_control R165). -/
  | ackInit
  /-- AckNormal (R166). -/
  | ackNormal
  /-- TxSelect (43_transmit R203): the arbiter selects mailbox `m`. -/
  | txSelect (m : MbxId)
  /-- TxOk (R204). -/
  | txOk (m : MbxId)
  /-- TxArbLost (R205), retry or abort. -/
  | txArbLost (m : MbxId) (retry : Bool)
  /-- TxError (R206), retry or abort. -/
  | txError (m : MbxId) (retry : Bool)
  /-- RxStore (44_receive R222): a frame on the bus with this raw slot goes to FIFO `f`. -/
  | rxStore (f : FifoId) (slot : Slot)
  /-- RxOverflow (R223): the frame is dropped, or replaces the newest stored one. -/
  | rxOverflow (f : FifoId) (slot : Slot) (replace : Bool)
  deriving DecidableEq, Repr

/-- What the outside of the block holds: inputs, parameters of a run, and the engine's choices to come. -/
structure Env where
  /-- F_PCLK, the peripheral clock in Hz (R25). -/
  fPclk : Word
  /-- REG_BASE divided by 4: REG_BASE is a multiple of 4 (20_memory R77), so this is what is free of it. -/
  regBaseWord : Nat
  /-- AUTO_RETX (R9, R205): `none` is open, both retry and abort admitted. -/
  autoRetx : Option Bool
  /-- The engine steps taken in the coming gaps between micro-steps, one list a gap (20_memory R75). Log 2. -/
  gaps : List (List EngineEvent)
  /-- Whether the engine honours the progress assumption R167 when the listed gaps are used up. Log 3. -/
  fair : Bool
  /-- The coming assertions of the block-reset input (R280), each by the gaps before it. Log 8. -/
  resets : List Nat
  deriving DecidableEq, Repr

/-- REG_BASE, the byte address of the register block (00_scope R9, R13; 20_memory R77, R80). DESIGN CHOICE (log 19): the
spec gives an address no width, so addresses are natural numbers and REG_BASE + offset does not wrap. -/
def Env.regBase (e : Env) : Nat := 4 * e.regBaseWord

/-! ### The state -/

/-- Everything the spec gives the machine, with its inputs. -/
structure State where
  /-- SEQ (R21). -/
  seq : Seq
  handle : Handle
  regs : RegBlock
  /-- The command port: the words the host has sent and the block has not consumed, the next one first (R100). -/
  cmdPort : List Word
  /-- The response port: the last response packet, empty while a command is in execution (R100, R109). -/
  respPort : List Word
  env : Env
  /-- The model's own: how many free values have been drawn. Log 6. -/
  free : Nat
  deriving DecidableEq, Repr

/-! ### Why a step stops -/

/-- Faults. No command of the block raises one. -/
inductive Fault where
  /-- Raised by `memRead` and `memWrite` only, for an address that is no register of 30_encoding R116 ("The block
  never accesses an offset outside that table", R80). Safe: no step reaches it. -/
  | noRegisterAt (address : Nat)
  deriving DecidableEq, Repr

/-- Refusals: the situations to which the rules give no meaning (00_scope R14 `refuse`). -/
inductive Refusal where
  /-- Raised by a refused arm of `exec` (none is left). Safe. -/
  | notModelled (mnemonic : String)
  /-- Raised by TRYRECV step 7: the head slot is an extended or remote frame or has a data length above 8 (44_receive
  R218, 93 U7: refuse). Safe. -/
  | receiveSlotOutsideFrameType
  /-- Raised by a write of BTIMR outside Initialization: with INAK = 0 (70 R290, 93 U4: refuse), or with INAK = 1 and
  INRQ = 0, where 10_state R28 says that the timing register is not writable (log 12). No command does it. Safe. -/
  | timingWriteOutsideInit
  /-- Raised by a write of a per-bank filter register with FINIT = 0 (70 R291, 93 U8: refuse). No command does it. Safe. -/
  | filterWriteWhileActive
  /-- Raised by `exec` while SEQ is not IDLE: two commands in flight (20_memory R88, 93 U6: refuse). `step` never
  does it. Safe. -/
  | commandWhileBusy
  deriving DecidableEq, Repr

/-! ### Reset -/

def PerMbx.all (x : α) : PerMbx α := ⟨x, x, x⟩
def PerFifo.all (x : α) : PerFifo α := ⟨x, x⟩

/-- Every bank the same. -/
def PerBank.all (x : α) : PerBank α := Vector.replicate Config.nBanks x

def Timing.zero : Timing := ⟨0, 0, 0, 0, false, false⟩

/-- An Empty mailbox with no completion flag; its data registers, which no rule fixes, are zero. -/
def Mailbox.powerOn : Mailbox :=
  { tme := true, rqcp := false, txok := false, alst := false, terr := false, txrq := false, xmit := false,
    stid := 0, ide := false, rtr := false, dlc := 0, datal := 0, datah := 0 }

def Bank.powerOn : Bank := ⟨false, false, false, false, 0, 0⟩

/-- The register block at power-on, which R50 leaves unspecified. DESIGN CHOICE (log 4): the peripheral-reset values
where R50 gives one, zero elsewhere. -/
def RegBlock.powerOn : RegBlock :=
  { inrq := false, inak := false, timing := .zero, mailboxes := .all .powerOn, fifos := .all ⟨[], false⟩,
    finit := false, banks := .all .powerOn }

/-- The handle after block reset (R50, R280). -/
def Handle.reset : Handle := { constructed := false, boundFifo := .fifo0, lastMbx := none }

/-- The inputs before anything is said of them. DESIGN CHOICE (log 2, 3, 5, 8); 8000000 Hz is the frequency of the
spec's own vectors. -/
def Env.initial : Env :=
  { fPclk := 8000000, regBaseWord := 0, autoRetx := none, gaps := [], fair := true, resets := [] }

/-- The machine right after block reset at power-on (10_state R50, column "after block reset"). -/
def State.reset : State :=
  { seq := .idle, handle := .reset, regs := .powerOn, cmdPort := [], respPort := [], env := .initial, free := 0 }

end Sys2Proof.Machine
end

