-- ==== Sys2Proof/Machine/Operands.lean ====
section
/-!
DEFINITION. Operand forms: the indices of mailboxes, FIFOs and banks, the register map (30_encoding R116), the
register images (R117 to R125), the raw image of a frame (R126), the timing image (R128), and the response words (R109 to
R111).
-/
namespace Sys2Proof

/-! ### Indices and the operating-mode bits -/

def MbxId.toNat : MbxId → Nat
  | .mbx0 => 0
  | .mbx1 => 1
  | .mbx2 => 2

def FifoId.toNat : FifoId → Nat
  | .fifo0 => 0
  | .fifo1 => 1

/-- (lbkm, silm) of an operating mode (R129). -/
def OpMode.bits : OpMode → Bool × Bool
  | .normal => (false, false)
  | .loopback => (true, false)
  | .silent => (false, true)

end Sys2Proof

namespace Sys2Proof.Machine

/-! ### Indexed state -/

def PerMbx.get (p : PerMbx α) : MbxId → α
  | .mbx0 => p.m0
  | .mbx1 => p.m1
  | .mbx2 => p.m2

def PerMbx.set (p : PerMbx α) (m : MbxId) (x : α) : PerMbx α :=
  match m with
  | .mbx0 => { p with m0 := x }
  | .mbx1 => { p with m1 := x }
  | .mbx2 => { p with m2 := x }

def PerMbx.map (f : α → β) (p : PerMbx α) : PerMbx β := ⟨f p.m0, f p.m1, f p.m2⟩

def PerFifo.get (p : PerFifo α) : FifoId → α
  | .fifo0 => p.f0
  | .fifo1 => p.f1

def PerFifo.set (p : PerFifo α) (f : FifoId) (x : α) : PerFifo α :=
  match f with
  | .fifo0 => { p with f0 := x }
  | .fifo1 => { p with f1 := x }

/-- The family of `f b`. -/
def PerBank.tabulate (f : BankId → α) : PerBank α := ⟨(List.ofFn f).toArray, by simp⟩

def PerBank.get (p : PerBank α) (b : BankId) : α := p[b]

/-- Mailbox m. -/
def RegBlock.mbx (b : RegBlock) (m : MbxId) : Mailbox := b.mailboxes.get m
def RegBlock.setMbx (b : RegBlock) (m : MbxId) (x : Mailbox) : RegBlock := { b with mailboxes := b.mailboxes.set m x }

/-- FIFO f. -/
def RegBlock.fifo (b : RegBlock) (f : FifoId) : Fifo := b.fifos.get f
def RegBlock.setFifo (b : RegBlock) (f : FifoId) (x : Fifo) : RegBlock := { b with fifos := b.fifos.set f x }

/-- Filter bank. -/
def RegBlock.bank (b : RegBlock) (k : BankId) : Bank := PerBank.get b.banks k

/-- Every bank changed by `f`. -/
def RegBlock.mapBanks (b : RegBlock) (f : BankId → Bank → Bank) : RegBlock :=
  { b with banks := PerBank.tabulate fun k => f k (b.bank k) }

/-- FMP[f], 2 bits: the length of Q[f] (10_state R37). -/
def Fifo.fmp (x : Fifo) : BitVec 2 := BitVec.ofNat 2 x.q.length

/-- The peripheral mode (10_state R28). -/
inductive PeripheralMode where
  | normal | enteringInit | init | leavingInit
  deriving DecidableEq, Repr

def RegBlock.mode (b : RegBlock) : PeripheralMode :=
  match b.inrq, b.inak with
  | false, false => .normal
  | true, false => .enteringInit
  | true, true => .init
  | false, true => .leavingInit

/-- The mailbox states (10_state R35); `none` for a combination that no run reaches. -/
inductive MailboxState where
  | empty
  | pending
  | transmitting
  deriving DecidableEq, Repr

def Mailbox.state (x : Mailbox) : Option MailboxState :=
  match x.tme, x.txrq, x.xmit with
  | true, false, false => some .empty
  | false, true, false => some .pending
  | false, true, true => some .transmitting
  | _, _, _ => none

/-! ### The register map (R116) -/

/-- The registers of the block. -/
inductive Reg where
  | ctlr | statr | tstatr
  | rfifo (f : FifoId)
  | btimr
  | txmir (m : MbxId) | txmdtr (m : MbxId) | txmdlr (m : MbxId) | txmdhr (m : MbxId)
  | rxmir (f : FifoId) | rxmdtr (f : FifoId) | rxmdlr (f : FifoId) | rxmdhr (f : FifoId)
  | fctlr | fmcfgr | fscfgr | fafifor | fwr
  | fir1 (b : BankId) | fir2 (b : BankId)
  deriving DecidableEq, Repr

/-- The byte offset of a register from REG_BASE (R116). -/
def Reg.offset : Reg → Nat
  | .ctlr => 0x000
  | .statr => 0x004
  | .tstatr => 0x008
  | .rfifo f => 0x00C + 4 * f.toNat
  | .btimr => 0x01C
  | .txmir m => 0x180 + 16 * m.toNat
  | .txmdtr m => 0x184 + 16 * m.toNat
  | .txmdlr m => 0x188 + 16 * m.toNat
  | .txmdhr m => 0x18C + 16 * m.toNat
  | .rxmir f => 0x1B0 + 16 * f.toNat
  | .rxmdtr f => 0x1B4 + 16 * f.toNat
  | .rxmdlr f => 0x1B8 + 16 * f.toNat
  | .rxmdhr f => 0x1BC + 16 * f.toNat
  | .fctlr => 0x200
  | .fmcfgr => 0x204
  | .fscfgr => 0x20C
  | .fafifor => 0x214
  | .fwr => 0x21C
  | .fir1 b => 0x240 + 8 * b.val
  | .fir2 b => 0x244 + 8 * b.val

def allMbx : List MbxId := [.mbx0, .mbx1, .mbx2]
def allFifo : List FifoId := [.fifo0, .fifo1]
def allBank : List BankId := List.ofFn id

/-- Every register of R116. -/
def allRegs : List Reg :=
  [.ctlr, .statr, .tstatr, .btimr, .fctlr, .fmcfgr, .fscfgr, .fafifor, .fwr]
    ++ allFifo.flatMap (fun f => [.rfifo f, .rxmir f, .rxmdtr f, .rxmdlr f, .rxmdhr f])
    ++ allMbx.flatMap (fun m => [.txmir m, .txmdtr m, .txmdlr m, .txmdhr m])
    ++ allBank.flatMap (fun b => [.fir1 b, .fir2 b])

/-- The register at an offset, if R116 has one there. -/
def regAt (offset : Nat) : Option Reg := allRegs.find? (fun r => r.offset == offset)

/-- The value a register holds, field by field (R117 to R125). -/
@[reducible] def Reg.Val : Reg → Type
  | .ctlr => Ctlr
  | .statr => Statr
  | .tstatr => Tstatr
  | .rfifo _ => Rfifo
  | .btimr => Btimr
  | .txmir _ => Txmir
  | .txmdtr _ => Txmdtr
  | .txmdlr _ | .txmdhr _ => Word
  | .rxmir _ | .rxmdtr _ | .rxmdlr _ | .rxmdhr _ => Word
  | .fctlr => Fctlr
  | .fmcfgr | .fscfgr | .fafifor | .fwr => BankBits
  | .fir1 _ | .fir2 _ => Word

/-! ### Register images (R117 to R125) -/

/-- The word with bit `i` equal to `v` and every other bit 0. -/
def bitAt (v : Bool) (i : Nat) : Word := (BitVec.ofBool v).setWidth 32 <<< i

/-- The unsigned field `v` with its bit 0 at bit `i` of the word. -/
def fieldAt (v : BitVec n) (i : Nat) : Word := v.setWidth 32 <<< i

/-- The word whose bit `i` is the `i`-th of the list. -/
def bitsLE : List Bool → Word
  | [] => 0
  | v :: vs => (bitsLE vs <<< 1) ||| bitAt v 0

/-- CTLR: bit 0 INRQ (R117). -/
def Ctlr.pack (v : Ctlr) : Word := bitAt v.inrq 0 ||| (v.other &&& 0xFFFFFFFE)
def Ctlr.unpack (w : Word) : Ctlr := ⟨w.getLsbD 0, w⟩

/-- STATR: bit 0 INAK (R118). -/
def Statr.pack (v : Statr) : Word := bitAt v.inak 0 ||| (v.other &&& 0xFFFFFFFE)
def Statr.unpack (w : Word) : Statr := ⟨w.getLsbD 0, w⟩

/-- The TSTATR bits of mailbox m: RQCP 8m, TXOK 8m+1, ALST 8m+2, TERR 8m+3, TME 26+m (R119). -/
def TxFlags.pack (v : TxFlags) (m : Nat) : Word :=
  bitAt v.rqcp (8 * m) ||| bitAt v.txok (8 * m + 1) ||| bitAt v.alst (8 * m + 2) ||| bitAt v.terr (8 * m + 3)
    ||| bitAt v.tme (26 + m)
def TxFlags.unpack (w : Word) (m : Nat) : TxFlags :=
  ⟨w.getLsbD (8 * m), w.getLsbD (8 * m + 1), w.getLsbD (8 * m + 2), w.getLsbD (8 * m + 3), w.getLsbD (26 + m)⟩

/-- TSTATR (R119); its fifteen named bits are those of the mask's complement. -/
def Tstatr.pack (v : Tstatr) : Word :=
  v.flags.m0.pack 0 ||| v.flags.m1.pack 1 ||| v.flags.m2.pack 2 ||| (v.other &&& 0xE3F0F0F0)
def Tstatr.unpack (w : Word) : Tstatr := ⟨⟨.unpack w 0, .unpack w 1, .unpack w 2⟩, w⟩

/-- RFIFO[f]: FMP 1:0, FOVR 4, RFOM 5 (R120). -/
def Rfifo.pack (v : Rfifo) : Word :=
  fieldAt v.fmp 0 ||| bitAt v.fovr 4 ||| bitAt v.rfom 5 ||| (v.other &&& 0xFFFFFFCC)
def Rfifo.unpack (w : Word) : Rfifo := ⟨w.extractLsb' 0 2, w.getLsbD 4, w.getLsbD 5, w⟩

/-- BTIMR: BRP 9:0, TS1 19:16, TS2 22:20, SJW 25:24, LBKM 30, SILM 31 (R121). -/
def Timing.pack (v : Timing) : Word :=
  fieldAt v.brp 0 ||| fieldAt v.ts1 16 ||| fieldAt v.ts2 20 ||| fieldAt v.sjw 24 ||| bitAt v.lbkm 30
    ||| bitAt v.silm 31
def Timing.unpack (w : Word) : Timing :=
  ⟨w.extractLsb' 0 10, w.extractLsb' 16 4, w.extractLsb' 20 3, w.extractLsb' 24 2, w.getLsbD 30, w.getLsbD 31⟩
def Btimr.pack (v : Btimr) : Word := v.timing.pack ||| (v.other &&& 0x3C80FC00)
def Btimr.unpack (w : Word) : Btimr := ⟨.unpack w, w⟩

/-- TXMIR[m]: TXSTID 31:21, TXIDE 2, TXRTR 1, TXRQ 0 (R122). -/
def Txmir.pack (v : Txmir) : Word :=
  fieldAt v.stid 21 ||| bitAt v.ide 2 ||| bitAt v.rtr 1 ||| bitAt v.txrq 0 ||| (v.other &&& 0x001FFFF8)
def Txmir.unpack (w : Word) : Txmir := ⟨w.extractLsb' 21 11, w.getLsbD 2, w.getLsbD 1, w.getLsbD 0, w⟩

/-- TXMDTR[m]: TXDLC 3:0 (R122). -/
def Txmdtr.pack (v : Txmdtr) : Word := fieldAt v.dlc 0 ||| (v.other &&& 0xFFFFFFF0)
def Txmdtr.unpack (w : Word) : Txmdtr := ⟨w.extractLsb' 0 4, w⟩

/-- FCTLR: bit 0 FINIT (R124). -/
def Fctlr.pack (v : Fctlr) : Word := bitAt v.finit 0 ||| (v.other &&& 0xFFFFFFFE)
def Fctlr.unpack (w : Word) : Fctlr := ⟨w.getLsbD 0, w⟩

/-- A per-bank bit register: bit b for bank b < N_BANKS (R124). -/
def BankBits.pack (v : BankBits) : Word := bitsLE v.bits.toList ||| (v.other &&& 0xFFFFC000)
def BankBits.unpack (w : Word) : BankBits := ⟨PerBank.tabulate fun b => w.getLsbD b.val, w⟩

/-- "t with bit b = v" (R130, 42_filter R176): all other bits as read. -/
def BankBits.withBit (t : BankBits) (b : BankId) (v : Bool) : BankBits := { t with bits := t.bits.set b v }

/-- The image of a register's value as one word. -/
def Reg.pack : (r : Reg) → r.Val → Word
  | .ctlr, v => Ctlr.pack v
  | .statr, v => Statr.pack v
  | .tstatr, v => Tstatr.pack v
  | .rfifo _, v => Rfifo.pack v
  | .btimr, v => Btimr.pack v
  | .txmir _, v => Txmir.pack v
  | .txmdtr _, v => Txmdtr.pack v
  | .txmdlr _, v | .txmdhr _, v => v
  | .rxmir _, v | .rxmdtr _, v | .rxmdlr _, v | .rxmdhr _, v => v
  | .fctlr, v => Fctlr.pack v
  | .fmcfgr, v | .fscfgr, v | .fafifor, v | .fwr, v => BankBits.pack v
  | .fir1 _, v | .fir2 _, v => v

/-- The fields of a register's word. -/
def Reg.unpack : (r : Reg) → Word → r.Val
  | .ctlr, w => Ctlr.unpack w
  | .statr, w => Statr.unpack w
  | .tstatr, w => Tstatr.unpack w
  | .rfifo _, w => Rfifo.unpack w
  | .btimr, w => Btimr.unpack w
  | .txmir _, w => Txmir.unpack w
  | .txmdtr _, w => Txmdtr.unpack w
  | .txmdlr _, w | .txmdhr _, w => w
  | .rxmir _, w | .rxmdtr _, w | .rxmdlr _, w | .rxmdhr _, w => w
  | .fctlr, w => Fctlr.unpack w
  | .fmcfgr, w | .fscfgr, w | .fafifor, w | .fwr, w => BankBits.unpack w
  | .fir1 _, w | .fir2 _, w => w

/-! ### The raw image of a frame (R108, R126) -/

/-- Payload byte i is P[8i+7 : 8i] of the 64-bit view P = high word ++ low word (20_memory R76). -/
def payloadByte (dlw dhw : Word) (i : Nat) : Byte := (dhw ++ dlw).extractLsb' (8 * i) 8

/-- Four bytes in a word, the first in bits 7:0 (R108). -/
def wordOfBytes (b0 b1 b2 b3 : Byte) : Word := b3 ++ b2 ++ b1 ++ b0

/-- b(i) of R126: data[i] while i < dlc, else 0x00. -/
def Frame.byte (x : Frame) (i : Nat) : Byte := if i < x.dlc then x.data.getD i 0 else 0

/-- EncodeRaw (R126). -/
def encodeRaw (x : Frame) : Slot :=
  { idw := x.id.setWidth 32 <<< 21
    dtw := BitVec.ofNat 32 x.dlc
    dlw := wordOfBytes (x.byte 0) (x.byte 1) (x.byte 2) (x.byte 3)
    dhw := wordOfBytes (x.byte 4) (x.byte 5) (x.byte 6) (x.byte 7) }

/-- The data length code of a slot, dtw[3:0]. -/
def Slot.dlc (x : Slot) : Nat := (x.dtw.extractLsb' 0 4).toNat

/-- A slot is well-formed when IDE and RTR are 0 and the data length is at most 8 (44_receive R224). -/
def Slot.wellFormed (x : Slot) : Bool := !x.idw.getLsbD 2 && !x.idw.getLsbD 1 && decide (x.dlc ≤ Config.dlcMax)

/-- DecodeRaw (R126); `none` is its `refuse` (44_receive R218). -/
def decodeRaw (x : Slot) : Option Frame :=
  if x.wellFormed then
    some { id := x.idw.extractLsb' 21 11
           dlc := x.dlc
           data := (List.range x.dlc).map (payloadByte x.dlw x.dhw) }
  else none

/-- A Frame in the sense of 00_scope R16: DLC ≤ 8 and exactly DLC bytes. -/
def Frame.wellFormed (x : Frame) : Bool := decide (x.dlc ≤ Config.dlcMax) && decide (x.data.length = x.dlc)

/-- P' of TRYRECV step 9: the 64-bit view with the bytes at and beyond `dlc` forced to 0x00 (44_receive R216). -/
def maskedPayload (dlw dhw : Word) (dlc : Nat) : BitVec 64 := (dhw ++ dlw) &&& ((1#64 <<< (8 * dlc)) - 1)

/-! ### The timing image (R128) -/

/-- EncodeTiming (R128). -/
def encodeTiming (r : BitTiming) (lbkm silm : Bool) : Word :=
  BitVec.ofNat 32 (r.presc - 1) ||| (BitVec.ofNat 32 (r.seg1 - 1) <<< 16) ||| (BitVec.ofNat 32 (r.seg2 - 1) <<< 20)
    ||| (BitVec.ofNat 32 (r.sjw - 1) <<< 24) ||| bitAt lbkm 30 ||| bitAt silm 31

/-! ### Responses (R109 to R111) -/

/-- The response status (R109, 60_exceptions R250). -/
inductive Status where
  | ok
  | wouldBlock
  | invalidTimings
  | illegalCommand
  deriving DecidableEq, Repr

def Status.code : Status → Word
  | .ok => 0
  | .wouldBlock => 1
  | .invalidTimings => 2
  | .illegalCommand => 3

/-- The transmit status value (R111). -/
inductive Txs where
  | pending
  | transmittedOk
  | arbitrationLost
  | transmitError
  | otherError
  deriving DecidableEq, Repr

def Txs.code : Txs → Word
  | .pending => 0
  | .transmittedOk => 1
  | .arbitrationLost => 2
  | .transmitError => 3
  | .otherError => 4

/-- OK with no further field (R110). -/
def okResponse : List Word := [Status.ok.code]

/-- BTCALC's OK response (R110). -/
def btcalcResponse (r : BitTiming) : List Word := [Status.ok.code, encodeTiming r false false]

/-- TXSTATUS's OK response: TXS in bits 10:8 (R110). -/
def txstatusResponse (t : Txs) : List Word := [Status.ok.code ||| (t.code <<< 8)]

/-- TRYRECV's OK response: id 26:16, dlc 11:8, then the payload with the bytes beyond the length 0 (R110, 44_receive
R216 step 9). -/
def tryrecvResponse (x : Slot) (frame : Frame) : List Word :=
  let p := maskedPayload x.dlw x.dhw frame.dlc
  [Status.ok.code ||| (frame.id.setWidth 32 <<< 16) ||| (BitVec.ofNat 32 frame.dlc <<< 8),
   p.extractLsb' 0 32, p.extractLsb' 32 32]

end Sys2Proof.Machine
end

