-- ==== Sys2Proof/Machine/Flags.lean ====
section
/-!
DEFINITION. Status flags: the ways a mailbox's flags change (10_state R32, 43_transmit R203 to R206), the status
function of TXSTATUS (R198), and what a FIFO does when a slot arrives or is released (10_state R39, 44_receive R222,
R223).
-/
namespace Sys2Proof.Machine

/-! ### Mailbox flags -/

/-- The side effects of setting TXRQ[m] (10_state R32): TME and the four completion flags clear. -/
def Mailbox.request (x : Mailbox) : Mailbox :=
  { x with txrq := true, tme := false, rqcp := false, txok := false, alst := false, terr := false }

/-- The flag changes of TxOk (43_transmit R204). -/
def Mailbox.sent (x : Mailbox) : Mailbox :=
  { x with xmit := false, txrq := false, tme := true, rqcp := true, txok := true, alst := false, terr := false }

/-- The second half of TxArbLost and TxError (R205): retry leaves the mailbox Pending, abort makes it Empty. -/
def Mailbox.giveUp (x : Mailbox) (retry : Bool) : Mailbox :=
  if retry then x else { x with txrq := false, tme := true, rqcp := true }

/-- The flag changes of TxArbLost (R205). -/
def Mailbox.lost (x : Mailbox) (retry : Bool) : Mailbox :=
  Mailbox.giveUp { x with xmit := false, alst := true, terr := false, txok := false } retry

/-- The flag changes of TxError (R206). -/
def Mailbox.failed (x : Mailbox) (retry : Bool) : Mailbox :=
  Mailbox.giveUp { x with xmit := false, terr := true, alst := false, txok := false } retry

/-- The TSTATR bits of a mailbox (30_encoding R119). -/
def Mailbox.flags (x : Mailbox) : TxFlags := ⟨x.rqcp, x.txok, x.alst, x.terr, x.tme⟩

/-- The status function: tested in this order, first match wins (43_transmit R198). -/
def txsOf (x : TxFlags) : Txs :=
  if x.txok then .transmittedOk
  else if x.alst then .arbitrationLost
  else if x.terr then .transmitError
  else if !x.tme then .pending
  else .otherError

/-- The scan of TRANSMIT step 2: the lowest-numbered mailbox with TME = 1 (43_transmit R190, R191). -/
def firstEmpty (s : Tstatr) : Option MbxId :=
  if s.flags.m0.tme then some .mbx0
  else if s.flags.m1.tme then some .mbx1
  else if s.flags.m2.tme then some .mbx2
  else none

/-! ### FIFO contents -/

/-- The release-one-message command (10_state R39): the head goes; an empty queue is unchanged. -/
def Fifo.release (x : Fifo) : Fifo := { x with q := x.q.tail }

/-- RxStore's effect (44_receive R222): append at the tail. -/
def Fifo.store (x : Fifo) (slot : Slot) : Fifo := { x with q := x.q ++ [slot] }

/-- RxOverflow's effect (R223): FOVR is set, and the frame is dropped or replaces the newest stored one. -/
def Fifo.overflow (x : Fifo) (slot : Slot) (replace : Bool) : Fifo :=
  { q := if replace then x.q.dropLast ++ [slot] else x.q, fovr := true }

end Sys2Proof.Machine
end

