-- ==== Sys2Proof/Machine/Engine.lean ====
section
/-!
DEFINITION. The engine's side: acceptance (44_receive R220, R221), the eight engine steps with their guards
(41_mode_control R165, R166; 43_transmit R203 to R206; 44_receive R222, R223), and what happens in the gap between two
micro-steps (20_memory R75).
-/
namespace Sys2Proof.Machine

/-! ### Guards -/

/-- Bank `k` takes part, routes to FIFO `f` and matches the identifier word (R221). -/
def RegBlock.bankAccepts (b : RegBlock) (f : FifoId) (idw : Word) (k : BankId) : Bool :=
  let x := b.bank k
  x.fact && x.ffa == f.toBit && Config.accept x.fsc x.fbm x.fr1 x.fr2 idw

/-- A frame with this identifier word is accepted for FIFO `f` (R221). -/
def RegBlock.accepts (b : RegBlock) (f : FifoId) (idw : Word) : Bool :=
  !b.inak && !b.finit && allBank.any (b.bankAccepts f idw)

/-- The guard of TxSelect (R203): INAK = 0, no mailbox is Transmitting, `m` is Pending and no Pending mailbox has a
lower identifier. -/
def RegBlock.selectable (b : RegBlock) (m : MbxId) : Bool :=
  !b.inak && allMbx.all (fun k => !(b.mbx k).xmit)
    && (b.mbx m).state == some .pending
    && allMbx.all (fun k => !((b.mbx k).state == some .pending && decide ((b.mbx k).stid < (b.mbx m).stid)))

/-- The guard of TxOk, TxArbLost and TxError (R204 to R206). -/
def RegBlock.sending (b : RegBlock) (m : MbxId) : Bool := !b.inak && (b.mbx m).xmit

/-- What AUTO_RETX admits (R205): true only retry, false only abort, open both. -/
def retxAllows (autoRetx : Option Bool) (retry : Bool) : Bool :=
  match autoRetx with
  | none => true
  | some a => a == retry

/-- Whether the guard of an engine step holds. -/
def RegBlock.enabled (b : RegBlock) (autoRetx : Option Bool) : EngineEvent → Bool
  | .ackInit => b.inrq && !b.inak
  | .ackNormal => !b.inrq && b.inak
  | .txSelect m => b.selectable m
  | .txOk m => b.sending m
  | .txArbLost m retry => b.sending m && retxAllows autoRetx retry
  | .txError m retry => b.sending m && retxAllows autoRetx retry
  | .rxStore f slot => b.accepts f slot.idw && decide ((b.fifo f).q.length < Config.fifoDepth)
  | .rxOverflow f slot _ => b.accepts f slot.idw && decide ((b.fifo f).q.length = Config.fifoDepth)

/-! ### Effects -/

/-- The effect of an engine step whose guard holds. -/
def RegBlock.effect (b : RegBlock) : EngineEvent → RegBlock
  | .ackInit => { b with inak := true }
  | .ackNormal => { b with inak := false }
  | .txSelect m => b.setMbx m { b.mbx m with xmit := true }
  | .txOk m => b.setMbx m (b.mbx m).sent
  | .txArbLost m retry => b.setMbx m ((b.mbx m).lost retry)
  | .txError m retry => b.setMbx m ((b.mbx m).failed retry)
  | .rxStore f slot => b.setFifo f ((b.fifo f).store slot)
  | .rxOverflow f slot replace => b.setFifo f ((b.fifo f).overflow slot replace)

/-- One engine step; one whose guard does not hold is not taken. -/
def RegBlock.engineStep (b : RegBlock) (autoRetx : Option Bool) (e : EngineEvent) : RegBlock :=
  if b.enabled autoRetx e then b.effect e else b

/-- The engine steps of one gap, in order. -/
def RegBlock.engineSteps (b : RegBlock) (autoRetx : Option Bool) (es : List EngineEvent) : RegBlock :=
  es.foldl (fun b e => b.engineStep autoRetx e) b

/-! ### The gap between two micro-steps -/

/-- What the engine does in a gap for which nothing is listed: with the progress assumption of R167 it takes the
acknowledge step whose guard holds, and nothing else (70 R300). Log 3. -/
def fairEvents (fair : Bool) : List EngineEvent := if fair then [.ackInit, .ackNormal] else []

/-- The engine steps of the coming gap. -/
def Env.nextGap (e : Env) : List EngineEvent := e.gaps.headD (fairEvents e.fair)

/-- Whether the block-reset input is asserted in the coming gap (log 8). -/
def Env.resetNow (e : Env) : Bool := e.resets.head? == some 0

/-- The inputs once the coming gap is past. -/
def Env.pass (e : Env) : Env :=
  { e with
    gaps := e.gaps.tail
    resets := match e.resets with
      | [] => []
      | 0 :: rs => rs
      | (n + 1) :: rs => n :: rs }

/-- Block reset (70 R280): SEQ and the handle take their initial values, a command in progress is abandoned without a
response, and the register block is not touched. -/
def State.blockReset (s : State) : State := { s with seq := .idle, handle := .reset }

/-- One gap: the engine's steps, then the block-reset input. -/
def State.gap (s : State) : State :=
  let t : State := { s with regs := s.regs.engineSteps s.env.autoRetx s.env.nextGap, env := s.env.pass }
  if s.env.resetNow then t.blockReset else t

end Sys2Proof.Machine
end

