-- ==== Sys2Proof/Machine/Ops.lean ====
section
/-!
DEFINITION. The named operations of the sequencer: register reads and writes (00_scope R13), the bus accesses they
stand for, peripheral reset (70 R281), the response that ends a command and the one shared operation of every non-OK
outcome (60_exceptions R250, R264), acceptance of a command (45_facade R235) and the running of its micro-steps.
-/
namespace Sys2Proof.Machine

/-! ### Register access -/

/-- A per-bank bit register's value. -/
def RegBlock.bankBits (b : RegBlock) (p : Bank → Bool) (other : Word) : BankBits :=
  ⟨PerBank.tabulate fun k => p (b.bank k), other⟩

/-- The word a FIFO's output register shows: that word of the head slot, or a free value while the queue is empty
(10_state R40). -/
def Fifo.output (x : Fifo) (word : Slot → Word) (free : Word) : Word :=
  match x.q with
  | [] => free
  | slot :: _ => word slot

/-- The value of a register; `free` supplies the bits the rules do not fix (R49). RFOM reads 0 (R39). -/
def RegBlock.read (b : RegBlock) (free : Word) : (r : Reg) → r.Val
  | .ctlr => ⟨b.inrq, free⟩
  | .statr => ⟨b.inak, free⟩
  | .tstatr => ⟨b.mailboxes.map Mailbox.flags, free⟩
  | .rfifo f => ⟨(b.fifo f).fmp, (b.fifo f).fovr, false, free⟩
  | .btimr => ⟨b.timing, free⟩
  | .txmir m => ⟨(b.mbx m).stid, (b.mbx m).ide, (b.mbx m).rtr, (b.mbx m).txrq, free⟩
  | .txmdtr m => ⟨(b.mbx m).dlc, free⟩
  | .txmdlr m => (b.mbx m).datal
  | .txmdhr m => (b.mbx m).datah
  | .rxmir f => (b.fifo f).output Slot.idw free
  | .rxmdtr f => (b.fifo f).output Slot.dtw free
  | .rxmdlr f => (b.fifo f).output Slot.dlw free
  | .rxmdhr f => (b.fifo f).output Slot.dhw free
  | .fctlr => ⟨b.finit, free⟩
  | .fmcfgr => b.bankBits Bank.fbm free
  | .fscfgr => b.bankBits Bank.fsc free
  | .fafifor => b.bankBits Bank.ffa free
  | .fwr => b.bankBits Bank.fact free
  | .fir1 k => (b.bank k).fr1
  | .fir2 k => (b.bank k).fr2

/-- A write of a per-bank filter register: without meaning while FINIT = 0 (70 R291, 93 U8). -/
def RegBlock.writeBanks (b : RegBlock) (f : BankId → Bank → Bank) : Except Refusal RegBlock :=
  if b.finit then .ok (b.mapBanks f) else .error .filterWriteWhileActive

/-- A write of an identifier register: the fields are stored, and TXRQ = 1 has the side effects of R32; TXRQ = 0 has
none. -/
def Mailbox.writeId (x : Mailbox) (v : Txmir) : Mailbox :=
  let y : Mailbox := { x with stid := v.stid, ide := v.ide, rtr := v.rtr }
  if v.txrq then y.request else y

/-- Whether the timing register is writable: the last column of 10_state R28. -/
def RegBlock.timingWritable (b : RegBlock) : Bool := b.mode == .init

/-- One register write with its side effects (10_state R27, R29, R32, R33, R39 to R46). Read-only fields and the bits
of no named field take nothing. A write of BTIMR while it is not writable (R28) is refused: 93 U4 says so for INAK = 0, and
for INRQ = 0, INAK = 1 it is the model's choice (log 12). -/
def RegBlock.write (b : RegBlock) : (r : Reg) → r.Val → Except Refusal RegBlock
  | .ctlr, v => .ok { b with inrq := Ctlr.inrq v }
  | .statr, _ => .ok b
  | .tstatr, _ => .ok b
  | .rfifo f, v => .ok (if Rfifo.rfom v then b.setFifo f (b.fifo f).release else b)
  | .btimr, v => if b.timingWritable then .ok { b with timing := Btimr.timing v } else .error .timingWriteOutsideInit
  | .txmir m, v => .ok (b.setMbx m ((b.mbx m).writeId v))
  | .txmdtr m, v => .ok (b.setMbx m { b.mbx m with dlc := Txmdtr.dlc v })
  | .txmdlr m, v => .ok (b.setMbx m { b.mbx m with datal := v })
  | .txmdhr m, v => .ok (b.setMbx m { b.mbx m with datah := v })
  | .rxmir _, _ | .rxmdtr _, _ | .rxmdlr _, _ | .rxmdhr _, _ => .ok b
  | .fctlr, v => .ok { b with finit := Fctlr.finit v }
  | .fmcfgr, v => b.writeBanks fun k x => { x with fbm := (BankBits.bits v).get k }
  | .fscfgr, v => b.writeBanks fun k x => { x with fsc := (BankBits.bits v).get k }
  | .fafifor, v => b.writeBanks fun k x => { x with ffa := (BankBits.bits v).get k }
  | .fwr, v => b.writeBanks fun k x => { x with fact := (BankBits.bits v).get k }
  | .fir1 j, v => b.writeBanks fun k x => if k = j then { x with fr1 := v } else x
  | .fir2 j, v => b.writeBanks fun k x => if k = j then { x with fr2 := v } else x

/-- The value that a read of `r` gives now (R13). -/
def State.regVal (s : State) (r : Reg) : r.Val := s.regs.read (Config.freeWord s.free) r

/-- The micro-step of one RegRead: a free value is drawn, nothing else changes (20_memory R78), and SEQ moves on. -/
def State.afterRead (s : State) (next : Seq) : State := { s with free := s.free + 1, seq := next }

/-- The micro-step of one RegWrite: the register block takes the write and SEQ moves on. -/
def State.regWrite (s : State) (r : Reg) (v : r.Val) (next : Seq) : Host.Outcome State Fault Refusal :=
  match s.regs.write r v with
  | .ok b => .next { s with regs := b, seq := next }
  | .error e => .refused e

/-- SEQ moves on and nothing else changes. -/
def State.goto (s : State) (next : Seq) : State := { s with seq := next }

/-! ### The bus behind RegRead and RegWrite (00_scope R13, 20_memory R71) -/

/-- The register at an address, if there is one (R80, R116). DESIGN CHOICE (log 19): an address is a natural number of no
stated width, and REG_BASE + offset does not wrap. -/
def State.regAtAddress (s : State) (address : Nat) : Option Reg :=
  if s.env.regBase ≤ address then regAt (address - s.env.regBase) else none

/-- MemRead(address, 4): the image of the register there. -/
def State.memRead (s : State) (address : Nat) : Host.Outcome (Word × State) Fault Refusal :=
  match s.regAtAddress address with
  | some r => .next (r.pack (s.regVal r), s.afterRead s.seq)
  | none => .fault (.noRegisterAt address)

/-- MemWrite(address, 4, v). -/
def State.memWrite (s : State) (address : Nat) (v : Word) : Host.Outcome State Fault Refusal :=
  match s.regAtAddress address with
  | some r => s.regWrite r (r.unpack v) s.seq
  | none => .fault (.noRegisterAt address)

/-! ### Peripheral reset (70 R281, 10_state R50) -/

/-- A mailbox after peripheral reset: Empty, no flag, its data registers free (four free values from `n`). -/
def Mailbox.afterReset (n : Nat) : Mailbox :=
  let id := Txmir.unpack (Config.freeWord n)
  { Mailbox.powerOn with
    stid := id.stid, ide := id.ide, rtr := id.rtr, dlc := (Txmdtr.unpack (Config.freeWord (n + 1))).dlc,
    datal := Config.freeWord (n + 2), datah := Config.freeWord (n + 3) }

/-- A bank after peripheral reset: inactive, its configuration free (three free values from `n`). -/
def Bank.afterReset (n : Nat) : Bank :=
  { fsc := (Config.freeWord n).getLsbD 0, fbm := (Config.freeWord n).getLsbD 1, ffa := (Config.freeWord n).getLsbD 2,
    fact := false, fr1 := Config.freeWord (n + 1), fr2 := Config.freeWord (n + 2) }

/-- How many free values a peripheral reset draws: one for the timing fields, one for FINIT, four a mailbox, three a
bank. -/
def peripheralResetDraws : Nat := 2 + 4 * Config.nMailbox + 3 * Config.nBanks

/-- The register block after peripheral reset, its `any` fields the free values from `n` (R50, R283; log 6). -/
def RegBlock.afterReset (n : Nat) : RegBlock :=
  { inrq := false
    inak := false
    timing := Timing.unpack (Config.freeWord n)
    mailboxes := ⟨Mailbox.afterReset (n + 2), Mailbox.afterReset (n + 6), Mailbox.afterReset (n + 10)⟩
    fifos := .all ⟨[], false⟩
    finit := (Config.freeWord (n + 1)).getLsbD 0
    banks := PerBank.tabulate fun k => Bank.afterReset (n + 14 + 3 * k.val) }

/-- PeriphEnableReset (45_facade R239): one atomic step. -/
def State.peripheralReset (s : State) : State :=
  { s with regs := RegBlock.afterReset s.free, free := s.free + peripheralResetDraws }

/-! ### Responses -/

/-- `respond` (00_scope R14): the response packet goes out and SEQ returns to IDLE. -/
def State.respond (s : State) (words : List Word) : State := { s with respPort := words, seq := .idle }

/-- Every non-OK outcome (60_exceptions R250, R264): the one-word response, no state saved, no mode changed, SEQ to
IDLE. There is nothing to return from (R265). -/
def State.raise (s : State) (status : Status) : State := s.respond [status.code]

/-! ### Acceptance and execution of a command -/

/-- The most micro-steps one step of the model runs once the listed gaps are used up. It is more than the longest
sequence, CONSTRUCT with one extra pass of each polling loop, so it ends only a polling loop whose acknowledge does not come.
Log 10. -/
def microBudget : Nat := 32

/-- Up to `n` micro-steps, each after its gap, until SEQ is IDLE (20_memory R73, R75). `micro` does nothing when the
gap has reset the block. -/
def drive (micro : State → Host.Outcome State Fault Refusal) : Nat → State → Host.Outcome State Fault Refusal
  | 0, s => .next s
  | n + 1, s =>
    if s.seq = .idle then .next s
    else
      match micro s.gap with
      | .next t => drive micro n t
      | .fault f => .fault f
      | .refused r => .refused r

/-- The micro-steps one step of the model may run. -/
def State.budget (s : State) : Nat := s.env.gaps.length + microBudget

/-- SEQ <- (op, 1); the host has taken the previous response (20_memory R88). -/
def State.begin (s : State) (start : Seq) : State := { s with seq := start, respPort := [] }

/-- Dispatch of a decoded command (45_facade R235): refused while another command runs (93 U6), ILLEGAL_COMMAND when
not legal (30_encoding R112), else its sequence from step 1 to its response. -/
def State.dispatch (s : State) (micro : State → Host.Outcome State Fault Refusal) (legal : Bool) (start : Seq) :
    Host.Outcome State Fault Refusal :=
  if s.seq = .idle then
    if legal then drive micro s.budget (s.begin start) else .next (s.raise .illegalCommand)
  else .refused .commandWhileBusy

end Sys2Proof.Machine
end

