-- ==== Sys2Proof/Machine/Filter.lean ====
section
/-!
DEFINITION. The Filter Bank Programmer: the micro-steps of ADDFILTER (42_filter R176).
-/
namespace Sys2Proof.Machine

/-- The micro-steps of ADDFILTER (R176), `o.bank` being b. -/
def addfilterMicro (o : AddfilterOps) (pos : AddfilterPos) (s : State) : Host.Outcome State Fault Refusal :=
  match pos with
  | .s1 => .next (s.afterRead (.addfilter o (.s2 (s.regVal .fctlr))))
  | .s2 t => s.regWrite .fctlr { t with finit := true } (.addfilter o .s3)
  | .s3 => .next (s.afterRead (.addfilter o (.s4 (s.regVal .fscfgr))))
  | .s4 t => s.regWrite .fscfgr (t.withBit o.bank o.bitmode.toBit) (.addfilter o .s5)
  | .s5 => s.regWrite (.fir1 o.bank) o.idvalue (.addfilter o .s6)
  | .s6 => s.regWrite (.fir2 o.bank) o.idmask (.addfilter o .s7)
  | .s7 => .next (s.afterRead (.addfilter o (.s8 (s.regVal .fmcfgr))))
  | .s8 t => s.regWrite .fmcfgr (t.withBit o.bank o.matchmode.toBit) (.addfilter o .s9)
  | .s9 => .next (s.afterRead (.addfilter o (.s10 (s.regVal .fafifor))))
  | .s10 t => s.regWrite .fafifor (t.withBit o.bank o.fifo.toBit) (.addfilter o .s11)
  | .s11 => .next (s.afterRead (.addfilter o (.s12 (s.regVal .fwr))))
  | .s12 t => s.regWrite .fwr (t.withBit o.bank true) (.addfilter o .s13)
  | .s13 => .next (s.afterRead (.addfilter o (.s14 (s.regVal .fctlr))))
  | .s14 t => s.regWrite .fctlr { t with finit := false } (.addfilter o .s15)
  | .s15 => .next (s.respond okResponse)

end Sys2Proof.Machine
end

