-- ==== Sys2Proof/Machine/BitTiming.lean ====
section
/-!
DEFINITION. The Bit-Timing Calculator: the function BTC (40_bit_timing R143, R144) and the micro-steps of BTCALC (R140).
-/
namespace Sys2Proof.Machine

/-- A split of one bit of N quanta: the scaled distance to the target sample point and the two segments (R144 `cand`). -/
structure Split where
  d : Nat
  seg1 : Nat
  seg2 : Nat
  deriving DecidableEq, Repr

/-- The best solution so far (R144 `best`): distance, quanta, prescaler, segments. -/
structure Solution where
  d : Nat
  n : Nat
  presc : Nat
  seg1 : Nat
  seg2 : Nat
  deriving DecidableEq, Repr

/-- |a − b| of naturals (00_scope R11). -/
def absDiff (a b : Nat) : Nat := (a - b) + (b - a)

/-- `lo` to `hi` ascending, both included. -/
def ascending (lo hi : Nat) : List Nat := (List.range (hi + 1 - lo)).map (· + lo)

/-- The tests of R144 on a split of N quanta: seg2 in range and the sample point inside the band, by
cross-multiplication (R147). -/
def splitInBand (n seg1 : Nat) : Bool :=
  decide (Config.seg2Min + 1 + seg1 ≤ n)
    && decide (n - 1 - seg1 ≤ Config.seg2Max)
    && decide (Config.spMin.num * n ≤ (1 + seg1) * Config.spMin.den)
    && decide ((1 + seg1) * Config.spMax.den ≤ Config.spMax.num * n)

/-- d = |(1 + seg1) · den(SP_TARGET) − num(SP_TARGET) · N| (R144). -/
def targetDistance (n seg1 : Nat) : Nat :=
  absDiff ((1 + seg1) * Config.spTarget.den) (Config.spTarget.num * n)

/-- One pass of R144's inner loop. -/
def splitStep (n : Nat) (cand : Option Split) (seg1 : Nat) : Option Split :=
  if splitInBand n seg1 then
    let d := targetDistance n seg1
    match cand with
    | none => some ⟨d, seg1, n - 1 - seg1⟩
    | some c => if d < c.d then some ⟨d, seg1, n - 1 - seg1⟩ else some c
  else cand

/-- R144's inner loop: the best split of N quanta. -/
def bestSplit (n : Nat) : Option Split := (ascending Config.seg1Min Config.seg1Max).foldl (splitStep n) none

/-- One pass of R144's outer loop, for the ratio R = clk div bitrate. -/
def quantaStep (ratio : Nat) (best : Option Solution) (n : Nat) : Option Solution :=
  if ratio % n = 0 ∧ Config.prescMin ≤ ratio / n ∧ ratio / n ≤ Config.prescMax then
    match bestSplit n with
    | none => best
    | some c =>
      match best with
      | none => some ⟨c.d, n, ratio / n, c.seg1, c.seg2⟩
      | some b => if c.d * b.n < b.d * n then some ⟨c.d, n, ratio / n, c.seg1, c.seg2⟩ else some b
  else best

/-- R144's outer loop. -/
def bestSolution (ratio : Nat) : Option Solution := (ascending Config.nMin Config.nMax).foldl (quantaStep ratio) none

/-- The timing of a solution: sjw = min(seg2, SJW_CAP) (R141 (d)). -/
def Solution.timing (b : Solution) : BitTiming := ⟨b.presc, b.seg1, b.seg2, min b.seg2 Config.sjwCap⟩

/-- BTC(clk, bitrate), exact on naturals (R143, R144, R146); `none` is Fail. -/
def btc (clk bitrate : Word) : Option BitTiming :=
  if bitrate.toNat = 0 then none
  else if clk.toNat % bitrate.toNat ≠ 0 then none
  else (bestSolution (clk.toNat / bitrate.toNat)).map Solution.timing

/-- The micro-steps of BTCALC (R140). -/
def btcalcMicro (clk bitrate : Word) (pos : BtcalcPos) (s : State) : State :=
  match pos with
  | .s1 => s.goto (.btcalc clk bitrate (.s2 (btc clk bitrate)))
  | .s2 none => s.raise .invalidTimings
  | .s2 (some r) => s.respond (btcalcResponse r)

end Sys2Proof.Machine
end

