-- ==== Sys2Proof/Machine/ModeControl.lean ====
section
/-!
DEFINITION. The Mode Controller (41_mode_control R160 to R163) and the micro-steps of CONSTRUCT that contain it
(45_facade R237 to R240).
-/
namespace Sys2Proof.Machine

/-- The value CONSTRUCT writes to BTIMR at step 5 (45_facade R237, 30_encoding R128, R129). -/
def constructTiming (mode : OpMode) (r : BitTiming) : Word := encodeTiming r mode.bits.1 mode.bits.2

/-- The micro-steps of CONSTRUCT (R237). Step 4 is EnterInit, E1 to E4; step 6 is LeaveInit, L1 to L4. -/
def constructMicro (o : ConstructOps) (pos : ConstructPos) (s : State) : Host.Outcome State Fault Refusal :=
  match pos with
  | .s1 =>
    match btc s.env.fPclk o.bitrate with
    | none => .next (s.raise .invalidTimings)
    | some r => .next (s.goto (.construct o (.s2 r)))
  | .s2 r => .next (s.peripheralReset.goto (.construct o (.s3 r)))
  | .s3 r => .next (s.goto (.construct o (.e1 r)))
  | .e1 r => .next (s.afterRead (.construct o (.e2 r (s.regVal .ctlr))))
  | .e2 r t => s.regWrite .ctlr { t with inrq := true } (.construct o (.e3 r))
  | .e3 r => .next (s.afterRead (.construct o (.e4 r (s.regVal .statr))))
  | .e4 r st => .next (s.goto (.construct o (if st.inak then .s5 r else .e3 r)))
  | .s5 r => s.regWrite .btimr (Btimr.unpack (constructTiming o.mode r)) (.construct o .l1)
  | .l1 => .next (s.afterRead (.construct o (.l2 (s.regVal .ctlr))))
  | .l2 t => s.regWrite .ctlr { t with inrq := false } (.construct o .l3)
  | .l3 => .next (s.afterRead (.construct o (.l4 (s.regVal .statr))))
  | .l4 st => .next (s.goto (.construct o (if st.inak then .l3 else .s7)))
  | .s7 =>
    .next { s with
      handle := { constructed := true, boundFifo := o.fifo, lastMbx := none }
      seq := .construct o .s8 }
  | .s8 => .next (s.respond okResponse)

end Sys2Proof.Machine
end

