-- ==== Sys2Proof/Machine/Receive.lean ====
section
/-!
DEFINITION. The Receive FIFO Drainer: the micro-steps of TRYRECV (44_receive R216).
-/
namespace Sys2Proof.Machine

/-- The word of the release write, RFOM alone (30_encoding R120). -/
def releaseWord : Word := 0x00000020

/-- The micro-steps of TRYRECV (R216); f is BOUND_FIFO. Step 7 refuses a slot outside the Frame type before the
release (R218). -/
def tryrecvMicro (pos : TryrecvPos) (s : State) : Host.Outcome State Fault Refusal :=
  let f := s.handle.boundFifo
  match pos with
  | .s1 => .next (s.afterRead (.tryrecv (.s2 (s.regVal (.rfifo f)))))
  | .s2 r => .next (if r.fmp = 0 then s.raise .wouldBlock else s.goto (.tryrecv .s3))
  | .s3 => .next (s.afterRead (.tryrecv (.s4 (s.regVal (.rxmir f)))))
  | .s4 idw => .next (s.afterRead (.tryrecv (.s5 idw (s.regVal (.rxmdtr f)))))
  | .s5 idw dtw => .next (s.afterRead (.tryrecv (.s6 idw dtw (s.regVal (.rxmdlr f)))))
  | .s6 idw dtw dlw => .next (s.afterRead (.tryrecv (.s7 ⟨idw, dtw, dlw, s.regVal (.rxmdhr f)⟩)))
  | .s7 slot =>
    match decodeRaw slot with
    | none => .refused .receiveSlotOutsideFrameType
    | some frame => .next (s.goto (.tryrecv (.s8 slot frame)))
  | .s8 slot frame => s.regWrite (.rfifo f) (Rfifo.unpack releaseWord) (.tryrecv (.s9 slot frame))
  | .s9 slot frame => .next (s.respond (tryrecvResponse slot frame))

end Sys2Proof.Machine
end

