-- ==== Sys2Proof/Machine/Transmit.lean ====
section
/-!
DEFINITION. The Transmit Mailbox Allocator: the micro-steps of TRANSMIT (43_transmit R190) and of TXSTATUS (R197).
-/
namespace Sys2Proof.Machine

/-- The word of TRANSMIT step 6: (ID << 21) or 1 (R190). -/
def requestWord (id : BitVec 11) : Word := (id.setWidth 32 <<< 21) ||| 1

/-- The micro-steps of TRANSMIT (R190). -/
def transmitMicro (o : TransmitOps) (pos : TransmitPos) (s : State) : Host.Outcome State Fault Refusal :=
  match pos with
  | .s1 => .next (s.afterRead (.transmit o (.s2 (s.regVal .tstatr))))
  | .s2 st =>
    match firstEmpty st with
    | none => .next (s.raise .wouldBlock)
    | some m => .next (s.goto (.transmit o (.s3 m)))
  | .s3 m => s.regWrite (.txmdtr m) (Txmdtr.unpack (BitVec.ofNat 32 o.dlc)) (.transmit o (.s4 m))
  | .s4 m => s.regWrite (.txmdlr m) o.datal (.transmit o (.s5 m))
  | .s5 m => s.regWrite (.txmdhr m) o.datah (.transmit o (.s6 m))
  | .s6 m => s.regWrite (.txmir m) (Txmir.unpack (requestWord o.id)) (.transmit o (.s7 m))
  | .s7 m => .next { s with handle := { s.handle with lastMbx := some m }, seq := .transmit o .s8 }
  | .s8 => .next (s.respond okResponse)

/-- The micro-steps of TXSTATUS (R197). At step 2 LAST_MBX is not NONE: step 1 has tested it. -/
def txstatusMicro (pos : TxstatusPos) (s : State) : Host.Outcome State Fault Refusal :=
  match pos with
  | .s1 =>
    match s.handle.lastMbx with
    | none => .next (s.respond (txstatusResponse .otherError))
    | some _ => .next (s.goto (.txstatus .s2))
  | .s2 =>
    match s.handle.lastMbx with
    | none => .next (s.respond (txstatusResponse .otherError))
    | some m => .next (s.goto (.txstatus (.s3 m)))
  | .s3 m => .next (s.afterRead (.txstatus (.s4 m (s.regVal .tstatr))))
  | .s4 m st => .next (s.respond (txstatusResponse (txsOf (st.flags.get m))))

end Sys2Proof.Machine
end

