-- ==== Sys2Proof/Machine/Sequencer.lean ====
section
/-!
DEFINITION. One micro-step of the sequencer at whatever position SEQ holds (10_state R21, 20_memory R70), and going on
with a command that is in execution.
-/
namespace Sys2Proof.Machine

/-- One micro-step; nothing while SEQ is IDLE. -/
def micro (s : State) : Host.Outcome State Fault Refusal :=
  match s.seq with
  | .idle => .next s
  | .btcalc clk bitrate pos => .next (btcalcMicro clk bitrate pos s)
  | .construct o pos => constructMicro o pos s
  | .addfilter o pos => addfilterMicro o pos s
  | .transmit o pos => transmitMicro o pos s
  | .txstatus pos => txstatusMicro pos s
  | .tryrecv pos => tryrecvMicro pos s

/-- The command in execution goes on from its next micro-step. -/
def State.resume (s : State) : Host.Outcome State Fault Refusal := drive micro s.budget s

end Sys2Proof.Machine
end

