-- ==== Sys2Proof/Machine/Commands.lean ====
section
/-!
DEFINITION. The facade's commands (45_facade R235, R244): for each, when it is legal (30_encoding R112) and the
sequence it starts.
-/
namespace Sys2Proof.Machine

/-- BTCALC (40_bit_timing R140): legal in either handle state. -/
def execBtcalc (clk bitrate : Word) (s : State) : Host.Outcome State Fault Refusal :=
  s.dispatch micro true (.btcalc clk bitrate .s1)

/-- CONSTRUCT (45_facade R237): legal only while CONSTRUCTED = 0 (R112 case 7). -/
def execConstruct (fifo : FifoId) (mode : OpMode) (bitrate : Word) (s : State) : Host.Outcome State Fault Refusal :=
  s.dispatch micro (!s.handle.constructed) (.construct ⟨fifo, mode, bitrate⟩ .s1)

/-- ADDFILTER (42_filter R176): legal only for a bank that exists (R112 case 4) and while CONSTRUCTED = 1 (case 6). -/
def execAddfilter (bank : Nat) (bitmode : BitMode) (matchmode : MatchMode) (idvalue idmask : Word) (fifo : FifoId)
    (s : State) : Host.Outcome State Fault Refusal :=
  if h : bank < Config.nBanks then
    s.dispatch micro s.handle.constructed
      (.addfilter { bank := ⟨bank, h⟩, bitmode, matchmode, idvalue, idmask, fifo } .s1)
  else s.dispatch micro false .idle

/-- TRANSMIT (43_transmit R190): legal only with DLC ≤ 8 (R112 case 5) and while CONSTRUCTED = 1 (case 6). -/
def execTransmit (id : BitVec 11) (dlc : Nat) (datal datah : Word) (s : State) : Host.Outcome State Fault Refusal :=
  s.dispatch micro (decide (dlc ≤ Config.dlcMax) && s.handle.constructed) (.transmit ⟨id, dlc, datal, datah⟩ .s1)

/-- TXSTATUS (43_transmit R197): legal only while CONSTRUCTED = 1 (R112 case 6). -/
def execTxstatus (s : State) : Host.Outcome State Fault Refusal :=
  s.dispatch micro s.handle.constructed (.txstatus .s1)

/-- TRYRECV (44_receive R216): legal only while CONSTRUCTED = 1 (R112 case 6). -/
def execTryrecv (s : State) : Host.Outcome State Fault Refusal :=
  s.dispatch micro s.handle.constructed (.tryrecv .s1)

end Sys2Proof.Machine
end

