-- ==== Sys2Proof/Machine/Dispatch.lean ====
section
/-! DEFINITION. One arm per command (30_encoding R101). -/
namespace Sys2Proof.Machine

def exec (i : Instr) (s : State) : Host.Outcome State Fault Refusal :=
  match i with
  | .btcalc clk bitrate => Sys2Proof.Machine.execBtcalc clk bitrate s
  | .construct fifo mode bitrate => Sys2Proof.Machine.execConstruct fifo mode bitrate s
  | .addfilter bank bitmode matchmode idvalue idmask fifo => Sys2Proof.Machine.execAddfilter bank bitmode matchmode idvalue idmask fifo s
  | .transmit id dlc datal datah => Sys2Proof.Machine.execTransmit id dlc datal datah s
  | .txstatus => Sys2Proof.Machine.execTxstatus s
  | .tryrecv => Sys2Proof.Machine.execTryrecv s

end Sys2Proof.Machine
end

