-- ==== Sys2Proof/Machine/Fetch.lean ====
section
/-!
DEFINITION. Taking a command packet from the command port (30_encoding R100, R113; 20_memory R85).
-/
namespace Sys2Proof.Machine

/-- The packet at the front of the command port and the words after it; `none` while the port does not yet hold all the
words that OPC asks for. -/
def takePacket : List Word → Option (List Word × List Word)
  | [] => none
  | w0 :: ws =>
    let n := packetLength w0
    if n ≤ (w0 :: ws).length then some ((w0 :: ws).take n, (w0 :: ws).drop n) else none

/-- The state after an illegal packet (30_encoding R112): its words are consumed and the response is ILLEGAL_COMMAND. -/
def State.rejectPacket (s : State) (rest : List Word) : State := { s with cmdPort := rest }.raise .illegalCommand

end Sys2Proof.Machine
end

