-- ==== Sys2Proof/Machine/Step.lean ====
section
/-!
DEFINITION. One step of the machine. A command in execution goes on; else the packet at the front of the command port
is decoded and its command runs to its response, or it is answered ILLEGAL_COMMAND; with no whole packet there, only the
engine moves (45_facade R235, 20_memory R75, R88).
-/
namespace Sys2Proof.Machine

def step (s : State) : Host.Outcome State Fault Refusal :=
  match s.seq with
  | .idle =>
    match takePacket s.cmdPort with
    | none => .next s.gap
    | some (packet, rest) =>
      match decode packet with
      | .ok i => exec i { s with cmdPort := rest }
      | .error _ => .next (s.rejectPacket rest)
  | _ => s.resume

/-- The host offers the packet whose bits are `w` as the next one: SEQ is IDLE and the packet stands at the front of the
command port. Log 14. -/
def State.withFetchWord (s : State) (nbits w : Nat) : State :=
  { s with seq := .idle, cmdPort := tablePacket nbits w ++ s.cmdPort }

end Sys2Proof.Machine
end

