-- ==== Sys2Proof/Safety.lean ====
section
/-!
DEFINITION. What claims are stated in: the invariants of 10_state R48, what holds at each position of SEQ, and the
words for a state that nothing from outside disturbs.
-/
namespace Sys2Proof.Machine

/-! ### The register block (R48 a to d) -/

/-- R48 (a), (d) for one mailbox. -/
def Mailbox.Consistent (x : Mailbox) : Prop := x.state ≠ none ∧ (x.txok = true → x.rqcp = true)

/-- R48 (a) to (d): each mailbox is Empty, Pending or Transmitting, at most one is Transmitting, no queue is longer than
FIFO_DEPTH, TXOK implies RQCP. -/
structure RegBlock.Consistent (b : RegBlock) : Prop where
  mailbox : ∀ m, (b.mbx m).Consistent
  oneTransmits : ∀ m k, (b.mbx m).xmit = true → (b.mbx k).xmit = true → m = k
  depth : ∀ f, (b.fifo f).q.length ≤ Config.fifoDepth

/-- No bank is active: what holds from a peripheral reset until the first ADDFILTER (R50, R221). -/
def RegBlock.NoBankActive (b : RegBlock) : Prop := ∀ k, (b.bank k).fact = false

/-- R48 (e) and (f): Normal mode, and the filters not suspended unless no ADDFILTER has run since the last peripheral
reset (which shows in that no bank is active). -/
structure RegBlock.AtRest (b : RegBlock) : Prop where
  inrq : b.inrq = false
  inak : b.inak = false
  finit : b.finit = false ∨ b.NoBankActive

/-! ### What holds at each position of SEQ -/

/-- The mode bits along CONSTRUCT (41_mode_control R160 to R164). -/
def ConstructPos.modeHolds (p : ConstructPos) (b : RegBlock) : Prop :=
  match p with
  | .s1 | .s2 _ => True
  | .s3 _ | .e1 _ | .e2 _ _ => b.inrq = false ∧ b.inak = false
  | .e3 _ => b.inrq = true
  | .e4 _ st => b.inrq = true ∧ (st.inak = true → b.inak = true)
  | .s5 _ | .l1 | .l2 _ => b.inrq = true ∧ b.inak = true
  | .l3 => b.inrq = false
  | .l4 st => b.inrq = false ∧ (st.inak = false → b.inak = false)
  | .s7 | .s8 => b.inrq = false ∧ b.inak = false

/-- The peripheral has been reset and not used since: no bank is active. -/
def ConstructPos.freshHolds (p : ConstructPos) (b : RegBlock) : Prop :=
  match p with
  | .s1 | .s2 _ => True
  | _ => b.NoBankActive

/-- CONSTRUCTED along CONSTRUCT (45_facade R237 step 7). -/
def ConstructPos.handleHolds (p : ConstructPos) (h : Handle) : Prop :=
  match p with
  | .s8 => h.constructed = true
  | _ => h.constructed = false

/-- The suspend flag along ADDFILTER (42_filter R177): set from step 3 to step 14. -/
def AddfilterPos.suspendHolds (p : AddfilterPos) (b : RegBlock) : Prop :=
  match p with
  | .s1 | .s2 _ => b.finit = false ∨ b.NoBankActive
  | .s15 => b.finit = false
  | _ => b.finit = true

/-- How many of ADDFILTER's six per-bank writes are done (42_filter R176). -/
def AddfilterPos.written : AddfilterPos → Nat
  | .s1 | .s2 _ | .s3 | .s4 _ => 0
  | .s5 => 1
  | .s6 => 2
  | .s7 | .s8 _ => 3
  | .s9 | .s10 _ => 4
  | .s11 | .s12 _ => 5
  | .s13 | .s14 _ | .s15 => 6

/-- The first `n` of ADDFILTER's per-bank writes stand in the bank: FSC, FR1, FR2, FBM, FFA, FACT (42_filter R177). -/
def AddfilterOps.standIn (o : AddfilterOps) (n : Nat) (x : Bank) : Prop :=
  (1 ≤ n → x.fsc = o.bitmode.toBit) ∧ (2 ≤ n → x.fr1 = o.idvalue) ∧ (3 ≤ n → x.fr2 = o.idmask)
    ∧ (4 ≤ n → x.fbm = o.matchmode.toBit) ∧ (5 ≤ n → x.ffa = o.fifo.toBit) ∧ (6 ≤ n → x.fact = true)

/-- The value read by a RegModify of a per-bank bit register is still what the register holds (20_memory R89). -/
def AddfilterPos.readStands (p : AddfilterPos) (b : RegBlock) : Prop :=
  match p with
  | .s4 t => ∀ k, t.bits.get k = (b.bank k).fsc
  | .s8 t => ∀ k, t.bits.get k = (b.bank k).fbm
  | .s10 t => ∀ k, t.bits.get k = (b.bank k).ffa
  | .s12 t => ∀ k, t.bits.get k = (b.bank k).fact
  | _ => True

/-- The mailbox chosen by TRANSMIT step 2 is Empty until step 6 (20_memory R87 (a), 43_transmit R195). -/
def TransmitPos.mailboxHolds (p : TransmitPos) (b : RegBlock) : Prop :=
  match p with
  | .s2 st => ∀ m, (st.flags.get m).tme = true → (b.mbx m).tme = true
  | .s3 m | .s4 m | .s5 m | .s6 m => (b.mbx m).tme = true
  | _ => True

/-- The words TRYRECV has read are those of the head slot until step 8 (20_memory R87 (b), 44_receive R217). -/
def TryrecvPos.headHolds (p : TryrecvPos) (x : Fifo) : Prop :=
  match p with
  | .s2 r => r.fmp ≠ 0 → x.q ≠ []
  | .s3 => x.q ≠ []
  | .s4 idw => ∃ a ∈ x.q.head?, a.idw = idw
  | .s5 idw dtw => ∃ a ∈ x.q.head?, a.idw = idw ∧ a.dtw = dtw
  | .s6 idw dtw dlw => ∃ a ∈ x.q.head?, a.idw = idw ∧ a.dtw = dtw ∧ a.dlw = dlw
  | .s7 slot | .s8 slot _ => x.q.head? = some slot
  | .s1 | .s9 _ _ => True

/-- What holds at the sequencer's position. -/
def State.SeqHolds (s : State) : Prop :=
  match s.seq with
  | .idle | .btcalc _ _ _ => s.handle.constructed = true → s.regs.AtRest
  | .construct _ p => p.modeHolds s.regs ∧ p.freshHolds s.regs ∧ p.handleHolds s.handle
  | .addfilter o p =>
    s.handle.constructed = true ∧ s.regs.inrq = false ∧ s.regs.inak = false ∧ p.suspendHolds s.regs
      ∧ o.standIn p.written (s.regs.bank o.bank) ∧ p.readStands s.regs
  | .transmit _ p => s.handle.constructed = true ∧ s.regs.AtRest ∧ p.mailboxHolds s.regs
  | .txstatus _ => s.handle.constructed = true ∧ s.regs.AtRest
  | .tryrecv p => s.handle.constructed = true ∧ s.regs.AtRest ∧ p.headHolds (s.regs.fifo s.handle.boundFifo)

/-- The invariant of the machine: R48 (a) to (f) with what makes it inductive. -/
structure State.Inv (s : State) : Prop where
  regs : s.regs.Consistent
  seq : s.SeqHolds

/-! ### Undisturbed states -/

/-- No assertion of the block-reset input is coming. -/
def State.NoReset (s : State) : Prop := s.env.resets = []

/-- The engine takes no step in any coming gap: nothing is listed, and no acknowledge is due. -/
structure State.Quiet (s : State) : Prop where
  gaps : s.env.gaps = []
  resets : s.env.resets = []
  settled : s.regs.inrq = s.regs.inak

/-- The data registers of a mailbox (10_state R33) hold the same. -/
def Mailbox.SameData (x y : Mailbox) : Prop :=
  x.stid = y.stid ∧ x.ide = y.ide ∧ x.rtr = y.rtr ∧ x.dlc = y.dlc ∧ x.datal = y.datal ∧ x.datah = y.datah

/-- Two register blocks that differ by engine steps only. -/
def RegBlock.UpToEngine (a : Option Bool) (b c : RegBlock) : Prop := ∃ es, c = b.engineSteps a es

/-- The command port, the inputs and the parameters of a run are the same; only the list of coming gaps may be used up. -/
structure State.SameInputs (s t : State) : Prop where
  cmdPort : t.cmdPort = s.cmdPort
  fPclk : t.env.fPclk = s.env.fPclk
  regBase : t.env.regBase = s.env.regBase
  autoRetx : t.env.autoRetx = s.env.autoRetx
  fair : t.env.fair = s.env.fair
  resets : t.env.resets = s.env.resets

/-! ### Legality of a command, on the fields of word 0 (30_encoding R112) -/

/-- Bits hi:lo of a word as a number (00_scope R11). -/
def fieldOf (w : Word) (hi lo : Nat) : Nat := (w.toNat / 2 ^ lo) % 2 ^ (hi + 1 - lo)

/-- R112 cases 1 to 7 for the header `w0`, CONSTRUCTED being `constructed`. -/
def IllegalCommand (w0 : Word) (constructed : Bool) : Prop :=
  let opc := fieldOf w0 31 28
  (opc = 0 ∨ 7 ≤ opc)
    ∨ (opc = 1 ∧ fieldOf w0 27 0 ≠ 0)
    ∨ (opc = 2 ∧ fieldOf w0 27 3 ≠ 0)
    ∨ (opc = 3 ∧ (fieldOf w0 27 13 ≠ 0 ∨ fieldOf w0 11 10 ≠ 0 ∨ fieldOf w0 7 5 ≠ 0))
    ∨ (opc = 4 ∧ (fieldOf w0 27 20 ≠ 0 ∨ fieldOf w0 15 11 ≠ 0))
    ∨ (opc = 5 ∧ fieldOf w0 27 0 ≠ 0)
    ∨ (opc = 6 ∧ fieldOf w0 27 0 ≠ 0)
    ∨ (opc = 2 ∧ fieldOf w0 2 1 = 3)
    ∨ (opc = 3 ∧ Config.nBanks ≤ fieldOf w0 4 0)
    ∨ (opc = 4 ∧ Config.dlcMax < fieldOf w0 19 16)
    ∨ ((opc = 3 ∨ opc = 4 ∨ opc = 5 ∨ opc = 6) ∧ constructed = false)
    ∨ (opc = 2 ∧ constructed = true)

/-! ### Candidates of the Bit-Timing Calculator (40_bit_timing R141, R142) -/

/-- A candidate: conditions (a), (b), (c) of R141, with N = 1 + seg1 + seg2. -/
structure IsCandidate (clk bitrate presc seg1 seg2 : Nat) : Prop where
  exact : clk = bitrate * presc * (1 + seg1 + seg2)
  prescRange : Config.prescMin ≤ presc ∧ presc ≤ Config.prescMax
  seg1Range : Config.seg1Min ≤ seg1 ∧ seg1 ≤ Config.seg1Max
  seg2Range : Config.seg2Min ≤ seg2 ∧ seg2 ≤ Config.seg2Max
  aboveMin : Config.spMin.num * (1 + seg1 + seg2) ≤ (1 + seg1) * Config.spMin.den
  belowMax : (1 + seg1) * Config.spMax.den ≤ Config.spMax.num * (1 + seg1 + seg2)

/-- R142's order on splits of N and N' quanta: distance to the target, then fewer quanta, then smaller seg1. The
distances |(1 + seg1)/N − SP_TARGET| are compared after multiplying by den(SP_TARGET) · N · N'. -/
def SplitNoWorse (seg1 seg2 seg1' seg2' : Nat) : Prop :=
  let n := 1 + seg1 + seg2
  let n' := 1 + seg1' + seg2'
  let d := targetDistance n seg1 * n'
  let d' := targetDistance n' seg1' * n
  d < d' ∨ (d = d' ∧ (n < n' ∨ (n = n' ∧ seg1 ≤ seg1')))

end Sys2Proof.Machine
end

