-- ==== Sys2Proof/Certificates/Slice0/Obligations.lean ====
section
/-!
DEFINITION. The statements for the provers. `exec i s = .next t` is a command run to its response over the engine
steps that `s.env.gaps` lists; `s.gap` is `s` after the coming gap.
-/

open Sys2Proof Sys2Proof.Machine

/-! ### Encoding and dispatch -/

/-- Every well-formed command decodes from its own packet (30_encoding R102 to R107). -/
def Obligations.DecodeOfEncode : Prop :=
  ∀ i : Instr, i.wellFormed = true → decode (encode i) = .ok i

/-- Nothing else decodes: a packet that decodes to a command is that command's packet, and the command is
well-formed. -/
def Obligations.DecodeOnlyEncodings : Prop :=
  ∀ (ws : List Word) (i : Instr), decode ws = .ok i → i.wellFormed = true ∧ encode i = ws

/-- The worked encodings of 30_encoding section 6. -/
def Obligations.WorkedEncodingsDecode : Prop :=
  decode [0x10000000, 0x007A1200, 0x0007A120] = .ok (.btcalc 8000000 500000)
    ∧ decode [0x20000003, 0x0003D090] = .ok (.construct .fifo1 .loopback 250000)
    ∧ decode [0x20000004, 0x000F4240] = .ok (.construct .fifo0 .silent 1000000)
    ∧ decode [0x30000100, 0x24600000, 0xFFE00000] = .ok (.addfilter 0 .b32 .mask 0x24600000 0xFFE00000 .fifo0)
    ∧ decode [0x3000120D, 0x24602480, 0x24A024C0] = .ok (.addfilter 13 .b16 .list 0x24602480 0x24A024C0 .fifo1)
    ∧ decode [0x40020123, 0x0000BBAA, 0x00000000] = .ok (.transmit 0x123 2 0x0000BBAA 0)
    ∧ decode [0x50000000] = .ok .txstatus
    ∧ decode [0x60000000] = .ok .tryrecv

/-- 30_encoding R113: the packet taken from the command port is its first 3, 2 or 1 words, by OPC alone, and the words
after it stay; it is taken exactly when that many words are there. -/
def Obligations.PacketLengthByOpcode : Prop :=
  ∀ (w0 : Word) (ws : List Word),
    let opc := fieldOf w0 31 28
    let n := if opc = 1 ∨ opc = 3 ∨ opc = 4 then 3 else if opc = 2 then 2 else 1
    (n ≤ ws.length + 1 → takePacket (w0 :: ws) = some ((w0 :: ws).take n, (w0 :: ws).drop n))
      ∧ (ws.length + 1 < n → takePacket (w0 :: ws) = none)

/-- 30_encoding R112: an illegal command is answered ILLEGAL_COMMAND and changes nothing but the ports; a legal one
decodes to a well-formed command that runs. -/
def Obligations.IllegalCommandsChangeNothing : Prop :=
  ∀ (s : State) (w0 : Word) (ops rest : List Word),
    s.seq = .idle → takePacket s.cmdPort = some (w0 :: ops, rest) →
    (IllegalCommand w0 s.handle.constructed →
        step s = .next { s with cmdPort := rest, respPort := [0x00000003] })
      ∧ (¬ IllegalCommand w0 s.handle.constructed →
        ∃ i, decode (w0 :: ops) = .ok i ∧ i.wellFormed = true ∧ step s = exec i { s with cmdPort := rest })

/-- A step runs the decoded command from the packet at the front of the command port while SEQ is IDLE (45_facade R235).
The rest is the model's choice: that `exec` runs a whole command in one step (log 1), that with no whole packet only the gap
passes (log 15), and that while SEQ is not IDLE the command in execution goes on for a budget of micro-steps (logs 1 and
10). -/
def Obligations.StepRunsDecodedCommand : Prop :=
  ∀ s : State,
    (s.seq = .idle → ∀ p rest i, takePacket s.cmdPort = some (p, rest) → decode p = .ok i →
        step s = exec i { s with cmdPort := rest })
      ∧ (s.seq = .idle → takePacket s.cmdPort = none → step s = .next s.gap)
      ∧ (s.seq ≠ .idle → step s = drive micro s.budget s)

/-- A command given to `exec` while another is in execution is refused (93 U6, log 12). -/
def Obligations.SecondCommandInFlightRefused : Prop :=
  ∀ (i : Instr) (s : State), s.seq ≠ .idle → exec i s = .refused .commandWhileBusy

/-! ### The Bit-Timing Calculator -/

/-- The contract R141, for a bit rate other than 0 (R143 makes 0 fail first, log 18): what BTC returns is a candidate
with sjw = min(seg2, SJW_CAP), and it fails exactly when there is no candidate. -/
def Obligations.BtcMeetsContract : Prop :=
  ∀ clk bitrate : Word,
    (∀ r, btc clk bitrate = some r →
        IsCandidate clk.toNat bitrate.toNat r.presc r.seg1 r.seg2 ∧ r.sjw = min r.seg2 Config.sjwCap)
      ∧ (bitrate.toNat = 0 → btc clk bitrate = none)
      ∧ (bitrate.toNat ≠ 0 →
        (btc clk bitrate = none ↔ ¬ ∃ presc seg1 seg2, IsCandidate clk.toNat bitrate.toNat presc seg1 seg2))

/-- R142: the candidate returned is least in distance to the target, then quanta, then seg1. -/
def Obligations.BtcChoosesLeastCandidate : Prop :=
  ∀ (clk bitrate : Word) (r : BitTiming), btc clk bitrate = some r →
    ∀ presc seg1 seg2, IsCandidate clk.toNat bitrate.toNat presc seg1 seg2 → SplitNoWorse r.seg1 r.seg2 seg1 seg2

/-- R128: the timing image, as a number and field by field, for parameters in the ranges of R9; `Bool.toNat` is 1 of
true. -/
def Obligations.TimingImageHoldsParameters : Prop :=
  ∀ (r : BitTiming) (lbkm silm : Bool), 1 ≤ r.presc → r.presc ≤ 1024 → 1 ≤ r.seg1 → r.seg1 ≤ 16 → 1 ≤ r.seg2 →
    r.seg2 ≤ 8 → 1 ≤ r.sjw → r.sjw ≤ 4 →
    let t := Timing.unpack (encodeTiming r lbkm silm)
    (encodeTiming r lbkm silm).toNat = (r.presc - 1) + (r.seg1 - 1) * 2 ^ 16 + (r.seg2 - 1) * 2 ^ 20
        + (r.sjw - 1) * 2 ^ 24 + lbkm.toNat * 2 ^ 30 + silm.toNat * 2 ^ 31
      ∧ t.brp.toNat + 1 = r.presc ∧ t.ts1.toNat + 1 = r.seg1 ∧ t.ts2.toNat + 1 = r.seg2 ∧ t.sjw.toNat + 1 = r.sjw
      ∧ t.lbkm = lbkm ∧ t.silm = silm ∧ t.pack = encodeTiming r lbkm silm

/-- BTCALC (R140) completes in every state with SEQ idle, in either handle state, with the answer of BTC; it makes no
register access and writes no state. -/
def Obligations.BtcalcCompletes : Prop :=
  ∀ (clk bitrate : Word) (s : State), s.seq = .idle → s.NoReset →
    ∃ t, exec (.btcalc clk bitrate) s = .next t ∧ t.seq = .idle
      ∧ t.respPort = (match btc clk bitrate with
          | none => [0x00000002]
          | some r => [0x00000000, encodeTiming r false false])
      ∧ t.handle = s.handle ∧ t.free = s.free ∧ RegBlock.UpToEngine s.env.autoRetx s.regs t.regs ∧ s.SameInputs t

/-! ### Construction and the Mode Controller -/

/-- CONSTRUCT (R237, R241): when BTC finds a timing and the engine acknowledges (R167; the model's `env.fair`, log 3), it
completes whatever else the engine does meanwhile: Normal mode, the timing image in BTIMR, mailboxes Empty without flags, FIFOs empty without overflow, no
bank active, the handle ready. -/
def Obligations.ConstructCompletes : Prop :=
  ∀ (fifo : FifoId) (mode : OpMode) (bitrate : Word) (r : BitTiming) (s : State),
    s.seq = .idle → s.NoReset → s.env.fair = true → s.handle.constructed = false →
    btc s.env.fPclk bitrate = some r →
    ∃ t, exec (.construct fifo mode bitrate) s = .next t ∧ t.seq = .idle ∧ t.respPort = [0x00000000]
      ∧ t.handle = ⟨true, fifo, none⟩
      ∧ t.regs.inrq = false ∧ t.regs.inak = false
      ∧ t.regs.timing = Timing.unpack (encodeTiming r (mode == .loopback) (mode == .silent))
      ∧ (∀ m, (t.regs.mbx m).state = some .empty ∧ (t.regs.mbx m).rqcp = false ∧ (t.regs.mbx m).txok = false
          ∧ (t.regs.mbx m).alst = false ∧ (t.regs.mbx m).terr = false)
      ∧ (∀ f, t.regs.fifo f = ⟨[], false⟩)
      ∧ (∀ k, (t.regs.bank k).fact = false)
      ∧ s.SameInputs t

/-- R238: when BTC fails, CONSTRUCT responds INVALID_TIMINGS and has done nothing else: no register read or written, the
handle as it was. -/
def Obligations.ConstructFailsWithoutEffect : Prop :=
  ∀ (fifo : FifoId) (mode : OpMode) (bitrate : Word) (s : State),
    s.seq = .idle → s.NoReset → s.handle.constructed = false → btc s.env.fPclk bitrate = none →
    ∃ t, exec (.construct fifo mode bitrate) s = .next t ∧ t.seq = .idle ∧ t.respPort = [0x00000002]
      ∧ t.handle = s.handle ∧ t.free = s.free ∧ RegBlock.UpToEngine s.env.autoRetx s.regs t.regs ∧ s.SameInputs t

/-- R161, R167: an engine that never acknowledges (the model's `env.fair` false and nothing listed, log 3) leaves CONSTRUCT
in its polling loop for ever: however many steps follow, no response and SEQ not IDLE. -/
def Obligations.ConstructHangsWithoutAcknowledge : Prop :=
  ∀ (fifo : FifoId) (mode : OpMode) (bitrate : Word) (r : BitTiming) (s : State),
    s.seq = .idle → s.NoReset → s.env.fair = false → s.env.gaps = [] → s.handle.constructed = false →
    btc s.env.fPclk bitrate = some r →
    ∃ t, exec (.construct fifo mode bitrate) s = .next t ∧
      ∀ n, ∃ u : State, Host.Core.run Sys2Proof.core n t = .next u ∧ u.respPort = [] ∧ u.seq ≠ .idle
        ∧ u.regs.inrq = true ∧ u.regs.inak = false

/-- R290, R28: the timing fields change only by CONSTRUCT's peripheral reset, or by a write in Initialization, with INRQ and
INAK both 1. That a write with INAK = 1 and INRQ = 0 changes nothing because it is refused is the model's choice (log 12). -/
def Obligations.TimingWrittenOnlyInInitialization : Prop :=
  ∀ s t : State, micro s = .next t → t.regs.timing ≠ s.regs.timing →
    (s.regs.inrq = true ∧ s.regs.inak = true) ∨ ∃ o r, s.seq = .construct o (.s2 r)

/-- 41_mode_control R165, R166: the acknowledge steps, their guards and effects. -/
def Obligations.AcknowledgeSteps : Prop :=
  ∀ (b : RegBlock) (a : Option Bool),
    (b.engineStep a .ackInit = if b.inrq = true ∧ b.inak = false then { b with inak := true } else b)
      ∧ (b.engineStep a .ackNormal = if b.inrq = false ∧ b.inak = true then { b with inak := false } else b)

/-- R168: while INAK = 1 no engine step but AckNormal changes anything, and while the request stands too, none does. -/
def Obligations.EngineInactiveInInitialization : Prop :=
  ∀ (b : RegBlock) (a : Option Bool), b.inak = true →
    (∀ e, e ≠ .ackNormal → b.engineStep a e = b) ∧ (b.inrq = true → ∀ es, b.engineSteps a es = b)

/-! ### The Filter Bank Programmer -/

/-- ADDFILTER (R176) completes for every bank, mode pair and FIFO, whatever the engine does meanwhile: the bank holds the
filter and is active, FINIT is 0, every other bank, the handle, INRQ, the timing fields and the mailbox data are as
before. -/
def Obligations.AddfilterInstallsFilter : Prop :=
  ∀ (bank : BankId) (bm : BitMode) (mm : MatchMode) (idvalue idmask : Word) (fifo : FifoId) (s : State),
    s.seq = .idle → s.NoReset → s.handle.constructed = true →
    ∃ t, exec (.addfilter bank.val bm mm idvalue idmask fifo) s = .next t ∧ t.seq = .idle ∧ t.respPort = [0x00000000]
      ∧ t.regs.bank bank = ⟨bm == .b32, mm == .list, fifo == .fifo1, true, idvalue, idmask⟩
      ∧ (∀ k, k ≠ bank → t.regs.bank k = s.regs.bank k)
      ∧ t.regs.finit = false ∧ t.regs.inrq = s.regs.inrq ∧ t.regs.timing = s.regs.timing
      ∧ (∀ m, (t.regs.mbx m).SameData (s.regs.mbx m))
      ∧ t.handle = s.handle ∧ s.SameInputs t

/-- ADDFILTER's frame: with the engine still, the whole state after it. -/
def Obligations.AddfilterFrame : Prop :=
  ∀ (bank : BankId) (bm : BitMode) (mm : MatchMode) (idvalue idmask : Word) (fifo : FifoId) (s : State),
    s.seq = .idle → s.Quiet → s.handle.constructed = true →
    exec (.addfilter bank.val bm mm idvalue idmask fifo) s = .next { s with
      regs := { s.regs.mapBanks (fun k x =>
        if k = bank then ⟨bm == .b32, mm == .list, fifo == .fifo1, true, idvalue, idmask⟩ else x) with finit := false }
      respPort := [0x00000000]
      free := s.free + 6 }

/-- R291: a micro-step outside CONSTRUCT that changes a bank runs while FINIT = 1. -/
def Obligations.BanksWrittenOnlyWhileSuspended : Prop :=
  ∀ (s t : State) (k : BankId), micro s = .next t → t.regs.bank k ≠ s.regs.bank k →
    s.regs.finit = true ∨ ∃ o r, s.seq = .construct o (.s2 r)

/-- R221: while FINIT = 1, or INAK = 1, or no bank is active, no frame is accepted; while FINIT = 1 or no bank is active
no engine steps change a FIFO. -/
def Obligations.NothingStoredWhileSuspended : Prop :=
  ∀ (b : RegBlock) (a : Option Bool) (es : List EngineEvent) (f : FifoId),
    (b.finit = true ∨ b.inak = true ∨ b.NoBankActive → ∀ idw, b.accepts f idw = false)
      ∧ (b.finit = true ∨ b.NoBankActive → (b.engineSteps a es).fifo f = b.fifo f)

/-- 30_encoding R130: a bank-bit write changes the one bank's bit and nothing else, whatever the other bits read. -/
def Obligations.BankBitWriteChangesOneBank : Prop :=
  ∀ (b : RegBlock) (w : Word) (k : BankId) (v : Bool), b.finit = true →
    b.write .fscfgr (BankBits.withBit (b.read w .fscfgr) k v)
        = .ok (b.mapBanks fun j x => if j = k then { x with fsc := v } else x)
      ∧ b.write .fmcfgr (BankBits.withBit (b.read w .fmcfgr) k v)
        = .ok (b.mapBanks fun j x => if j = k then { x with fbm := v } else x)
      ∧ b.write .fafifor (BankBits.withBit (b.read w .fafifor) k v)
        = .ok (b.mapBanks fun j x => if j = k then { x with ffa := v } else x)
      ∧ b.write .fwr (BankBits.withBit (b.read w .fwr) k v)
        = .ok (b.mapBanks fun j x => if j = k then { x with fact := v } else x)

/-! ### The Transmit Mailbox Allocator -/

/-- TRANSMIT (R190) completes when the status read at step 1, after the first gap, shows an Empty mailbox; the
lowest-numbered one (R191) gets the frame, LAST_MBX its index, whatever the engine does meanwhile. -/
def Obligations.TransmitLoadsFirstEmpty : Prop :=
  ∀ (id : BitVec 11) (dlc : Nat) (datal datah : Word) (m : MbxId) (s : State),
    s.seq = .idle → s.NoReset → s.handle.constructed = true → dlc ≤ 8 →
    (s.gap.regs.mbx m).tme = true → (∀ k : MbxId, k.toNat < m.toNat → (s.gap.regs.mbx k).tme = false) →
    ∃ t, exec (.transmit id dlc datal datah) s = .next t ∧ t.seq = .idle ∧ t.respPort = [0x00000000]
      ∧ t.handle = { s.handle with lastMbx := some m }
      ∧ (t.regs.mbx m).stid = id ∧ (t.regs.mbx m).ide = false ∧ (t.regs.mbx m).rtr = false
      ∧ (t.regs.mbx m).dlc.toNat = dlc ∧ (t.regs.mbx m).datal = datal ∧ (t.regs.mbx m).datah = datah
      ∧ (∀ k, k ≠ m → (t.regs.mbx k).SameData (s.regs.mbx k))
      ∧ t.regs.inrq = s.regs.inrq ∧ t.regs.timing = s.regs.timing ∧ t.regs.finit = s.regs.finit
      ∧ t.regs.banks = s.regs.banks ∧ s.SameInputs t

/-- TRANSMIT's frame and the side effects of the request (10_state R32): with the engine still, the whole state after
it. -/
def Obligations.TransmitFrame : Prop :=
  ∀ (id : BitVec 11) (dlc : Nat) (datal datah : Word) (m : MbxId) (s : State),
    s.seq = .idle → s.Quiet → s.handle.constructed = true → dlc ≤ 8 →
    (s.regs.mbx m).tme = true → (∀ k : MbxId, k.toNat < m.toNat → (s.regs.mbx k).tme = false) →
    exec (.transmit id dlc datal datah) s = .next { s with
      handle := { s.handle with lastMbx := some m }
      regs := s.regs.setMbx m { s.regs.mbx m with
        stid := id, ide := false, rtr := false, dlc := BitVec.ofNat 4 dlc, datal := datal, datah := datah,
        txrq := true, tme := false, rqcp := false, txok := false, alst := false, terr := false }
      respPort := [0x00000000]
      free := s.free + 1 }

/-- R192: when the status read shows no Empty mailbox TRANSMIT responds WOULD_BLOCK, writes nothing and leaves LAST_MBX. -/
def Obligations.TransmitWouldBlock : Prop :=
  ∀ (id : BitVec 11) (dlc : Nat) (datal datah : Word) (s : State),
    s.seq = .idle → s.NoReset → s.handle.constructed = true → dlc ≤ 8 → (∀ k, (s.gap.regs.mbx k).tme = false) →
    ∃ t, exec (.transmit id dlc datal datah) s = .next t ∧ t.seq = .idle ∧ t.respPort = [0x00000001]
      ∧ t.handle = s.handle ∧ t.free = s.free + 1 ∧ RegBlock.UpToEngine s.env.autoRetx s.regs t.regs ∧ s.SameInputs t

/-- 20_memory R87 (a): no engine steps touch an Empty mailbox. -/
def Obligations.EmptyMailboxStable : Prop :=
  ∀ (b : RegBlock) (a : Option Bool) (es : List EngineEvent) (m : MbxId),
    (b.mbx m).state = some .empty → (b.engineSteps a es).mbx m = b.mbx m

/-- R195: in a state that meets the invariant, a micro-step of TRANSMIT that changes a mailbox finds it Empty. -/
def Obligations.TransmitWritesOnlyEmptyMailbox : Prop :=
  ∀ (s t : State) (o : TransmitOps) (p : TransmitPos) (m : MbxId), s.Inv → s.seq = .transmit o p → micro s = .next t →
    t.regs.mbx m ≠ s.regs.mbx m → (s.regs.mbx m).state = some .empty

/-- R201: from an all-empty pool, with the engine still, three TRANSMITs load mailboxes 0, 1, 2 in that order and a fourth
responds WOULD_BLOCK. -/
def Obligations.PoolFillsThenBlocks : Prop :=
  ∀ (id : Fin 4 → BitVec 11) (dlc : Fin 4 → Nat) (datal datah : Fin 4 → Word) (s : State),
    s.seq = .idle → s.Quiet → s.handle.constructed = true → (∀ j, dlc j ≤ 8) → (∀ m, (s.regs.mbx m).tme = true) →
    ∃ t0 t1 t2 t3,
      exec (.transmit (id 0) (dlc 0) (datal 0) (datah 0)) s = .next t0
      ∧ exec (.transmit (id 1) (dlc 1) (datal 1) (datah 1)) t0 = .next t1
      ∧ exec (.transmit (id 2) (dlc 2) (datal 2) (datah 2)) t1 = .next t2
      ∧ exec (.transmit (id 3) (dlc 3) (datal 3) (datah 3)) t2 = .next t3
      ∧ t0.respPort = [0] ∧ t0.handle.lastMbx = some .mbx0
      ∧ t1.respPort = [0] ∧ t1.handle.lastMbx = some .mbx1
      ∧ t2.respPort = [0] ∧ t2.handle.lastMbx = some .mbx2
      ∧ t3.respPort = [1] ∧ t3.handle.lastMbx = some .mbx2 ∧ t3.regs = t2.regs

/-- R199: no micro-step but CONSTRUCT's peripheral reset clears TXRQ or makes a Pending or Transmitting mailbox Empty. -/
def Obligations.NoCommandCancelsRequest : Prop :=
  ∀ (s t : State) (m : MbxId), micro s = .next t → (∀ o r, s.seq ≠ .construct o (.s2 r)) →
    ((s.regs.mbx m).txrq = true → (t.regs.mbx m).txrq = true)
      ∧ ((s.regs.mbx m).tme = false → (t.regs.mbx m).tme = false)

/-- R197: before any TRANSMIT the status is OTHER_ERROR, with no register access. -/
def Obligations.TxstatusBeforeTransmit : Prop :=
  ∀ s : State, s.seq = .idle → s.NoReset → s.handle.constructed = true → s.handle.lastMbx = none →
    ∃ t, exec .txstatus s = .next t ∧ t.seq = .idle ∧ t.respPort = [0x00000400]
      ∧ t.handle = s.handle ∧ t.free = s.free ∧ RegBlock.UpToEngine s.env.autoRetx s.regs t.regs ∧ s.SameInputs t

/-- R197, R198: the status of mailbox LAST_MBX as the register block holds it when step 3 reads it, after three gaps; no
state is written. -/
def Obligations.TxstatusReportsLastMailbox : Prop :=
  ∀ (s : State) (m : MbxId), s.seq = .idle → s.NoReset → s.handle.constructed = true → s.handle.lastMbx = some m →
    let x := s.gap.gap.gap.regs.mbx m
    ∃ t, exec .txstatus s = .next t ∧ t.seq = .idle
      ∧ t.respPort = [if x.txok = true then 0x00000100 else if x.alst = true then 0x00000200
          else if x.terr = true then 0x00000300 else if x.tme = false then 0x00000000 else 0x00000400]
      ∧ t.handle = s.handle ∧ t.free = s.free + 1 ∧ RegBlock.UpToEngine s.env.autoRetx s.regs t.regs ∧ s.SameInputs t

/-! ### The Receive FIFO Drainer -/

/-- TRYRECV (R216): when the count read at step 1 is not 0 and the head is a well-formed slot, it responds with the head's
frame, whatever the engine does meanwhile; the head is released once and nothing else is written. -/
def Obligations.TryrecvReturnsHead : Prop :=
  ∀ (s : State) (slot : Slot),
    let f := s.handle.boundFifo
    s.seq = .idle → s.NoReset → s.handle.constructed = true →
    (s.gap.regs.fifo f).q.head? = some slot → (s.gap.regs.fifo f).q.length ≤ Config.fifoDepth →
    slot.idw.getLsbD 2 = false → slot.idw.getLsbD 1 = false → slot.dlc ≤ 8 →
    ∃ t b, exec .tryrecv s = .next t ∧ t.seq = .idle
      ∧ t.respPort = (let p := (slot.dhw ++ slot.dlw) &&& ((1#64 <<< (8 * slot.dlc)) - 1)
          [((slot.idw.extractLsb' 21 11).setWidth 32 <<< 16) ||| (BitVec.ofNat 32 slot.dlc <<< 8),
            p.extractLsb' 0 32, p.extractLsb' 32 32])
      ∧ t.handle = s.handle ∧ t.free = s.free + 5 ∧ s.SameInputs t
      ∧ RegBlock.UpToEngine s.env.autoRetx s.regs b ∧ (b.fifo f).q.head? = some slot
      ∧ RegBlock.UpToEngine s.env.autoRetx (b.setFifo f { b.fifo f with q := (b.fifo f).q.tail }) t.regs

/-- TRYRECV's frame: with the engine still, the whole state after it. -/
def Obligations.TryrecvFrame : Prop :=
  ∀ (s : State) (slot : Slot) (rest : List Slot) (frame : Frame),
    let f := s.handle.boundFifo
    s.seq = .idle → s.Quiet → s.handle.constructed = true →
    (s.regs.fifo f).q = slot :: rest → rest.length < Config.fifoDepth → decodeRaw slot = some frame →
    exec .tryrecv s = .next { s with
      regs := s.regs.setFifo f { s.regs.fifo f with q := rest }
      respPort := tryrecvResponse slot frame
      free := s.free + 5 }

/-- R215, R227: with nothing pending in the bound FIFO TRYRECV responds WOULD_BLOCK and writes nothing. -/
def Obligations.TryrecvWouldBlock : Prop :=
  ∀ s : State, s.seq = .idle → s.NoReset → s.handle.constructed = true →
    (s.gap.regs.fifo s.handle.boundFifo).q = [] →
    ∃ t, exec .tryrecv s = .next t ∧ t.seq = .idle ∧ t.respPort = [0x00000001]
      ∧ t.handle = s.handle ∧ t.free = s.free + 1 ∧ RegBlock.UpToEngine s.env.autoRetx s.regs t.regs ∧ s.SameInputs t

/-- R218: an extended or remote frame, or a data length above 8, at the head is refused. -/
def Obligations.TryrecvRefusesForeignFrame : Prop :=
  ∀ (s : State) (slot : Slot),
    let f := s.handle.boundFifo
    s.seq = .idle → s.NoReset → s.handle.constructed = true →
    (s.gap.regs.fifo f).q.head? = some slot → (s.gap.regs.fifo f).q.length ≤ Config.fifoDepth →
    (slot.idw.getLsbD 2 = true ∨ slot.idw.getLsbD 1 = true ∨ 8 < slot.dlc) →
    exec .tryrecv s = .refused .receiveSlotOutsideFrameType

/-- 20_memory R87 (b): the head of a FIFO stays and its count does not fall, whatever the engine does. -/
def Obligations.FifoHeadStable : Prop :=
  ∀ (b : RegBlock) (a : Option Bool) (es : List EngineEvent) (f : FifoId) (x : Slot),
    (b.fifo f).q.head? = some x → (b.fifo f).q.length ≤ Config.fifoDepth →
    ((b.engineSteps a es).fifo f).q.head? = some x
      ∧ (b.fifo f).fmp ≤ ((b.engineSteps a es).fifo f).fmp
      ∧ ((b.engineSteps a es).fifo f).fmp.toNat = ((b.engineSteps a es).fifo f).q.length

/-- R127: the round trip of every frame through its raw image. -/
def Obligations.RawFrameRoundTrip : Prop :=
  ∀ x : Frame, x.dlc ≤ 8 → x.data.length = x.dlc → decodeRaw (encodeRaw x) = some x

/-- R126, R224: DecodeRaw depends only on idw[31:21], idw[2], idw[1], dtw[3:0] and the payload bytes below the length. -/
def Obligations.DecodeRawIgnoresOtherBits : Prop :=
  ∀ x y : Slot, x.idw.extractLsb' 21 11 = y.idw.extractLsb' 21 11 → x.idw.getLsbD 2 = y.idw.getLsbD 2 →
    x.idw.getLsbD 1 = y.idw.getLsbD 1 → x.dtw.extractLsb' 0 4 = y.dtw.extractLsb' 0 4 →
    (∀ i < x.dlc, payloadByte x.dlw x.dhw i = payloadByte y.dlw y.dhw i) → decodeRaw x = decodeRaw y

/-- R110, R216 step 9: in TRYRECV's response byte i of the payload is byte i of the frame below the length and 0x00 at and
beyond it. -/
def Obligations.ResponsePayloadSliced : Prop :=
  ∀ (slot : Slot) (frame : Frame), decodeRaw slot = some frame →
    ∃ w0 datal datah, tryrecvResponse slot frame = [w0, datal, datah]
      ∧ fieldOf w0 3 0 = 0 ∧ fieldOf w0 11 8 = frame.dlc ∧ fieldOf w0 26 16 = frame.id.toNat
      ∧ ∀ i < 8, payloadByte datal datah i = if i < frame.dlc then frame.data.getD i 0 else 0

/-- R227: a well-formed slot stored in the empty bound FIFO is what the next TRYRECV returns, and the one after it
responds WOULD_BLOCK. -/
def Obligations.ReceiveAfterStore : Prop :=
  ∀ (s : State) (slot : Slot) (frame : Frame),
    let f := s.handle.boundFifo
    s.seq = .idle → s.Quiet → s.handle.constructed = true → (s.regs.fifo f).q = [] → decodeRaw slot = some frame →
    ∃ t u, exec .tryrecv { s with regs := s.regs.effect (.rxStore f slot) } = .next t
      ∧ t.respPort = tryrecvResponse slot frame
      ∧ exec .tryrecv t = .next u ∧ u.respPort = [0x00000001] ∧ (u.regs.fifo f).q = []

/-! ### The engine's side -/

/-- 10_state R52: the engine never writes INRQ, the timing fields, FINIT, a bank, or a mailbox's data registers. -/
def Obligations.EngineWriteSet : Prop :=
  ∀ (b : RegBlock) (a : Option Bool) (es : List EngineEvent),
    (b.engineSteps a es).inrq = b.inrq ∧ (b.engineSteps a es).timing = b.timing
      ∧ (b.engineSteps a es).finit = b.finit ∧ (b.engineSteps a es).banks = b.banks
      ∧ ∀ m, ((b.engineSteps a es).mbx m).SameData (b.mbx m)

/-- R203: the arbiter's step, when it does anything, sets XMIT of a Pending mailbox with the least identifier among the
Pending ones, with INAK = 0 and no mailbox Transmitting; and it may take every such mailbox. -/
def Obligations.ArbiterTakesLowestIdentifier : Prop :=
  ∀ (b : RegBlock) (a : Option Bool) (m : MbxId),
    let guard := b.inak = false ∧ (∀ k, (b.mbx k).xmit = false) ∧ (b.mbx m).state = some .pending
      ∧ ∀ k, (b.mbx k).state = some .pending → (b.mbx m).stid.toNat ≤ (b.mbx k).stid.toNat
    (guard → b.engineStep a (.txSelect m) = b.setMbx m { b.mbx m with xmit := true })
      ∧ (¬ guard → b.engineStep a (.txSelect m) = b)

/-- R204: TxOk. -/
def Obligations.TransmissionSucceeds : Prop :=
  ∀ (b : RegBlock) (a : Option Bool) (m : MbxId),
    b.engineStep a (.txOk m) = if b.inak = false ∧ (b.mbx m).xmit = true then
      b.setMbx m { b.mbx m with
        xmit := false, txrq := false, tme := true, rqcp := true, txok := true, alst := false, terr := false }
    else b

/-- R205, R206: TxArbLost and TxError; the mailbox is Pending again (retry) or Empty (abort), as AUTO_RETX admits. -/
def Obligations.TransmissionFails : Prop :=
  ∀ (b : RegBlock) (a : Option Bool) (m : MbxId) (retry : Bool),
    let x := b.mbx m
    let taken := b.inak = false ∧ x.xmit = true ∧ (a = none ∨ a = some retry)
    (taken → b.engineStep a (.txArbLost m retry) = b.setMbx m
        { x with
          xmit := false, alst := true, terr := false, txok := false
          txrq := if retry then x.txrq else false
          tme := if retry then x.tme else true
          rqcp := if retry then x.rqcp else true })
      ∧ (taken → b.engineStep a (.txError m retry) = b.setMbx m
        { x with
          xmit := false, terr := true, alst := false, txok := false
          txrq := if retry then x.txrq else false
          tme := if retry then x.tme else true
          rqcp := if retry then x.rqcp else true })
      ∧ (¬ taken → b.engineStep a (.txArbLost m retry) = b ∧ b.engineStep a (.txError m retry) = b)

/-- R221, R222, R223: a frame on the bus is stored at the tail of a FIFO with room, or overflows a full one, exactly when an
active bank routed to that FIFO accepts it with INAK = 0 and FINIT = 0. -/
def Obligations.FrameStoredWhenAccepted : Prop :=
  ∀ (b : RegBlock) (a : Option Bool) (f : FifoId) (slot : Slot) (replace : Bool),
    let accepted := b.inak = false ∧ b.finit = false ∧ ∃ k, (b.bank k).fact = true ∧ (b.bank k).ffa = f.toBit
      ∧ Config.accept (b.bank k).fsc (b.bank k).fbm (b.bank k).fr1 (b.bank k).fr2 slot.idw = true
    let q := (b.fifo f).q
    (accepted ∧ q.length < 3 → b.engineStep a (.rxStore f slot) = b.setFifo f { b.fifo f with q := q ++ [slot] })
      ∧ (¬ (accepted ∧ q.length < 3) → b.engineStep a (.rxStore f slot) = b)
      ∧ (accepted ∧ q.length = 3 → b.engineStep a (.rxOverflow f slot replace)
          = b.setFifo f ⟨if replace then q.dropLast ++ [slot] else q, true⟩)
      ∧ (¬ (accepted ∧ q.length = 3) → b.engineStep a (.rxOverflow f slot replace) = b)

/-! ### The two resets -/

/-- R280: block reset puts SEQ and the handle in their initial values and leaves the register block; asserted while a command
is in execution it abandons it without a response. The model's choice (log 8): the input lands at the end of a gap, and what
stands in the command and response ports stays, of which R280 says nothing. -/
def Obligations.BlockResetAbandonsCommand : Prop :=
  (∀ s : State, s.blockReset = { s with seq := .idle, handle := ⟨false, .fifo0, none⟩ })
    ∧ ∀ (s : State) (later : List Nat), s.seq ≠ .idle → s.env.resets = 0 :: later →
      ∃ t, step s = .next t ∧ t.seq = .idle ∧ t.handle = ⟨false, .fifo0, none⟩ ∧ t.respPort = s.respPort
        ∧ t.cmdPort = s.cmdPort ∧ t.free = s.free ∧ t.env.resets = later
        ∧ RegBlock.UpToEngine s.env.autoRetx s.regs t.regs

/-- R50, column "after block reset": SEQ IDLE, CONSTRUCTED 0, BOUND_FIFO 0, LAST_MBX NONE. -/
def Obligations.ResetValues : Prop :=
  State.reset.seq = .idle ∧ State.reset.handle = ⟨false, .fifo0, none⟩

/-- R50, column "after peripheral reset", and R281: the values it fixes; SEQ and the handle are as they were. -/
def Obligations.PeripheralResetValues : Prop :=
  ∀ s : State, let t := s.peripheralReset
    t.seq = s.seq ∧ t.handle = s.handle ∧ t.regs.inrq = false ∧ t.regs.inak = false
      ∧ (∀ m, (t.regs.mbx m).tme = true ∧ (t.regs.mbx m).rqcp = false ∧ (t.regs.mbx m).txok = false
          ∧ (t.regs.mbx m).alst = false ∧ (t.regs.mbx m).terr = false ∧ (t.regs.mbx m).txrq = false
          ∧ (t.regs.mbx m).xmit = false)
      ∧ (∀ f, (t.regs.fifo f).q = [] ∧ (t.regs.fifo f).fmp = 0 ∧ (t.regs.fifo f).fovr = false)
      ∧ (∀ k, (t.regs.bank k).fact = false)

/-! ### The whole machine -/

/-- The invariant R48 holds at reset (with the power-on register block of log 4). -/
def Obligations.ResetMeetsInvariant : Prop := State.reset.Inv

/-- The invariant R48 is kept by every step from every state that meets it. -/
def Obligations.StepKeepsInvariant : Prop :=
  ∀ s t : State, s.Inv → step s = .next t → t.Inv

/-- From a state that meets the invariant a step stops only on a receive slot outside the Frame type: no command writes
BTIMR outside Initialization or a bank while the filters are active (R290, R291). -/
def Obligations.StepStopsOnlyOnForeignFrame : Prop :=
  ∀ s : State, s.Inv → (∃ t, step s = .next t) ∨ step s = .refused .receiveSlotOutsideFrameType

/-- R109, R242: with an engine that acknowledges (`env.fair`, log 3), a command packet ends in a response and SEQ IDLE, unless
TRYRECV refuses its slot. That one step of the model runs the whole command is its choice (logs 1 and 10). -/
def Obligations.EveryCommandResponds : Prop :=
  ∀ (s : State) (p rest : List Word), s.seq = .idle → s.NoReset → s.env.fair = true →
    takePacket s.cmdPort = some (p, rest) →
    (∃ t, step s = .next t ∧ t.seq = .idle ∧ t.respPort ≠ [] ∧ t.respPort.length ≤ 3 ∧ t.cmdPort = rest)
      ∨ (decode p = .ok .tryrecv ∧ step s = .refused .receiveSlotOutsideFrameType)

/-- R264: a command answered WOULD_BLOCK, INVALID_TIMINGS or ILLEGAL_COMMAND leaves the state as it was, up to engine
steps. -/
def Obligations.NonOkLeavesState : Prop :=
  ∀ (i : Instr) (s t : State), s.seq = .idle → s.NoReset → exec i s = .next t →
    (t.respPort = [1] ∨ t.respPort = [2] ∨ t.respPort = [3]) →
    t.seq = .idle ∧ t.handle = s.handle ∧ RegBlock.UpToEngine s.env.autoRetx s.regs t.regs ∧ s.SameInputs t

/-- R245: once constructed, no command changes the timing fields, the operating mode or BOUND_FIFO, or unmakes the handle,
and a second CONSTRUCT is illegal. -/
def Obligations.ConfigurationFixedOnceConstructed : Prop :=
  ∀ (i : Instr) (s t : State), s.seq = .idle → s.NoReset → s.handle.constructed = true → exec i s = .next t →
    t.handle.constructed = true ∧ t.handle.boundFifo = s.handle.boundFifo ∧ t.regs.timing = s.regs.timing
      ∧ t.regs.inrq = s.regs.inrq
      ∧ ((∃ f m b, i = .construct f m b) → t = { s with respPort := [3] })

/-- 10_state R38: FOVR, once set, stays set through every command but a CONSTRUCT that resets the peripheral. -/
def Obligations.OverflowStaysSet : Prop :=
  ∀ (i : Instr) (s t : State) (f : FifoId), s.seq = .idle → s.NoReset → exec i s = .next t →
    (s.regs.fifo f).fovr = true → (t.regs.fifo f).fovr = true ∨ (∃ g m b, i = .construct g m b)

/-! ### The bus -/

/-- R13, R77, R116: RegRead of a register is MemRead at REG_BASE + offset, a multiple of 4; no two registers share an
address. The model's choice: any other address faults (log 12), and addresses are natural numbers without wrap (log 19). -/
def Obligations.RegReadIsMemRead : Prop :=
  ∀ s : State,
    (∀ r : Reg, s.memRead (s.env.regBase + r.offset) = .next (r.pack (s.regVal r), { s with free := s.free + 1 }))
      ∧ (∀ r : Reg, 4 ∣ s.env.regBase + r.offset)
      ∧ (∀ r r' : Reg, r.offset = r'.offset → r = r')
      ∧ (∀ address, (∀ r : Reg, address ≠ s.env.regBase + r.offset) →
          s.memRead address = .fault (.noRegisterAt address)
            ∧ ∀ v, s.memWrite address v = .fault (.noRegisterAt address))

/-- R13: RegWrite of a register is MemWrite of its image at REG_BASE + offset. -/
def Obligations.RegWriteIsMemWrite : Prop :=
  ∀ (s : State) (r : Reg) (v : r.Val), s.memWrite (s.env.regBase + r.offset) (r.pack v) = s.regWrite r v s.seq
end

