-- ==== Sys2Proof/Laws/BitTiming.lean ====
section
/-!
SUPPORT. The two loops of the Bit-Timing Calculator (40_bit_timing R144): what each finds.
-/
namespace Sys2Proof.Machine

/-- A fold over `lo, lo + 1, …` keeps what holds of the numbers folded so far. -/
theorem foldl_ascending {α : Type} (f : α → Nat → α) (lo : Nat) (P : Nat → α → Prop) (a : α) (h0 : P lo a)
    (hs : ∀ k x, lo ≤ k → P k x → P (k + 1) (f x k)) (hi : Nat) (hlo : lo ≤ hi + 1) :
    P (hi + 1) ((ascending lo hi).foldl f a) := by
  have key : ∀ n, P (lo + n) (((List.range n).map (· + lo)).foldl f a) := by
    intro n
    induction n with
    | zero => exact h0
    | succ n ih =>
      rw [List.range_succ, List.map_append, List.foldl_append]
      have := hs (lo + n) _ (by omega) ih
      rw [← Nat.add_assoc]
      simpa [Nat.add_comm] using this
  have := key (hi + 1 - lo)
  rwa [Nat.add_sub_cancel' hlo] at this

/-! ### The inner loop -/

/-- The tests of R144 with the parameters of R9. -/
theorem splitInBand_iff {n x : Nat} :
    splitInBand n x = true ↔ 2 + x ≤ n ∧ n - 1 - x ≤ 8 ∧ 3 * n ≤ (1 + x) * 4 ∧ (1 + x) * 8 ≤ 7 * n := by
  simp only [splitInBand, Bool.and_eq_true, decide_eq_true_eq, and_assoc]
  rfl

/-- What the inner loop holds after the splits of `n` quanta with seg1 below `k`: nothing is in the band, or the split held
is, and none of them comes before it. -/
def SplitFound (n k : Nat) : Option Split → Prop
  | none => ∀ x, Config.seg1Min ≤ x → x < k → splitInBand n x = false
  | some c => Config.seg1Min ≤ c.seg1 ∧ c.seg1 < k ∧ splitInBand n c.seg1 = true ∧ c.d = targetDistance n c.seg1
      ∧ c.seg2 = n - 1 - c.seg1
      ∧ ∀ x, Config.seg1Min ≤ x → x < k → splitInBand n x = true →
          c.d < targetDistance n x ∨ (c.d = targetDistance n x ∧ c.seg1 ≤ x)

theorem splitStep_found {n k : Nat} {o : Option Split} (hk : Config.seg1Min ≤ k) (h : SplitFound n k o) :
    SplitFound n (k + 1) (splitStep n o k) := by
  unfold splitStep
  by_cases hb : splitInBand n k = true
  · rw [if_pos hb]
    cases o with
    | none =>
      refine ⟨hk, by simp, hb, rfl, rfl, fun x h1 h2 hx => ?_⟩
      have : x = k := by
        by_contra hne
        have := h x h1 (by omega)
        simp [this] at hx
      subst this; exact .inr ⟨rfl, Nat.le_refl _⟩
    | some c =>
      obtain ⟨h1, h2, h3, h4, h5, h6⟩ := h
      dsimp only
      split
      · refine ⟨hk, by simp, hb, rfl, rfl, fun x g1 g2 gx => ?_⟩
        by_cases hx : x = k
        · subst hx; exact .inr ⟨rfl, Nat.le_refl _⟩
        · have := h6 x g1 (by omega) gx
          exact .inl (by dsimp only; omega)
      · refine ⟨h1, by omega, h3, h4, h5, fun x g1 g2 gx => ?_⟩
        by_cases hx : x = k
        · subst hx; omega
        · exact h6 x g1 (by omega) gx
  · rw [if_neg hb]
    cases o with
    | none =>
      intro x h1 h2
      by_cases hx : x = k
      · subst hx; simpa using hb
      · exact h x h1 (by omega)
    | some c =>
      obtain ⟨h1, h2, h3, h4, h5, h6⟩ := h
      refine ⟨h1, by omega, h3, h4, h5, fun x g1 g2 gx => ?_⟩
      by_cases hx : x = k
      · subst hx; exact absurd gx hb
      · exact h6 x g1 (by omega) gx

/-- What the inner loop answers. -/
theorem bestSplit_found (n : Nat) : SplitFound n (Config.seg1Max + 1) (bestSplit n) :=
  foldl_ascending (splitStep n) _ (SplitFound n) none (fun x h1 h2 => by omega)
    (fun _ _ hk h => splitStep_found hk h) _ (by decide)

/-! ### The outer loop -/

/-- `n` quanta are admitted for the ratio: they divide it, with a prescaler in range. -/
def Admitted (ratio n : Nat) : Prop := ratio % n = 0 ∧ Config.prescMin ≤ ratio / n ∧ ratio / n ≤ Config.prescMax

/-- What the outer loop holds after the numbers of quanta below `k`. -/
def SolutionFound (ratio k : Nat) : Option Solution → Prop
  | none => ∀ n, Config.nMin ≤ n → n < k → Admitted ratio n → bestSplit n = none
  | some b => Config.nMin ≤ b.n ∧ b.n < k ∧ Admitted ratio b.n ∧ b.presc = ratio / b.n
      ∧ bestSplit b.n = some ⟨b.d, b.seg1, b.seg2⟩
      ∧ ∀ n c, Config.nMin ≤ n → n < k → Admitted ratio n → bestSplit n = some c →
          b.d * n < c.d * b.n ∨ (b.d * n = c.d * b.n ∧ b.n ≤ n)

theorem quantaStep_found {ratio k : Nat} {o : Option Solution} (hk : Config.nMin ≤ k) (h : SolutionFound ratio k o) :
    SolutionFound ratio (k + 1) (quantaStep ratio o k) := by
  have later : ∀ {b : Solution}, (∀ c, Admitted ratio k → bestSplit k = some c →
        b.d * k < c.d * b.n ∨ (b.d * k = c.d * b.n ∧ b.n ≤ k)) → SolutionFound ratio k (some b) →
      SolutionFound ratio (k + 1) (some b) := by
    intro b hb h
    obtain ⟨h1, h2, h3, h4, h5, h6⟩ := h
    refine ⟨h1, by omega, h3, h4, h5, fun n c g1 g2 ga gc => ?_⟩
    by_cases hn : n = k
    · subst hn; exact hb c ga gc
    · exact h6 n c g1 (by omega) ga gc
  have skip : (Admitted ratio k → bestSplit k = none) → SolutionFound ratio (k + 1) o := by
    intro hs
    cases o with
    | none =>
      intro n g1 g2 ga
      by_cases hn : n = k
      · subst hn; exact hs ga
      · exact h n g1 (by omega) ga
    | some b => exact later (fun c ga gc => by simp [hs ga] at gc) h
  unfold quantaStep
  by_cases ha : ratio % k = 0 ∧ Config.prescMin ≤ ratio / k ∧ ratio / k ≤ Config.prescMax
  · rw [if_pos ha]
    cases hc : bestSplit k with
    | none => exact skip fun _ => hc
    | some c =>
      cases o with
      | none =>
        refine ⟨hk, by simp, ha, rfl, hc, fun n c' g1 g2 ga gc => ?_⟩
        by_cases hn : n = k
        · subst hn; rw [hc] at gc; cases gc; exact .inr ⟨rfl, Nat.le_refl _⟩
        · have := h n g1 (by omega) ga; simp [this] at gc
      | some b =>
        dsimp only
        split
        · rename_i hlt
          obtain ⟨h1, h2, h3, h4, h5, h6⟩ := h
          refine ⟨hk, by simp, ha, rfl, hc, fun n c' g1 g2 ga gc => ?_⟩
          by_cases hn : n = k
          · subst hn; rw [hc] at gc; cases gc; exact .inr ⟨rfl, Nat.le_refl _⟩
          · refine .inl ?_
            dsimp only
            have hle : b.d * n ≤ c'.d * b.n := by
              rcases h6 n c' g1 (by omega) ga gc with h | h <;> omega
            have hn0 : 0 < n := Nat.lt_of_lt_of_le (by decide) g1
            have hb0 : 0 < b.n := Nat.lt_of_lt_of_le (by decide) h1
            have e1 : c.d * n * b.n < b.d * n * k := by
              have := Nat.mul_lt_mul_of_pos_right hlt hn0
              calc c.d * n * b.n = c.d * b.n * n := by ring
                _ < b.d * k * n := this
                _ = b.d * n * k := by ring
            have e2 : b.d * n * k ≤ c'.d * b.n * k := Nat.mul_le_mul_right _ hle
            have e3 : c.d * n * b.n < c'.d * k * b.n := by
              calc c.d * n * b.n < b.d * n * k := e1
                _ ≤ c'.d * b.n * k := e2
                _ = c'.d * k * b.n := by ring
            exact Nat.lt_of_mul_lt_mul_right e3
        · rename_i hge
          refine later (fun c' _ gc => ?_) h
          rw [hc] at gc; cases gc
          have := h.2.1
          omega
  · rw [if_neg ha]; exact skip fun h => absurd h ha

/-- What the outer loop answers. -/
theorem bestSolution_found (ratio : Nat) : SolutionFound ratio (Config.nMax + 1) (bestSolution ratio) :=
  foldl_ascending (quantaStep ratio) _ (SolutionFound ratio) none (fun n h1 h2 => by omega)
    (fun _ _ hk h => quantaStep_found hk h) _ (by decide)

end Sys2Proof.Machine
end

