-- ==== Sys2Proof/Laws/State.lean ====
section
/-!
SUPPORT. What each update of the state leaves in each field: one lemma a field, true by unfolding once.
-/
namespace Sys2Proof.Machine

/-! ### Indexed families -/

@[simp] theorem PerMbx.get_set_same (p : PerMbx α) (m : MbxId) (x : α) : (p.set m x).get m = x := by
  cases m <;> rfl

@[simp] theorem PerMbx.get_set_ne (p : PerMbx α) (x : α) {m k : MbxId} (h : k ≠ m) : (p.set m x).get k = p.get k := by
  cases m <;> cases k <;> first | rfl | exact absurd rfl h

theorem PerMbx.get_set (p : PerMbx α) (m k : MbxId) (x : α) : (p.set m x).get k = if k = m then x else p.get k := by
  cases m <;> cases k <;> rfl

@[simp] theorem PerMbx.get_map (p : PerMbx α) (f : α → β) (m : MbxId) : (p.map f).get m = f (p.get m) := by
  cases m <;> rfl

theorem PerMbx.ext_get {p q : PerMbx α} (h : ∀ m, p.get m = q.get m) : p = q := by
  cases p; cases q
  have h0 := h .mbx0; have h1 := h .mbx1; have h2 := h .mbx2
  simp only [PerMbx.get] at h0 h1 h2
  subst h0; subst h1; subst h2; rfl

@[simp] theorem PerFifo.get_set_same (p : PerFifo α) (f : FifoId) (x : α) : (p.set f x).get f = x := by
  cases f <;> rfl

@[simp] theorem PerFifo.get_set_ne (p : PerFifo α) (x : α) {f g : FifoId} (h : g ≠ f) : (p.set f x).get g = p.get g := by
  cases f <;> cases g <;> first | rfl | exact absurd rfl h

theorem PerFifo.get_set (p : PerFifo α) (f g : FifoId) (x : α) : (p.set f x).get g = if g = f then x else p.get g := by
  cases f <;> cases g <;> rfl

theorem PerFifo.ext_get {p q : PerFifo α} (h : ∀ f, p.get f = q.get f) : p = q := by
  cases p; cases q
  have h0 := h .fifo0; have h1 := h .fifo1
  simp only [PerFifo.get] at h0 h1
  subst h0; subst h1; rfl

@[simp] theorem PerBank.get_tabulate (f : BankId → α) (b : BankId) : (PerBank.tabulate f).get b = f b := by
  simp only [PerBank.get, PerBank.tabulate, Fin.getElem_fin, Vector.getElem_mk, List.getElem_toArray, List.getElem_ofFn]

theorem PerBank.ext_get {p q : PerBank α} (h : ∀ b, PerBank.get p b = PerBank.get q b) : p = q := by
  apply Vector.ext
  intro i hi
  exact h ⟨i, hi⟩

theorem PerBank.get_vset (p : PerBank α) (b k : BankId) (x : α) :
    PerBank.get (Vector.set p b.val x b.isLt) k = if k = b then x else PerBank.get p k := by
  have hb : (b.val = k.val) ↔ (k = b) := ⟨fun h => Fin.ext h.symm, fun h => by rw [h]⟩
  simp only [PerBank.get, Fin.getElem_fin, Vector.getElem_set]
  by_cases h : k = b <;> simp [h, hb]

@[simp] theorem PerBank.get_all (x : α) (b : BankId) : PerBank.get (PerBank.all x) b = x := by
  simp [PerBank.get, PerBank.all]

@[simp] theorem BankBits.get_withBit (t : BankBits) (b k : BankId) (v : Bool) :
    (t.withBit b v).bits.get k = if k = b then v else t.bits.get k :=
  PerBank.get_vset t.bits b k v

@[simp] theorem bitmode_ofBit_toBit (b : BitMode) : BitMode.ofBit b.toBit = b := by cases b <;> rfl
@[simp] theorem bitmode_toBit_ofBit (v : Bool) : (BitMode.ofBit v).toBit = v := by cases v <;> rfl
@[simp] theorem matchmode_ofBit_toBit (b : MatchMode) : MatchMode.ofBit b.toBit = b := by cases b <;> rfl
@[simp] theorem matchmode_toBit_ofBit (v : Bool) : (MatchMode.ofBit v).toBit = v := by cases v <;> rfl
@[simp] theorem fifoId_ofBit_toBit (f : FifoId) : FifoId.ofBit f.toBit = f := by cases f <;> rfl
@[simp] theorem fifoId_toBit_ofBit (v : Bool) : (FifoId.ofBit v).toBit = v := by cases v <;> rfl

theorem mem_allMbx (m : MbxId) : m ∈ allMbx := by cases m <;> decide
theorem mem_allBank (b : BankId) : b ∈ allBank := by
  rw [allBank, List.mem_ofFn]; exact ⟨b, rfl⟩

/-! ### The register block -/

@[simp] theorem RegBlock.setMbx_inrq (b : RegBlock) (m : MbxId) (x : Mailbox) : (b.setMbx m x).inrq = b.inrq := rfl
@[simp] theorem RegBlock.setMbx_inak (b : RegBlock) (m : MbxId) (x : Mailbox) : (b.setMbx m x).inak = b.inak := rfl
@[simp] theorem RegBlock.setMbx_timing (b : RegBlock) (m : MbxId) (x : Mailbox) : (b.setMbx m x).timing = b.timing := rfl
@[simp] theorem RegBlock.setMbx_fifos (b : RegBlock) (m : MbxId) (x : Mailbox) : (b.setMbx m x).fifos = b.fifos := rfl
@[simp] theorem RegBlock.setMbx_finit (b : RegBlock) (m : MbxId) (x : Mailbox) : (b.setMbx m x).finit = b.finit := rfl
@[simp] theorem RegBlock.setMbx_banks (b : RegBlock) (m : MbxId) (x : Mailbox) : (b.setMbx m x).banks = b.banks := rfl
@[simp] theorem RegBlock.setMbx_fifo (b : RegBlock) (m : MbxId) (x : Mailbox) (j : FifoId) : (b.setMbx m x).fifo j = b.fifo j := rfl
@[simp] theorem RegBlock.setMbx_bank (b : RegBlock) (m : MbxId) (x : Mailbox) (j : BankId) : (b.setMbx m x).bank j = b.bank j := rfl

@[simp] theorem RegBlock.setFifo_inrq (b : RegBlock) (f : FifoId) (x : Fifo) : (b.setFifo f x).inrq = b.inrq := rfl
@[simp] theorem RegBlock.setFifo_inak (b : RegBlock) (f : FifoId) (x : Fifo) : (b.setFifo f x).inak = b.inak := rfl
@[simp] theorem RegBlock.setFifo_timing (b : RegBlock) (f : FifoId) (x : Fifo) : (b.setFifo f x).timing = b.timing := rfl
@[simp] theorem RegBlock.setFifo_mailboxes (b : RegBlock) (f : FifoId) (x : Fifo) : (b.setFifo f x).mailboxes = b.mailboxes := rfl
@[simp] theorem RegBlock.setFifo_finit (b : RegBlock) (f : FifoId) (x : Fifo) : (b.setFifo f x).finit = b.finit := rfl
@[simp] theorem RegBlock.setFifo_banks (b : RegBlock) (f : FifoId) (x : Fifo) : (b.setFifo f x).banks = b.banks := rfl
@[simp] theorem RegBlock.setFifo_mbx (b : RegBlock) (f : FifoId) (x : Fifo) (j : MbxId) : (b.setFifo f x).mbx j = b.mbx j := rfl
@[simp] theorem RegBlock.setFifo_bank (b : RegBlock) (f : FifoId) (x : Fifo) (j : BankId) : (b.setFifo f x).bank j = b.bank j := rfl

@[simp] theorem RegBlock.mapBanks_inrq (b : RegBlock) (f : BankId → Bank → Bank) : (b.mapBanks f).inrq = b.inrq := rfl
@[simp] theorem RegBlock.mapBanks_inak (b : RegBlock) (f : BankId → Bank → Bank) : (b.mapBanks f).inak = b.inak := rfl
@[simp] theorem RegBlock.mapBanks_timing (b : RegBlock) (f : BankId → Bank → Bank) : (b.mapBanks f).timing = b.timing := rfl
@[simp] theorem RegBlock.mapBanks_mailboxes (b : RegBlock) (f : BankId → Bank → Bank) : (b.mapBanks f).mailboxes = b.mailboxes := rfl
@[simp] theorem RegBlock.mapBanks_fifos (b : RegBlock) (f : BankId → Bank → Bank) : (b.mapBanks f).fifos = b.fifos := rfl
@[simp] theorem RegBlock.mapBanks_finit (b : RegBlock) (f : BankId → Bank → Bank) : (b.mapBanks f).finit = b.finit := rfl
@[simp] theorem RegBlock.mapBanks_mbx (b : RegBlock) (f : BankId → Bank → Bank) (j : MbxId) : (b.mapBanks f).mbx j = b.mbx j := rfl
@[simp] theorem RegBlock.mapBanks_fifo (b : RegBlock) (f : BankId → Bank → Bank) (j : FifoId) : (b.mapBanks f).fifo j = b.fifo j := rfl

@[simp] theorem RegBlock.mbx_setMbx_same (b : RegBlock) (m : MbxId) (x : Mailbox) : (b.setMbx m x).mbx m = x :=
  PerMbx.get_set_same _ _ _
@[simp] theorem RegBlock.mbx_setMbx_ne (b : RegBlock) (x : Mailbox) {m k : MbxId} (h : k ≠ m) :
    (b.setMbx m x).mbx k = b.mbx k := PerMbx.get_set_ne _ _ h
theorem RegBlock.mbx_setMbx (b : RegBlock) (m k : MbxId) (x : Mailbox) :
    (b.setMbx m x).mbx k = if k = m then x else b.mbx k := PerMbx.get_set _ _ _ _
@[simp] theorem RegBlock.fifo_setFifo_same (b : RegBlock) (f : FifoId) (x : Fifo) : (b.setFifo f x).fifo f = x :=
  PerFifo.get_set_same _ _ _
@[simp] theorem RegBlock.fifo_setFifo_ne (b : RegBlock) (x : Fifo) {f g : FifoId} (h : g ≠ f) :
    (b.setFifo f x).fifo g = b.fifo g := PerFifo.get_set_ne _ _ h
theorem RegBlock.fifo_setFifo (b : RegBlock) (f g : FifoId) (x : Fifo) :
    (b.setFifo f x).fifo g = if g = f then x else b.fifo g := PerFifo.get_set _ _ _ _
@[simp] theorem RegBlock.bank_mapBanks (b : RegBlock) (f : BankId → Bank → Bank) (k : BankId) :
    (b.mapBanks f).bank k = f k (b.bank k) := PerBank.get_tabulate _ _
@[simp] theorem RegBlock.mbx_setMbx_setMbx (b : RegBlock) (m : MbxId) (x y : Mailbox) :
    (b.setMbx m x).setMbx m y = b.setMbx m y := by cases m <;> rfl
@[simp] theorem RegBlock.setMbx_self (b : RegBlock) (m : MbxId) : b.setMbx m (b.mbx m) = b := by cases m <;> rfl
@[simp] theorem RegBlock.setFifo_self (b : RegBlock) (f : FifoId) : b.setFifo f (b.fifo f) = b := by cases f <;> rfl

@[simp] theorem RegBlock.get_bankBits (b : RegBlock) (p : Bank → Bool) (o : Word) (k : BankId) :
    PerBank.get (b.bankBits p o).bits k = p (b.bank k) := PerBank.get_tabulate _ _

/-- Two register blocks with the same fields, mailboxes, FIFOs and banks are the same. -/
theorem RegBlock.ext_get {b c : RegBlock} (h1 : b.inrq = c.inrq) (h2 : b.inak = c.inak) (h3 : b.timing = c.timing)
    (h4 : b.finit = c.finit) (hm : ∀ m, b.mbx m = c.mbx m) (hf : ∀ f, b.fifo f = c.fifo f)
    (hb : ∀ k, b.bank k = c.bank k) : b = c := by
  have e1 : b.mailboxes = c.mailboxes := PerMbx.ext_get hm
  have e2 : b.fifos = c.fifos := PerFifo.ext_get hf
  have e3 : b.banks = c.banks := PerBank.ext_get hb
  cases b; cases c; simp_all

/-! ### The state -/

@[simp] theorem State.goto_seq (s : State) (q : Seq) : (s.goto q).seq = q := rfl
@[simp] theorem State.goto_handle (s : State) (q : Seq) : (s.goto q).handle = s.handle := rfl
@[simp] theorem State.goto_regs (s : State) (q : Seq) : (s.goto q).regs = s.regs := rfl
@[simp] theorem State.goto_cmdPort (s : State) (q : Seq) : (s.goto q).cmdPort = s.cmdPort := rfl
@[simp] theorem State.goto_respPort (s : State) (q : Seq) : (s.goto q).respPort = s.respPort := rfl
@[simp] theorem State.goto_env (s : State) (q : Seq) : (s.goto q).env = s.env := rfl
@[simp] theorem State.goto_free (s : State) (q : Seq) : (s.goto q).free = s.free := rfl

@[simp] theorem State.afterRead_seq (s : State) (q : Seq) : (s.afterRead q).seq = q := rfl
@[simp] theorem State.afterRead_handle (s : State) (q : Seq) : (s.afterRead q).handle = s.handle := rfl
@[simp] theorem State.afterRead_regs (s : State) (q : Seq) : (s.afterRead q).regs = s.regs := rfl
@[simp] theorem State.afterRead_cmdPort (s : State) (q : Seq) : (s.afterRead q).cmdPort = s.cmdPort := rfl
@[simp] theorem State.afterRead_respPort (s : State) (q : Seq) : (s.afterRead q).respPort = s.respPort := rfl
@[simp] theorem State.afterRead_env (s : State) (q : Seq) : (s.afterRead q).env = s.env := rfl
@[simp] theorem State.afterRead_free (s : State) (q : Seq) : (s.afterRead q).free = s.free + 1 := rfl

@[simp] theorem State.respond_seq (s : State) (ws : List Word) : (s.respond ws).seq = .idle := rfl
@[simp] theorem State.respond_handle (s : State) (ws : List Word) : (s.respond ws).handle = s.handle := rfl
@[simp] theorem State.respond_regs (s : State) (ws : List Word) : (s.respond ws).regs = s.regs := rfl
@[simp] theorem State.respond_cmdPort (s : State) (ws : List Word) : (s.respond ws).cmdPort = s.cmdPort := rfl
@[simp] theorem State.respond_respPort (s : State) (ws : List Word) : (s.respond ws).respPort = ws := rfl
@[simp] theorem State.respond_env (s : State) (ws : List Word) : (s.respond ws).env = s.env := rfl
@[simp] theorem State.respond_free (s : State) (ws : List Word) : (s.respond ws).free = s.free := rfl

@[simp] theorem State.raise_seq (s : State) (st : Status) : (s.raise st).seq = .idle := rfl
@[simp] theorem State.raise_handle (s : State) (st : Status) : (s.raise st).handle = s.handle := rfl
@[simp] theorem State.raise_regs (s : State) (st : Status) : (s.raise st).regs = s.regs := rfl
@[simp] theorem State.raise_cmdPort (s : State) (st : Status) : (s.raise st).cmdPort = s.cmdPort := rfl
@[simp] theorem State.raise_respPort (s : State) (st : Status) : (s.raise st).respPort = [st.code] := rfl
@[simp] theorem State.raise_env (s : State) (st : Status) : (s.raise st).env = s.env := rfl
@[simp] theorem State.raise_free (s : State) (st : Status) : (s.raise st).free = s.free := rfl

@[simp] theorem State.begin_seq (s : State) (q : Seq) : (s.begin q).seq = q := rfl
@[simp] theorem State.begin_handle (s : State) (q : Seq) : (s.begin q).handle = s.handle := rfl
@[simp] theorem State.begin_regs (s : State) (q : Seq) : (s.begin q).regs = s.regs := rfl
@[simp] theorem State.begin_cmdPort (s : State) (q : Seq) : (s.begin q).cmdPort = s.cmdPort := rfl
@[simp] theorem State.begin_respPort (s : State) (q : Seq) : (s.begin q).respPort = [] := rfl
@[simp] theorem State.begin_env (s : State) (q : Seq) : (s.begin q).env = s.env := rfl
@[simp] theorem State.begin_free (s : State) (q : Seq) : (s.begin q).free = s.free := rfl

@[simp] theorem State.blockReset_seq (s : State) : s.blockReset.seq = .idle := rfl
@[simp] theorem State.blockReset_handle (s : State) : s.blockReset.handle = .reset := rfl
@[simp] theorem State.blockReset_regs (s : State) : s.blockReset.regs = s.regs := rfl
@[simp] theorem State.blockReset_cmdPort (s : State) : s.blockReset.cmdPort = s.cmdPort := rfl
@[simp] theorem State.blockReset_respPort (s : State) : s.blockReset.respPort = s.respPort := rfl
@[simp] theorem State.blockReset_env (s : State) : s.blockReset.env = s.env := rfl
@[simp] theorem State.blockReset_free (s : State) : s.blockReset.free = s.free := rfl

@[simp] theorem State.peripheralReset_seq (s : State) : s.peripheralReset.seq = s.seq := rfl
@[simp] theorem State.peripheralReset_handle (s : State) : s.peripheralReset.handle = s.handle := rfl
@[simp] theorem State.peripheralReset_regs (s : State) : s.peripheralReset.regs = RegBlock.afterReset s.free := rfl
@[simp] theorem State.peripheralReset_cmdPort (s : State) : s.peripheralReset.cmdPort = s.cmdPort := rfl
@[simp] theorem State.peripheralReset_respPort (s : State) : s.peripheralReset.respPort = s.respPort := rfl
@[simp] theorem State.peripheralReset_env (s : State) : s.peripheralReset.env = s.env := rfl
@[simp] theorem State.peripheralReset_free (s : State) : s.peripheralReset.free = s.free + peripheralResetDraws := rfl

/-! ### One gap, with no reset coming -/

theorem State.NoReset.resetNow {s : State} (h : s.NoReset) : s.env.resetNow = false := by
  simp [Env.resetNow, show s.env.resets = [] from h]

theorem State.gap_of_noReset {s : State} (h : s.NoReset) :
    s.gap = { s with regs := s.regs.engineSteps s.env.autoRetx s.env.nextGap, env := s.env.pass } := by
  simp [State.gap, h.resetNow]

@[simp] theorem Env.pass_fPclk (e : Env) : e.pass.fPclk = e.fPclk := rfl
@[simp] theorem Env.pass_regBase (e : Env) : e.pass.regBase = e.regBase := rfl
@[simp] theorem Env.pass_regBaseWord (e : Env) : e.pass.regBaseWord = e.regBaseWord := rfl
@[simp] theorem Env.pass_autoRetx (e : Env) : e.pass.autoRetx = e.autoRetx := rfl
@[simp] theorem Env.pass_fair (e : Env) : e.pass.fair = e.fair := rfl
@[simp] theorem Env.pass_gaps (e : Env) : e.pass.gaps = e.gaps.tail := rfl
theorem Env.pass_resets_nil (e : Env) (h : e.resets = []) : e.pass.resets = [] := by simp [Env.pass, h]

/-- A gap never changes the command port, the response port or the free counter. -/
@[simp] theorem State.gap_cmdPort (s : State) : s.gap.cmdPort = s.cmdPort := by unfold State.gap; split <;> rfl
@[simp] theorem State.gap_respPort (s : State) : s.gap.respPort = s.respPort := by unfold State.gap; split <;> rfl
@[simp] theorem State.gap_free (s : State) : s.gap.free = s.free := by unfold State.gap; split <;> rfl
@[simp] theorem State.gap_env (s : State) : s.gap.env = s.env.pass := by unfold State.gap; split <;> rfl
@[simp] theorem State.gap_regs (s : State) :
    s.gap.regs = s.regs.engineSteps s.env.autoRetx s.env.nextGap := by unfold State.gap; split <;> rfl
theorem State.gap_seq {s : State} (h : s.NoReset) : s.gap.seq = s.seq := by rw [s.gap_of_noReset h]
theorem State.gap_handle {s : State} (h : s.NoReset) : s.gap.handle = s.handle := by rw [s.gap_of_noReset h]
theorem State.gap_noReset {s : State} (h : s.NoReset) : s.gap.NoReset := by
  simp [State.NoReset, Env.pass_resets_nil _ h]

/-- A gap either keeps SEQ and the handle, or is a block reset. -/
theorem State.gap_cases (s : State) :
    (s.gap.seq = s.seq ∧ s.gap.handle = s.handle) ∨ (s.gap.seq = .idle ∧ s.gap.handle = .reset) := by
  unfold State.gap; split
  · exact .inr ⟨rfl, rfl⟩
  · exact .inl ⟨rfl, rfl⟩

end Sys2Proof.Machine
end

