-- ==== Sys2Proof/Laws/Encoding.lean ====
section
/-!
SUPPORT. The headers of the encoder and the fields the decoder takes from them (30_encoding R102 to R107).
-/
namespace Sys2Proof

/-! ### TRANSMIT -/

theorem transmitHeader_opcode (id : BitVec 11) (dlc : Nat) : opcodeOf (transmitHeader id dlc) = 4 := by
  have h : (transmitHeader id dlc).extractLsb' 28 4 = 4#4 := by
    unfold transmitHeader
    ext i hi
    simp only [BitVec.getElem_extractLsb', BitVec.getLsbD_append]
    interval_cases i <;> simp
  rw [opcodeOf, h]; rfl

theorem transmitHeader_hits (id : BitVec 11) (dlc : Nat) : OpcodeRow.transmit.hits (transmitHeader id dlc) = true := by
  unfold OpcodeRow.hits OpcodeRow.transmit transmitHeader
  rw [beq_iff_eq]
  apply BitVec.eq_of_getLsbD_eq
  intro i hi
  simp only [BitVec.getLsbD_and, BitVec.getLsbD_append]
  interval_cases i <;> simp

theorem transmitHeader_id (id : BitVec 11) (dlc : Nat) : (transmitHeader id dlc).extractLsb' 0 11 = id := by
  unfold transmitHeader
  ext i hi
  simp only [BitVec.getElem_extractLsb', BitVec.getLsbD_append]
  simp [hi]

theorem transmitHeader_dlc (id : BitVec 11) {dlc : Nat} (h : dlc < 16) :
    ((transmitHeader id dlc).extractLsb' 16 4).toNat = dlc := by
  have e : (transmitHeader id dlc).extractLsb' 16 4 = BitVec.ofNat 4 dlc := by
    unfold transmitHeader
    ext i hi
    simp only [BitVec.getElem_extractLsb', BitVec.getLsbD_append]
    interval_cases i <;> simp [BitVec.getElem_eq_testBit_toNat]
  rw [e, BitVec.toNat_ofNat, Nat.mod_eq_of_lt h]

/-! ### ADDFILTER -/

variable (bank : Nat) (bm : BitMode) (mm : MatchMode) (fifo : FifoId) (mode : OpMode)

theorem addfilterHeader_opcode : opcodeOf (addfilterHeader bank bm mm fifo) = 3 := by
  have h : (addfilterHeader bank bm mm fifo).extractLsb' 28 4 = 3#4 := by
    unfold addfilterHeader
    ext i hi
    simp only [BitVec.getElem_extractLsb', BitVec.getLsbD_append]
    interval_cases i <;> simp
  rw [opcodeOf, h]; rfl

theorem addfilterHeader_hits : OpcodeRow.addfilter.hits (addfilterHeader bank bm mm fifo) = true := by
  unfold OpcodeRow.hits OpcodeRow.addfilter addfilterHeader
  rw [beq_iff_eq]
  apply BitVec.eq_of_getLsbD_eq
  intro i hi
  simp only [BitVec.getLsbD_and, BitVec.getLsbD_append]
  interval_cases i <;> simp

theorem addfilterHeader_bits :
    (addfilterHeader bank bm mm fifo).getLsbD 8 = bm.toBit ∧ (addfilterHeader bank bm mm fifo).getLsbD 9 = mm.toBit
      ∧ (addfilterHeader bank bm mm fifo).getLsbD 12 = fifo.toBit := by
  unfold addfilterHeader
  simp only [BitVec.getLsbD_append]
  simp

theorem addfilterHeader_bank {bank : Nat} (h : bank < 32) :
    ((addfilterHeader bank bm mm fifo).extractLsb' 0 5).toNat = bank := by
  have e : (addfilterHeader bank bm mm fifo).extractLsb' 0 5 = BitVec.ofNat 5 bank := by
    unfold addfilterHeader
    ext i hi
    simp only [BitVec.getElem_extractLsb', BitVec.getLsbD_append]
    interval_cases i <;> simp [BitVec.getElem_eq_testBit_toNat]
  rw [e, BitVec.toNat_ofNat, Nat.mod_eq_of_lt h]

/-! ### CONSTRUCT -/

theorem constructHeader_facts : opcodeOf (constructHeader fifo mode) = 2
    ∧ OpcodeRow.construct.hits (constructHeader fifo mode) = true
    ∧ OpMode.ofField ((constructHeader fifo mode).extractLsb' 1 2) = some mode
    ∧ (constructHeader fifo mode).getLsbD 0 = fifo.toBit := by
  cases fifo <;> cases mode <;> decide

/-! ### From a header back to its fields -/

/-- A row without operand fields is hit by its pattern alone. -/
theorem OpcodeRow.hits_all {r : OpcodeRow} (hr : r.mask = 0xFFFFFFFF) {w : Word} : r.hits w = true ↔ w = r.pattern := by
  have e : (0xFFFFFFFF#32) = BitVec.allOnes 32 := by decide
  simp only [OpcodeRow.hits, hr, beq_iff_eq, BitVec.ofNat_eq_ofNat]
  rw [e, BitVec.and_allOnes]

/-- A row is hit exactly when each bit of its mask is as in its pattern. -/
theorem OpcodeRow.hits_bit {r : OpcodeRow} {w : Word} (h : r.hits w = true) (i : Nat) :
    (w.getLsbD i && r.mask.getLsbD i) = r.pattern.getLsbD i := by
  rw [OpcodeRow.hits, beq_iff_eq] at h
  rw [← BitVec.getLsbD_and, h]

theorem constructHeader_of_hits {w : Word} {mode : OpMode} (h : OpcodeRow.construct.hits w = true)
    (hm : OpMode.ofField (w.extractLsb' 1 2) = some mode) : constructHeader (.ofBit (w.getLsbD 0)) mode = w := by
  have hf : mode.toField = w.extractLsb' 1 2 := by
    revert hm; generalize w.extractLsb' 1 2 = v; revert mode; revert v; decide +revert
  unfold constructHeader
  rw [hf]
  apply BitVec.eq_of_getLsbD_eq
  intro i hi
  simp only [BitVec.getLsbD_append]
  have hb := OpcodeRow.hits_bit h i
  clear h
  interval_cases i <;> simp_all [OpcodeRow.construct]

theorem addfilterHeader_of_hits {w : Word} (h : OpcodeRow.addfilter.hits w = true) :
    addfilterHeader (w.extractLsb' 0 5).toNat (.ofBit (w.getLsbD 8)) (.ofBit (w.getLsbD 9)) (.ofBit (w.getLsbD 12)) = w := by
  unfold addfilterHeader
  rw [BitVec.ofNat_toNat, BitVec.setWidth_eq]
  apply BitVec.eq_of_getLsbD_eq
  intro i hi
  simp only [BitVec.getLsbD_append]
  have hb := OpcodeRow.hits_bit h i
  clear h
  interval_cases i <;> simp_all [OpcodeRow.addfilter]

theorem transmitHeader_of_hits {w : Word} (h : OpcodeRow.transmit.hits w = true) :
    transmitHeader (w.extractLsb' 0 11) (w.extractLsb' 16 4).toNat = w := by
  unfold transmitHeader
  rw [BitVec.ofNat_toNat, BitVec.setWidth_eq]
  apply BitVec.eq_of_getLsbD_eq
  intro i hi
  simp only [BitVec.getLsbD_append]
  have hb := OpcodeRow.hits_bit h i
  clear h
  interval_cases i <;> simp_all [OpcodeRow.transmit]

/-! ### Rows and the fields of R100 to R107 -/

open Machine

theorem fieldOf_eq (w : Word) (hi lo : Nat) : fieldOf w hi lo = (w.extractLsb' lo (hi + 1 - lo)).toNat := by
  simp [fieldOf, BitVec.extractLsb'_toNat, Nat.shiftRight_eq_div_pow]

theorem fieldOf_zero (w : Word) (hi lo : Nat) : fieldOf w hi lo = 0 ↔ ∀ i, lo ≤ i → i ≤ hi → w.getLsbD i = false := by
  rw [fieldOf_eq]
  constructor
  · intro h i h1 h2
    have : (w.extractLsb' lo (hi + 1 - lo)) = 0#_ := BitVec.eq_of_toNat_eq (by simpa using h)
    have := congrArg (·.getLsbD (i - lo)) this
    simp at this
    have h3 := this (by omega)
    rwa [Nat.add_sub_cancel' h1] at h3
  · intro h
    have : (w.extractLsb' lo (hi + 1 - lo)) = 0#_ := by
      apply BitVec.eq_of_getLsbD_eq
      intro i hi; simp; intro; exact h _ (by omega) (by omega)
    simp [this]

theorem opcodeOf_eq (w : Word) : opcodeOf w = fieldOf w 31 28 := by
  simp [opcodeOf, fieldOf, BitVec.extractLsb'_toNat, Nat.shiftRight_eq_div_pow]

theorem OpcodeRow.hits_of_bits {r : OpcodeRow} {w : Word} (h : ∀ i < 32, (w.getLsbD i && r.mask.getLsbD i) = r.pattern.getLsbD i) : r.hits w = true := by
  rw [OpcodeRow.hits, beq_iff_eq]
  apply BitVec.eq_of_getLsbD_eq
  intro i hi; rw [BitVec.getLsbD_and]; exact h i hi

theorem opcodeOf_bit {w : Word} {n : Nat} (h : opcodeOf w = n) (i) (hi : i < 4) : w.getLsbD (28 + i) = n.testBit i := by
  subst h
  simp [opcodeOf, BitVec.getLsbD]
  rw [show (16:Nat) = 2^4 by rfl, Nat.testBit_mod_two_pow]
  simp [hi]

theorem addfilter_hits_iff (w : Word) (h : opcodeOf w = 3) : OpcodeRow.addfilter.hits w = true ↔ (fieldOf w 27 13 = 0 ∧ fieldOf w 11 10 = 0 ∧ fieldOf w 7 5 = 0) := by
  constructor
  · intro h
    refine ⟨(fieldOf_zero _ _ _).2 fun i h1 h2 => ?_, (fieldOf_zero _ _ _).2 fun i h1 h2 => ?_, (fieldOf_zero _ _ _).2 fun i h1 h2 => ?_⟩
    all_goals
      have := OpcodeRow.hits_bit h i
      interval_cases i <;> simpa [OpcodeRow.addfilter] using this
  · rintro ⟨h1, h2, h3⟩
    rw [fieldOf_zero] at h1 h2 h3
    apply OpcodeRow.hits_of_bits
    intro i hi
    have b := opcodeOf_bit h
    have b0 := b 0; have b1 := b 1; have b2 := b 2; have b3 := b 3
    have c1 := h1 i; have c2 := h2 i; have c3 := h3 i
    clear h1 h2 h3 b
    interval_cases i <;> simp_all [OpcodeRow.addfilter, Nat.testBit] 

theorem transmit_hits_iff (w : Word) (h : opcodeOf w = 4) : OpcodeRow.transmit.hits w = true ↔ (fieldOf w 27 20 = 0 ∧ fieldOf w 15 11 = 0) := by
  constructor
  · intro h
    refine ⟨(fieldOf_zero _ _ _).2 fun i h1 h2 => ?_, (fieldOf_zero _ _ _).2 fun i h1 h2 => ?_⟩
    all_goals
      have := OpcodeRow.hits_bit h i
      interval_cases i <;> simpa [OpcodeRow.transmit] using this
  · rintro ⟨h1, h2⟩
    rw [fieldOf_zero] at h1 h2
    apply OpcodeRow.hits_of_bits
    intro i hi
    have b := opcodeOf_bit h
    have b0 := b 0; have b1 := b 1; have b2 := b 2; have b3 := b 3
    have c1 := h1 i; have c2 := h2 i
    clear h1 h2 b
    interval_cases i <;> simp_all [OpcodeRow.transmit, Nat.testBit] 

theorem construct_hits_iff (w : Word) (h : opcodeOf w = 2) : OpcodeRow.construct.hits w = true ↔ (fieldOf w 27 3 = 0) := by
  constructor
  · intro h
    refine (fieldOf_zero _ _ _).2 fun i h1 h2 => ?_
    have := OpcodeRow.hits_bit h i
    interval_cases i <;> simpa [OpcodeRow.construct] using this
  · rintro h1
    rw [fieldOf_zero] at h1
    apply OpcodeRow.hits_of_bits
    intro i hi
    have b := opcodeOf_bit h
    have b0 := b 0; have b1 := b 1; have b2 := b 2; have b3 := b 3
    have c1 := h1 i
    clear h1 b
    interval_cases i <;> simp_all [OpcodeRow.construct, Nat.testBit] 

theorem bare_hits_iff (r : OpcodeRow) (k) (_hk : k < 16) (w : Word) (h : opcodeOf w = k) (hr : r = ⟨BitVec.ofNat 32 (k * 2^28), 0xFFFFFFFF, n⟩) : r.hits w = true ↔ (fieldOf w 27 0 = 0) := by
  rw [OpcodeRow.hits_all (by rw [hr])]
  rw [opcodeOf_eq, fieldOf] at h
  rw [hr]; simp only [fieldOf]
  constructor
  · rintro rfl; simp; try omega
  · intro h2; apply BitVec.eq_of_toNat_eq; have := w.isLt; simp at h h2 ⊢; omega

end Sys2Proof
end

