-- ==== Sys2Proof/Laws/Engine.lean ====
section
/-!
SUPPORT. What the engine can and cannot do: its frame (10_state R52), what it keeps (R48), and what stays put once the
sequencer has seen it (20_memory R87).
-/
namespace Sys2Proof.Machine

variable {b : RegBlock} {a : Option Bool} {e : EngineEvent} {es : List EngineEvent}

/-! ### Packaging the induction over engine steps -/

@[simp] theorem RegBlock.engineSteps_nil : b.engineSteps a [] = b := rfl
@[simp] theorem RegBlock.engineSteps_cons :
    b.engineSteps a (e :: es) = (b.engineStep a e).engineSteps a es := rfl
theorem RegBlock.engineSteps_append (es fs : List EngineEvent) :
    b.engineSteps a (es ++ fs) = (b.engineSteps a es).engineSteps a fs := List.foldl_append

/-- What the effect of every enabled engine step keeps, any engine steps keep. -/
theorem RegBlock.engineSteps_keeps (P : RegBlock → Prop)
    (h : ∀ b e, P b → b.enabled a e = true → P (b.effect e)) (hb : P b) : P (b.engineSteps a es) := by
  induction es generalizing b with
  | nil => exact hb
  | cons e es ih =>
    apply ih
    show P (b.engineStep a e)
    unfold RegBlock.engineStep
    split
    · exact h b e hb ‹_›
    · exact hb

theorem RegBlock.UpToEngine.refl (b : RegBlock) : RegBlock.UpToEngine a b b := ⟨[], rfl⟩
theorem RegBlock.UpToEngine.trans {b c d : RegBlock} (h : RegBlock.UpToEngine a b c) (k : RegBlock.UpToEngine a c d) :
    RegBlock.UpToEngine a b d := by
  obtain ⟨es, rfl⟩ := h
  obtain ⟨fs, rfl⟩ := k
  exact ⟨es ++ fs, (RegBlock.engineSteps_append es fs).symm⟩

/-! ### The engine's frame (R52) -/

/-- The engine never writes INRQ, the timing fields, FINIT or a bank. -/
theorem RegBlock.effect_frame (b : RegBlock) (e : EngineEvent) :
    (b.effect e).inrq = b.inrq ∧ (b.effect e).timing = b.timing ∧ (b.effect e).finit = b.finit
      ∧ (b.effect e).banks = b.banks := by
  cases e <;> simp [RegBlock.effect]

theorem RegBlock.engineSteps_frame (b : RegBlock) (a : Option Bool) (es : List EngineEvent) :
    (b.engineSteps a es).inrq = b.inrq ∧ (b.engineSteps a es).timing = b.timing
      ∧ (b.engineSteps a es).finit = b.finit ∧ (b.engineSteps a es).banks = b.banks := by
  refine RegBlock.engineSteps_keeps (b := b) (a := a) (es := es)
    (fun c => c.inrq = b.inrq ∧ c.timing = b.timing ∧ c.finit = b.finit ∧ c.banks = b.banks) ?_ ⟨rfl, rfl, rfl, rfl⟩
  intro c e ⟨h1, h2, h3, h4⟩ _
  obtain ⟨k1, k2, k3, k4⟩ := c.effect_frame e
  exact ⟨k1.trans h1, k2.trans h2, k3.trans h3, k4.trans h4⟩

@[simp] theorem RegBlock.engineSteps_inrq : (b.engineSteps a es).inrq = b.inrq := (b.engineSteps_frame a es).1
@[simp] theorem RegBlock.engineSteps_timing : (b.engineSteps a es).timing = b.timing := (b.engineSteps_frame a es).2.1
@[simp] theorem RegBlock.engineSteps_finit : (b.engineSteps a es).finit = b.finit := (b.engineSteps_frame a es).2.2.1
@[simp] theorem RegBlock.engineSteps_banks : (b.engineSteps a es).banks = b.banks := (b.engineSteps_frame a es).2.2.2
@[simp] theorem RegBlock.engineSteps_bank (k : BankId) : (b.engineSteps a es).bank k = b.bank k := by
  simp [RegBlock.bank]

theorem Mailbox.SameData.refl (x : Mailbox) : x.SameData x := ⟨rfl, rfl, rfl, rfl, rfl, rfl⟩
theorem Mailbox.SameData.trans {x y z : Mailbox} (h : x.SameData y) (k : y.SameData z) : x.SameData z :=
  ⟨h.1.trans k.1, h.2.1.trans k.2.1, h.2.2.1.trans k.2.2.1, h.2.2.2.1.trans k.2.2.2.1,
    h.2.2.2.2.1.trans k.2.2.2.2.1, h.2.2.2.2.2.trans k.2.2.2.2.2⟩

/-- The mailbox after an engine step: the old one, or one of the four ways of R203 to R206. -/
theorem RegBlock.effect_mbx (b : RegBlock) (e : EngineEvent) (m : MbxId) :
    (b.effect e).mbx m = b.mbx m ∨ (e = .txSelect m ∧ (b.effect e).mbx m = { b.mbx m with xmit := true })
      ∨ (e = .txOk m ∧ (b.effect e).mbx m = (b.mbx m).sent)
      ∨ (∃ r, e = .txArbLost m r ∧ (b.effect e).mbx m = (b.mbx m).lost r)
      ∨ (∃ r, e = .txError m r ∧ (b.effect e).mbx m = (b.mbx m).failed r) := by
  cases e with
  | ackInit => exact .inl rfl
  | ackNormal => exact .inl rfl
  | rxStore => exact .inl rfl
  | rxOverflow => exact .inl rfl
  | txSelect k =>
    by_cases h : m = k
    · subst h; exact .inr (.inl ⟨rfl, by simp [RegBlock.effect]⟩)
    · exact .inl (by simp [RegBlock.effect, h])
  | txOk k =>
    by_cases h : m = k
    · subst h; exact .inr (.inr (.inl ⟨rfl, by simp [RegBlock.effect]⟩))
    · exact .inl (by simp [RegBlock.effect, h])
  | txArbLost k r =>
    by_cases h : m = k
    · subst h; exact .inr (.inr (.inr (.inl ⟨r, rfl, by simp [RegBlock.effect]⟩)))
    · exact .inl (by simp [RegBlock.effect, h])
  | txError k r =>
    by_cases h : m = k
    · subst h; exact .inr (.inr (.inr (.inr ⟨r, rfl, by simp [RegBlock.effect]⟩)))
    · exact .inl (by simp [RegBlock.effect, h])

theorem Mailbox.sent_sameData (x : Mailbox) : x.sent.SameData x := ⟨rfl, rfl, rfl, rfl, rfl, rfl⟩
theorem Mailbox.lost_sameData (x : Mailbox) (r : Bool) : (x.lost r).SameData x := by
  cases r <;> exact ⟨rfl, rfl, rfl, rfl, rfl, rfl⟩
theorem Mailbox.failed_sameData (x : Mailbox) (r : Bool) : (x.failed r).SameData x := by
  cases r <;> exact ⟨rfl, rfl, rfl, rfl, rfl, rfl⟩

/-- "The engine does not change" the data registers of a mailbox (R33). -/
theorem RegBlock.engineSteps_sameData (b : RegBlock) (a : Option Bool) (es : List EngineEvent) (m : MbxId) :
    ((b.engineSteps a es).mbx m).SameData (b.mbx m) := by
  refine RegBlock.engineSteps_keeps (b := b) (a := a) (es := es) (fun c => (c.mbx m).SameData (b.mbx m)) ?_ (.refl _)
  intro c e h _
  rcases c.effect_mbx e m with k | ⟨-, k⟩ | ⟨-, k⟩ | ⟨r, -, k⟩ | ⟨r, -, k⟩ <;> rw [k]
  · exact h
  · exact h
  · exact (Mailbox.sent_sameData _).trans h
  · exact (Mailbox.lost_sameData _ _).trans h
  · exact (Mailbox.failed_sameData _ _).trans h

/-! ### Guards, taken apart -/

theorem RegBlock.selectable_iff {m : MbxId} : b.selectable m = true ↔
    b.inak = false ∧ (∀ k, (b.mbx k).xmit = false) ∧ (b.mbx m).state = some .pending
      ∧ ∀ k, (b.mbx k).state = some .pending → ¬ (b.mbx k).stid < (b.mbx m).stid := by
  simp only [RegBlock.selectable, Bool.and_eq_true, Bool.not_eq_true', List.all_eq_true, beq_iff_eq,
    Bool.and_eq_false_iff, decide_eq_false_iff_not]
  constructor
  · rintro ⟨⟨⟨h1, h2⟩, h3⟩, h4⟩
    refine ⟨h1, fun k => h2 k (mem_allMbx k), h3, fun k hk => ?_⟩
    rcases h4 k (mem_allMbx k) with h | h
    · simp [hk] at h
    · exact h
  · rintro ⟨h1, h2, h3, h4⟩
    refine ⟨⟨⟨h1, fun k _ => h2 k⟩, h3⟩, fun k _ => ?_⟩
    by_cases hk : (b.mbx k).state = some .pending
    · exact .inr (h4 k hk)
    · exact .inl (by simpa using hk)

theorem RegBlock.accepts_iff {f : FifoId} {idw : Word} : b.accepts f idw = true ↔
    b.inak = false ∧ b.finit = false ∧ ∃ k, (b.bank k).fact = true ∧ (b.bank k).ffa = f.toBit
      ∧ Config.accept (b.bank k).fsc (b.bank k).fbm (b.bank k).fr1 (b.bank k).fr2 idw = true := by
  simp only [RegBlock.accepts, RegBlock.bankAccepts, Bool.and_eq_true, Bool.not_eq_true', List.any_eq_true, beq_iff_eq,
    and_assoc]
  constructor
  · rintro ⟨h1, h2, k, -, h⟩; exact ⟨h1, h2, k, h⟩
  · rintro ⟨h1, h2, k, h⟩; exact ⟨h1, h2, k, mem_allBank k, h⟩

/-- Every engine step but the two acknowledges needs INAK = 0 (41_mode_control R168). -/
theorem RegBlock.enabled_inak (h : b.enabled a e = true) : b.inak = false ∨ e = .ackNormal := by
  cases e <;> simp_all [RegBlock.enabled, RegBlock.selectable, RegBlock.sending, RegBlock.accepts]

/-! ### Mailboxes: the rows of R35 -/

theorem Mailbox.state_empty {x : Mailbox} : x.state = some .empty ↔ x.tme = true ∧ x.txrq = false ∧ x.xmit = false := by
  unfold Mailbox.state; split <;> simp_all
theorem Mailbox.state_pending {x : Mailbox} :
    x.state = some .pending ↔ x.tme = false ∧ x.txrq = true ∧ x.xmit = false := by
  unfold Mailbox.state; split <;> simp_all
theorem Mailbox.state_transmitting {x : Mailbox} :
    x.state = some .transmitting ↔ x.tme = false ∧ x.txrq = true ∧ x.xmit = true := by
  unfold Mailbox.state; split <;> simp_all
theorem Mailbox.state_ne_none {x : Mailbox} :
    x.state ≠ none ↔ x.state = some .empty ∨ x.state = some .pending ∨ x.state = some .transmitting := by
  unfold Mailbox.state; split <;> simp_all

theorem Mailbox.Consistent.of_tme {x : Mailbox} (h : x.Consistent) (t : x.tme = true) : x.state = some .empty := by
  have := h.1
  unfold Mailbox.state at *; split at this <;> simp_all
theorem Mailbox.Consistent.of_xmit {x : Mailbox} (h : x.Consistent) (t : x.xmit = true) :
    x.state = some .transmitting := by
  have := h.1
  unfold Mailbox.state at *; split at this <;> simp_all

theorem Mailbox.sent_consistent {x : Mailbox} : x.sent.Consistent := ⟨by simp [Mailbox.state, Mailbox.sent], by simp [Mailbox.sent]⟩
theorem Mailbox.lost_consistent {x : Mailbox} (h : x.state = some .transmitting) (r : Bool) : (x.lost r).Consistent := by
  obtain ⟨h1, h2, h3⟩ := Mailbox.state_transmitting.1 h
  cases r <;> exact ⟨by simp [Mailbox.state, Mailbox.lost, Mailbox.giveUp, h1, h2], by simp [Mailbox.lost, Mailbox.giveUp]⟩
theorem Mailbox.failed_consistent {x : Mailbox} (h : x.state = some .transmitting) (r : Bool) :
    (x.failed r).Consistent := by
  obtain ⟨h1, h2, h3⟩ := Mailbox.state_transmitting.1 h
  cases r <;> exact ⟨by simp [Mailbox.state, Mailbox.failed, Mailbox.giveUp, h1, h2], by simp [Mailbox.failed, Mailbox.giveUp]⟩
theorem Mailbox.lost_xmit (x : Mailbox) (r : Bool) : (x.lost r).xmit = false := by cases r <;> rfl
theorem Mailbox.failed_xmit (x : Mailbox) (r : Bool) : (x.failed r).xmit = false := by cases r <;> rfl
theorem Mailbox.select_consistent {x : Mailbox} (h : x.state = some .pending) (c : x.Consistent) :
    Mailbox.Consistent { x with xmit := true } := by
  obtain ⟨h1, h2, -⟩ := Mailbox.state_pending.1 h
  exact ⟨by simp [Mailbox.state, h1, h2], c.2⟩

/-- The engine touches a mailbox only while it is Pending or Transmitting. -/
theorem RegBlock.effect_mbx_of_enabled (h : b.enabled a e = true) (m : MbxId) (hc : (b.effect e).mbx m ≠ b.mbx m) :
    (e = .txSelect m ∧ b.selectable m = true) ∨ (b.mbx m).xmit = true := by
  rcases b.effect_mbx e m with k | ⟨rfl, k⟩ | ⟨rfl, k⟩ | ⟨r, rfl, k⟩ | ⟨r, rfl, k⟩
  · exact absurd k hc
  · exact .inl ⟨rfl, h⟩
  all_goals right; simp_all [RegBlock.enabled, RegBlock.sending]

/-- An Empty mailbox stays exactly as it is, whatever the engine does (20_memory R87 (a)). -/
theorem RegBlock.engineSteps_empty {m : MbxId} (h : (b.mbx m).state = some .empty) :
    (b.engineSteps a es).mbx m = b.mbx m := by
  refine RegBlock.engineSteps_keeps (b := b) (a := a) (es := es) (fun c => c.mbx m = b.mbx m) ?_ rfl
  intro c e hc he
  by_cases hn : (c.effect e).mbx m = c.mbx m
  · exact hn.trans hc
  · rw [← hc] at h
    have h0 := Mailbox.state_empty.1 h
    rcases c.effect_mbx_of_enabled he m hn with ⟨-, k⟩ | k
    · have := (RegBlock.selectable_iff.1 k).2.2.1
      rw [h] at this; cases this
    · rw [h0.2.2] at k; cases k

/-! ### The invariant R48 (a) to (d) -/

theorem RegBlock.effect_consistent (hb : b.Consistent) (h : b.enabled a e = true) : (b.effect e).Consistent := by
  cases e with
  | ackInit => exact ⟨hb.mailbox, hb.oneTransmits, hb.depth⟩
  | ackNormal => exact ⟨hb.mailbox, hb.oneTransmits, hb.depth⟩
  | txSelect k =>
    obtain ⟨-, h2, h3, -⟩ := RegBlock.selectable_iff.1 h
    refine ⟨fun m => ?_, fun m j hm hj => ?_, fun f => hb.depth f⟩
    · rw [RegBlock.effect, RegBlock.mbx_setMbx]
      split
      · exact Mailbox.select_consistent h3 (hb.mailbox k)
      · exact hb.mailbox m
    · rw [RegBlock.effect, RegBlock.mbx_setMbx] at hm hj
      split at hm <;> split at hj
      · subst_vars; rfl
      · rw [h2 j] at hj; cases hj
      · rw [h2 m] at hm; cases hm
      · rw [h2 m] at hm; cases hm
  | txOk k =>
    refine ⟨fun m => ?_, fun m j hm hj => ?_, fun f => hb.depth f⟩
    · rw [RegBlock.effect, RegBlock.mbx_setMbx]
      split
      · exact Mailbox.sent_consistent
      · exact hb.mailbox m
    · rw [RegBlock.effect, RegBlock.mbx_setMbx] at hm hj
      split at hm <;> split at hj <;> first | exact hb.oneTransmits m j hm hj | (simp [Mailbox.sent] at hm hj)
  | txArbLost k r =>
    have hx : (b.mbx k).state = some .transmitting := (hb.mailbox k).of_xmit (by
      simp_all [RegBlock.enabled, RegBlock.sending])
    refine ⟨fun m => ?_, fun m j hm hj => ?_, fun f => hb.depth f⟩
    · rw [RegBlock.effect, RegBlock.mbx_setMbx]
      split
      · exact Mailbox.lost_consistent hx r
      · exact hb.mailbox m
    · rw [RegBlock.effect, RegBlock.mbx_setMbx] at hm hj
      split at hm <;> split at hj <;> first | exact hb.oneTransmits m j hm hj | (simp [Mailbox.lost_xmit] at hm hj)
  | txError k r =>
    have hx : (b.mbx k).state = some .transmitting := (hb.mailbox k).of_xmit (by
      simp_all [RegBlock.enabled, RegBlock.sending])
    refine ⟨fun m => ?_, fun m j hm hj => ?_, fun f => hb.depth f⟩
    · rw [RegBlock.effect, RegBlock.mbx_setMbx]
      split
      · exact Mailbox.failed_consistent hx r
      · exact hb.mailbox m
    · rw [RegBlock.effect, RegBlock.mbx_setMbx] at hm hj
      split at hm <;> split at hj <;> first | exact hb.oneTransmits m j hm hj | (simp [Mailbox.failed_xmit] at hm hj)
  | rxStore f slot =>
    refine ⟨fun m => hb.mailbox m, fun m j => hb.oneTransmits m j, fun g => ?_⟩
    have hl : (b.fifo f).q.length < Config.fifoDepth := by
      simp only [RegBlock.enabled, Bool.and_eq_true, decide_eq_true_eq] at h; exact h.2
    rw [RegBlock.effect, RegBlock.fifo_setFifo]
    split
    · simp only [Fifo.store, List.length_append, List.length_cons, List.length_nil]; omega
    · exact hb.depth g
  | rxOverflow f slot r =>
    refine ⟨fun m => hb.mailbox m, fun m j => hb.oneTransmits m j, fun g => ?_⟩
    have hl : (b.fifo f).q.length = Config.fifoDepth := by
      simp only [RegBlock.enabled, Bool.and_eq_true, decide_eq_true_eq] at h; exact h.2
    rw [RegBlock.effect, RegBlock.fifo_setFifo]
    split
    · cases r
      · simp [Fifo.overflow, hl]
      · simp [Fifo.overflow, hl, Config.fifoDepth]
    · exact hb.depth g

theorem RegBlock.engineSteps_consistent (hb : b.Consistent) : (b.engineSteps a es).Consistent :=
  RegBlock.engineSteps_keeps RegBlock.Consistent (fun _ _ => RegBlock.effect_consistent) hb

/-! ### FIFOs: the head stays (R87 (b)) -/

/-- An engine step leaves a FIFO alone, appends to it, or overflows it. -/
theorem RegBlock.effect_fifo (h : b.enabled a e = true) (f : FifoId) :
    (b.effect e).fifo f = b.fifo f
      ∨ (∃ slot, e = .rxStore f slot ∧ b.accepts f slot.idw = true ∧ (b.fifo f).q.length < Config.fifoDepth
          ∧ (b.effect e).fifo f = (b.fifo f).store slot)
      ∨ (∃ slot r, e = .rxOverflow f slot r ∧ b.accepts f slot.idw = true ∧ (b.fifo f).q.length = Config.fifoDepth
          ∧ (b.effect e).fifo f = (b.fifo f).overflow slot r) := by
  cases e with
  | rxStore g slot =>
    simp only [RegBlock.enabled, Bool.and_eq_true, decide_eq_true_eq] at h
    by_cases hf : f = g
    · subst hf; exact .inr (.inl ⟨slot, rfl, h.1, h.2, by simp [RegBlock.effect]⟩)
    · exact .inl (by simp [RegBlock.effect, hf])
  | rxOverflow g slot r =>
    simp only [RegBlock.enabled, Bool.and_eq_true, decide_eq_true_eq] at h
    by_cases hf : f = g
    · subst hf; exact .inr (.inr ⟨slot, r, rfl, h.1, h.2, by simp [RegBlock.effect]⟩)
    · exact .inl (by simp [RegBlock.effect, hf])
  | _ => exact .inl rfl

/-- With a frame pending and the queue not over-full, the head stays whatever the engine does, the count does not fall, and
the queue does not become over-full. -/
theorem RegBlock.engineSteps_head {f : FifoId} {x : Slot} (h : (b.fifo f).q.head? = some x)
    (hl : (b.fifo f).q.length ≤ Config.fifoDepth) :
    ((b.engineSteps a es).fifo f).q.head? = some x
      ∧ (b.fifo f).q.length ≤ ((b.engineSteps a es).fifo f).q.length
      ∧ ((b.engineSteps a es).fifo f).q.length ≤ Config.fifoDepth := by
  refine RegBlock.engineSteps_keeps (b := b) (a := a) (es := es)
    (fun c => (c.fifo f).q.head? = some x ∧ (b.fifo f).q.length ≤ (c.fifo f).q.length
      ∧ (c.fifo f).q.length ≤ Config.fifoDepth) ?_ ⟨h, Nat.le_refl _, hl⟩
  intro c e ⟨h1, h2, h3⟩ he
  rcases c.effect_fifo he f with k | ⟨slot, -, -, hd, k⟩ | ⟨slot, r, -, -, hd, k⟩ <;> rw [k]
  · exact ⟨h1, h2, h3⟩
  · refine ⟨by simp [Fifo.store, List.head?_append, h1], ?_, ?_⟩
    · simp [Fifo.store]; omega
    · simp [Fifo.store]; omega
  · cases r with
    | false => exact ⟨h1, h2, h3⟩
    | true =>
      rcases hq : (c.fifo f).q with _ | ⟨y, _ | ⟨z, l⟩⟩
      · simp [hq] at h1
      · simp [hq, Config.fifoDepth] at hd
      · simp [hq] at h1 hd h2
        refine ⟨by simp [Fifo.overflow, hq, h1], ?_, ?_⟩ <;> simp [Fifo.overflow, hq] <;> omega

/-- While FINIT = 1 or no bank is active the engine stores nothing (44_receive R221). -/
theorem RegBlock.engineSteps_fifos_of_blocked (h : b.finit = true ∨ b.NoBankActive) (f : FifoId) :
    (b.engineSteps a es).fifo f = b.fifo f := by
  have key : ∀ c : RegBlock, c.finit = b.finit → c.banks = b.banks → ∀ g w, c.accepts g w = false := by
    intro c h1 h2 g w
    rw [Bool.eq_false_iff]
    intro hc
    obtain ⟨-, k2, k, k3, -⟩ := RegBlock.accepts_iff.1 hc
    rcases h with h | h
    · rw [h1, h] at k2; cases k2
    · have := h k
      simp only [RegBlock.bank] at this k3
      rw [h2, this] at k3; cases k3
  refine (RegBlock.engineSteps_keeps (b := b) (a := a) (es := es)
    (fun c => c.finit = b.finit ∧ c.banks = b.banks ∧ c.fifo f = b.fifo f) ?_ ⟨rfl, rfl, rfl⟩).2.2
  intro c e ⟨h1, h2, h3⟩ he
  obtain ⟨-, -, k3, k4⟩ := c.effect_frame e
  refine ⟨k3.trans h1, k4.trans h2, ?_⟩
  rcases c.effect_fifo he f with k | ⟨slot, -, ha, -⟩ | ⟨slot, r, -, ha, -⟩
  · exact k.trans h3
  · rw [key c h1 h2] at ha; cases ha
  · rw [key c h1 h2] at ha; cases ha

/-! ### The mode handshake (R87 (d), R168) -/

/-- In Initialization, with the request standing, the engine does nothing at all. -/
theorem RegBlock.engineSteps_init (h1 : b.inrq = true) (h2 : b.inak = true) : b.engineSteps a es = b := by
  refine RegBlock.engineSteps_keeps (b := b) (a := a) (es := es) (fun c => c = b) ?_ rfl
  rintro c e rfl he
  rcases RegBlock.enabled_inak he with k | rfl
  · rw [h2] at k; cases k
  · simp [RegBlock.enabled, h1] at he

/-- With INRQ = 0 an INAK that is 0 stays 0. -/
theorem RegBlock.engineSteps_inak_clear (h1 : b.inrq = false) (h2 : b.inak = false) :
    (b.engineSteps a es).inak = false := by
  refine (RegBlock.engineSteps_keeps (b := b) (a := a) (es := es) (fun c => c.inrq = false ∧ c.inak = false) ?_
    ⟨h1, h2⟩).2
  intro c e ⟨k1, k2⟩ he
  cases e <;> simp_all [RegBlock.effect, RegBlock.enabled]

/-- With INRQ = 1 an INAK that is 1 stays 1. -/
theorem RegBlock.engineSteps_inak_set (h1 : b.inrq = true) (h2 : b.inak = true) :
    (b.engineSteps a es).inak = true := by rw [RegBlock.engineSteps_init h1 h2]; exact h2

theorem RegBlock.engineSteps_noBankActive (h : b.NoBankActive) : (b.engineSteps a es).NoBankActive := by
  intro k; simpa using h k

theorem RegBlock.engineSteps_atRest (h : b.AtRest) : (b.engineSteps a es).AtRest :=
  ⟨by simpa using h.inrq, RegBlock.engineSteps_inak_clear h.inrq h.inak, by
    rcases h.finit with k | k
    · exact .inl (by simpa using k)
    · exact .inr (RegBlock.engineSteps_noBankActive k)⟩

/-- When no mailbox is Pending or Transmitting, the mailboxes stay exactly as they are. -/
theorem RegBlock.engineSteps_mailboxes_of_empty (h : ∀ m, (b.mbx m).state = some .empty) (m : MbxId) :
    (b.engineSteps a es).mbx m = b.mbx m := RegBlock.engineSteps_empty (h m)

/-! ### A quiet gap -/

theorem fairEvents_settled (fair : Bool) (h : b.inrq = b.inak) : b.engineSteps a (fairEvents fair) = b := by
  cases fair
  · rfl
  · cases hi : b.inrq <;> rw [hi] at h <;>
      simp [fairEvents, RegBlock.engineStep, RegBlock.enabled, hi, ← h]

/-- In a quiet state a gap changes nothing. -/
theorem State.gap_quiet {s : State} (h : s.Quiet) : s.gap = s := by
  obtain ⟨h1, h2, h3⟩ := h
  rw [State.gap_of_noReset h2]
  have hr : s.regs.engineSteps s.env.autoRetx s.env.nextGap = s.regs := by
    simp only [Env.nextGap, h1, List.headD_nil]
    exact fairEvents_settled _ h3
  have he : s.env.pass = s.env := by
    cases s with | mk _ _ _ _ _ env _ => cases env; simp_all [Env.pass]
  rw [hr, he]

/-- A gap leaves the register block up to engine steps. -/
theorem State.gap_upToEngine (s : State) : RegBlock.UpToEngine s.env.autoRetx s.regs s.gap.regs :=
  ⟨s.env.nextGap, s.gap_regs⟩

end Sys2Proof.Machine
end

