-- ==== Sys2Proof/Laws/Images.lean ====
section
/-!
SUPPORT. The images of 30_encoding: each bit of a packed register, and unpacking what was packed (R117 to R126, R128).
-/
namespace Sys2Proof.Machine

/-! ### Bits of a word built from fields -/

@[simp] theorem getLsbD_bitAt (v : Bool) (n i : Nat) :
    (bitAt v n).getLsbD i = (decide (i < 32) && decide (i = n) && v) := by
  unfold bitAt
  simp only [BitVec.getLsbD_shiftLeft, BitVec.getLsbD_setWidth, BitVec.getLsbD_ofBool]
  by_cases h : i < 32 <;> simp [h]
  by_cases h2 : i < n
  · have : i ≠ n := by omega
    simp [h2, this]
  · simp [h2]
    by_cases h3 : i = n
    · simp [h3]
    · have : i - n ≠ 0 := by omega
      simp [h3, this]

@[simp] theorem getLsbD_fieldAt {k : Nat} (v : BitVec k) (n i : Nat) :
    (fieldAt v n).getLsbD i = (decide (i < 32) && decide (n ≤ i) && v.getLsbD (i - n)) := by
  unfold fieldAt
  simp only [BitVec.getLsbD_shiftLeft, BitVec.getLsbD_setWidth]
  by_cases h : i < 32 <;> simp [h]
  by_cases h2 : i < n
  · simp [h2]
  · simp [h2, show n ≤ i by omega, show i - n < 32 by omega]

theorem getLsbD_bitsLE (l : List Bool) (i : Nat) : (bitsLE l).getLsbD i = (decide (i < 32) && l.getD i false) := by
  induction l generalizing i with
  | nil => simp [bitsLE]
  | cons v vs ih =>
    simp only [bitsLE, BitVec.getLsbD_or, BitVec.getLsbD_shiftLeft, getLsbD_bitAt, ih]
    cases i with
    | zero => simp
    | succ i =>
      by_cases h : i + 1 < 32
      · simp [h, show i < 32 by omega]
      · simp [h]

/-- The numeral of a value that fits a field has the field's bits. -/
theorem getLsbD_ofNat_narrow {k n : Nat} (h : n < 2 ^ k) (hk : k ≤ 32) (i : Nat) :
    (BitVec.ofNat 32 n).getLsbD i = (BitVec.ofNat k n).getLsbD i := by
  simp only [BitVec.getLsbD_ofNat]
  by_cases h1 : i < k
  · simp [h1, show i < 32 by omega]
  · have : n.testBit i = false :=
      Nat.testBit_eq_false_of_lt (Nat.lt_of_lt_of_le h (Nat.pow_le_pow_right (by decide) (by omega)))
    simp [this]

/-! ### Registers -/

theorem ctlr_inrq_image (v : Ctlr) : (Ctlr.unpack v.pack).inrq = v.inrq := by
  simp only [Ctlr.unpack, Ctlr.pack, BitVec.getLsbD_or, getLsbD_bitAt, BitVec.getLsbD_and]; simp

theorem statr_inak_image (v : Statr) : (Statr.unpack v.pack).inak = v.inak := by
  simp only [Statr.unpack, Statr.pack, BitVec.getLsbD_or, getLsbD_bitAt, BitVec.getLsbD_and]; simp

theorem fctlr_finit_image (v : Fctlr) : (Fctlr.unpack v.pack).finit = v.finit := by
  simp only [Fctlr.unpack, Fctlr.pack, BitVec.getLsbD_or, getLsbD_bitAt, BitVec.getLsbD_and]; simp

theorem tstatr_flags_image (v : Tstatr) : (Tstatr.unpack v.pack).flags = v.flags := by
  have e : ∀ i, v.pack.getLsbD i = _ := fun i => by
    simp only [Tstatr.pack, TxFlags.pack, BitVec.getLsbD_or, getLsbD_bitAt, BitVec.getLsbD_and]
    rfl
  simp only [Tstatr.unpack, TxFlags.unpack, e]
  simp

theorem rfifo_image (v : Rfifo) : (Rfifo.unpack v.pack).fmp = v.fmp ∧ (Rfifo.unpack v.pack).fovr = v.fovr
    ∧ (Rfifo.unpack v.pack).rfom = v.rfom := by
  have e : ∀ i, v.pack.getLsbD i = _ := fun i => by
    simp only [Rfifo.pack, BitVec.getLsbD_or, getLsbD_bitAt, getLsbD_fieldAt, BitVec.getLsbD_and]
    rfl
  refine ⟨?_, ?_, ?_⟩
  · apply BitVec.eq_of_getLsbD_eq
    intro i hi
    simp only [Rfifo.unpack, BitVec.getLsbD_extractLsb', e]
    interval_cases i <;> simp
  · simp only [Rfifo.unpack, e]; simp
  · simp only [Rfifo.unpack, e]; simp

theorem timing_image (t : Timing) : Timing.unpack t.pack = t := by
  have e : ∀ i, t.pack.getLsbD i = _ := fun i => by
    simp only [Timing.pack, BitVec.getLsbD_or, getLsbD_fieldAt, getLsbD_bitAt]
    rfl
  unfold Timing.unpack
  cases t
  congr 1
  · apply BitVec.eq_of_getLsbD_eq; intro i hi; rw [BitVec.getLsbD_extractLsb', e]
    interval_cases i <;> simp
  · apply BitVec.eq_of_getLsbD_eq; intro i hi; rw [BitVec.getLsbD_extractLsb', e]
    interval_cases i <;> simp
  · apply BitVec.eq_of_getLsbD_eq; intro i hi; rw [BitVec.getLsbD_extractLsb', e]
    interval_cases i <;> simp
  · apply BitVec.eq_of_getLsbD_eq; intro i hi; rw [BitVec.getLsbD_extractLsb', e]
    interval_cases i <;> simp
  · rw [e]; simp
  · rw [e]; simp

/-- The timing fields of a BTIMR image do not depend on its other bits. -/
theorem btimr_timing_image (v : Btimr) : (Btimr.unpack v.pack).timing = v.timing := by
  have e : Timing.unpack v.pack = Timing.unpack v.timing.pack := by
    have h : ∀ i, (0x3C80FC00#32).getLsbD i = false → v.pack.getLsbD i = v.timing.pack.getLsbD i := by
      intro i hi
      simp only [Btimr.pack, BitVec.getLsbD_or, BitVec.getLsbD_and, BitVec.ofNat_eq_ofNat, hi, Bool.and_false, Bool.or_false]
    unfold Timing.unpack
    congr 1
    · apply BitVec.eq_of_getLsbD_eq; intro i hi
      simp only [BitVec.getLsbD_extractLsb', hi, decide_true, Bool.true_and]
      apply h; interval_cases i <;> decide
    · apply BitVec.eq_of_getLsbD_eq; intro i hi
      simp only [BitVec.getLsbD_extractLsb', hi, decide_true, Bool.true_and]
      apply h; interval_cases i <;> decide
    · apply BitVec.eq_of_getLsbD_eq; intro i hi
      simp only [BitVec.getLsbD_extractLsb', hi, decide_true, Bool.true_and]
      apply h; interval_cases i <;> decide
    · apply BitVec.eq_of_getLsbD_eq; intro i hi
      simp only [BitVec.getLsbD_extractLsb', hi, decide_true, Bool.true_and]
      apply h; interval_cases i <;> decide
    · exact h 30 (by decide)
    · exact h 31 (by decide)
  exact e.trans (timing_image _)

theorem txmir_image (v : Txmir) : (Txmir.unpack v.pack).stid = v.stid ∧ (Txmir.unpack v.pack).ide = v.ide
    ∧ (Txmir.unpack v.pack).rtr = v.rtr ∧ (Txmir.unpack v.pack).txrq = v.txrq := by
  have e : ∀ i, v.pack.getLsbD i = _ := fun i => by
    simp only [Txmir.pack, BitVec.getLsbD_or, getLsbD_bitAt, getLsbD_fieldAt, BitVec.getLsbD_and]
    rfl
  refine ⟨?_, ?_, ?_, ?_⟩
  · apply BitVec.eq_of_getLsbD_eq
    intro i hi
    simp only [Txmir.unpack, BitVec.getLsbD_extractLsb', e]
    interval_cases i <;> simp
  all_goals simp only [Txmir.unpack, e]; simp

theorem txmdtr_dlc_image (v : Txmdtr) : (Txmdtr.unpack v.pack).dlc = v.dlc := by
  apply BitVec.eq_of_getLsbD_eq
  intro i hi
  simp only [Txmdtr.unpack, Txmdtr.pack, BitVec.getLsbD_extractLsb', BitVec.getLsbD_or, getLsbD_fieldAt,
    BitVec.getLsbD_and]
  interval_cases i <;> simp

theorem bankBits_image (v : BankBits) (k : BankId) :
    PerBank.get (BankBits.unpack v.pack).bits k = PerBank.get v.bits k := by
  have hk : k.val < 14 := k.isLt
  have hm : ∀ i : Nat, i < 14 → (0xFFFFC000#32).getLsbD i = false := by decide
  simp only [BankBits.unpack, PerBank.get_tabulate, BankBits.pack, BitVec.getLsbD_or, getLsbD_bitsLE, BitVec.getLsbD_and,
    BitVec.ofNat_eq_ofNat, hm k.val hk, Bool.and_false, Bool.or_false]
  simp [PerBank.get, show k.val < 32 by omega]

/-! ### The timing image -/

/-- A field put above the bits of a number adds its place value. -/
theorem or_shiftLeft_eq_add (a b k : Nat) (h : a < 2 ^ k) : a ||| (b <<< k) = a + b * 2 ^ k := by
  rw [Nat.or_comm, Nat.shiftLeft_eq, Nat.mul_comm, ← Nat.two_pow_add_eq_or_of_lt h]
  omega

/-- EncodeTiming (R128) as a number. -/
theorem encodeTiming_toNat {r : BitTiming} (l s : Bool) (h1 : r.presc - 1 < 1024) (h2 : r.seg1 - 1 < 16)
    (h3 : r.seg2 - 1 < 8) (h4 : r.sjw - 1 < 4) :
    (encodeTiming r l s).toNat = (r.presc - 1) + (r.seg1 - 1) * 2 ^ 16 + (r.seg2 - 1) * 2 ^ 20
      + (r.sjw - 1) * 2 ^ 24 + l.toNat * 2 ^ 30 + s.toNat * 2 ^ 31 := by
  have hl : (bitAt l 30).toNat = l.toNat <<< 30 := by cases l <;> decide
  have hs : (bitAt s 31).toNat = s.toNat <<< 31 := by cases s <;> decide
  have l1 : l.toNat ≤ 1 := by cases l <;> decide
  have place (v k : Nat) (hv : v * 2 ^ k < 2 ^ 32) : (BitVec.ofNat 32 v <<< k).toNat = v <<< k := by
    have h : v < 2 ^ 32 := Nat.lt_of_le_of_lt (Nat.le_mul_of_pos_right v (Nat.two_pow_pos k)) hv
    rw [BitVec.toNat_shiftLeft, BitVec.toNat_ofNat, Nat.mod_eq_of_lt h, Nat.shiftLeft_eq, Nat.mod_eq_of_lt hv]
  simp only [encodeTiming, BitVec.toNat_or, place (r.seg1 - 1) 16 (by omega), place (r.seg2 - 1) 20 (by omega),
    place (r.sjw - 1) 24 (by omega), hl, hs, BitVec.toNat_ofNat, Nat.mod_eq_of_lt (a := r.presc - 1) (b := 2 ^ 32) (by omega)]
  rw [or_shiftLeft_eq_add _ (r.seg1 - 1) 16 (by omega), or_shiftLeft_eq_add _ (r.seg2 - 1) 20 (by omega),
    or_shiftLeft_eq_add _ (r.sjw - 1) 24 (by omega), or_shiftLeft_eq_add _ _ 30 (by omega),
    or_shiftLeft_eq_add _ _ 31 (by omega)]

/-- EncodeTiming (R128) is the image of the timing fields that hold each length less one. -/
theorem encodeTiming_fields {r : BitTiming} (l s : Bool) (h1 : r.presc - 1 < 1024) (h2 : r.seg1 - 1 < 16)
    (h3 : r.seg2 - 1 < 8) (h4 : r.sjw - 1 < 4) :
    encodeTiming r l s = (Timing.mk (BitVec.ofNat 10 (r.presc - 1)) (BitVec.ofNat 4 (r.seg1 - 1))
      (BitVec.ofNat 3 (r.seg2 - 1)) (BitVec.ofNat 2 (r.sjw - 1)) l s).pack := by
  have e : encodeTiming r l s =
      fieldAt (BitVec.ofNat 32 (r.presc - 1)) 0 ||| fieldAt (BitVec.ofNat 32 (r.seg1 - 1)) 16
        ||| fieldAt (BitVec.ofNat 32 (r.seg2 - 1)) 20 ||| fieldAt (BitVec.ofNat 32 (r.sjw - 1)) 24 ||| bitAt l 30
        ||| bitAt s 31 := by
    simp [encodeTiming, fieldAt]
  rw [e, Timing.pack]
  apply BitVec.eq_of_getLsbD_eq
  intro i hi
  simp only [BitVec.getLsbD_or, getLsbD_fieldAt]
  rw [getLsbD_ofNat_narrow (k := 10) h1 (by decide), getLsbD_ofNat_narrow (k := 4) h2 (by decide),
    getLsbD_ofNat_narrow (k := 3) h3 (by decide), getLsbD_ofNat_narrow (k := 2) h4 (by decide)]

/-- A register write depends on the fields of the word written only. -/
theorem RegBlock.write_image (b : RegBlock) (r : Reg) (v : r.Val) : b.write r (r.unpack (r.pack v)) = b.write r v := by
  cases r with
  | ctlr => exact congrArg (fun x => Except.ok { b with inrq := x }) (ctlr_inrq_image v)
  | statr => rfl
  | tstatr => rfl
  | rfifo f => exact congrArg (fun x => Except.ok (if x = true then b.setFifo f (b.fifo f).release else b)) (rfifo_image v).2.2
  | btimr => exact congrArg (fun x => if b.timingWritable then Except.ok { b with timing := x } else Except.error Refusal.timingWriteOutsideInit) (btimr_timing_image v)
  | txmir m =>
    obtain ⟨h1, h2, h3, h4⟩ := txmir_image v
    have : (b.mbx m).writeId (Txmir.unpack (Txmir.pack v)) = (b.mbx m).writeId v := by
      unfold Mailbox.writeId; rw [h1, h2, h3, h4]
    exact congrArg (fun x => Except.ok (b.setMbx m x)) this
  | txmdtr m => exact congrArg (fun x => Except.ok (b.setMbx m { b.mbx m with dlc := x })) (txmdtr_dlc_image v)
  | txmdlr m => rfl
  | txmdhr m => rfl
  | rxmir _ => rfl
  | rxmdtr _ => rfl
  | rxmdlr _ => rfl
  | rxmdhr _ => rfl
  | fctlr => exact congrArg (fun x => Except.ok { b with finit := x }) (fctlr_finit_image v)
  | fmcfgr => exact congrArg b.writeBanks (funext fun k => funext fun x => congrArg (fun z => { x with fbm := z }) (bankBits_image v k))
  | fscfgr => exact congrArg b.writeBanks (funext fun k => funext fun x => congrArg (fun z => { x with fsc := z }) (bankBits_image v k))
  | fafifor => exact congrArg b.writeBanks (funext fun k => funext fun x => congrArg (fun z => { x with ffa := z }) (bankBits_image v k))
  | fwr => exact congrArg b.writeBanks (funext fun k => funext fun x => congrArg (fun z => { x with fact := z }) (bankBits_image v k))
  | fir1 _ => rfl
  | fir2 _ => rfl

/-! ### Payloads and the header of TRYRECV's response -/

theorem getLsbD_payloadByte (l h : Word) (i j : Nat) (hj : j < 8) : (payloadByte l h i).getLsbD j = (h ++ l).getLsbD (8*i + j) := by
  simp [payloadByte, hj]

theorem payloadByte_wordOfBytes (b : Fin 8 → Byte) (i : Nat) (hi : i < 8) :
   payloadByte (wordOfBytes (b 0) (b 1) (b 2) (b 3)) (wordOfBytes (b 4) (b 5) (b 6) (b 7)) i = b ⟨i, hi⟩ := by
  apply BitVec.eq_of_getLsbD_eq
  intro j hj
  rw [getLsbD_payloadByte _ _ _ _ hj]
  simp only [wordOfBytes, BitVec.getLsbD_append]
  interval_cases i <;> interval_cases j <;> simp

theorem tryrecv_header (v : BitVec 11) (d : Nat) (h : d < 16) :
  (Status.ok.code ||| (v.setWidth 32 <<< 16) ||| (BitVec.ofNat 32 d <<< 8)) = (0#5 ++ v ++ 0#4 ++ BitVec.ofNat 4 d ++ 0#8 : BitVec 32) := by
  apply BitVec.eq_of_getLsbD_eq
  intro i hi
  simp only [BitVec.getLsbD_append, BitVec.getLsbD_or, BitVec.getLsbD_shiftLeft, getLsbD_ofNat_narrow (k := 4) h (by decide), BitVec.getLsbD_setWidth]
  have : Status.ok.code = 0#32 := rfl
  rw [this]
  interval_cases i <;> simp

end Sys2Proof.Machine
end

