-- ==== Sys2Proof/Laws/Ops.lean ====
section
/-!
SUPPORT. The shared operations: what a register write can answer, and how a command's micro-steps run.
-/
namespace Sys2Proof.Machine

/-! ### Register writes -/

theorem State.regWrite_ok {s : State} {r : Reg} {v : r.Val} {b : RegBlock} (q : Seq) (h : s.regs.write r v = .ok b) :
    s.regWrite r v q = .next { s with regs := b, seq := q } := by simp [State.regWrite, h]

/-- A register write answers a next state or one of two refusals. -/
theorem State.regWrite_cases (s : State) (r : Reg) (v : r.Val) (q : Seq) :
    (∃ b, s.regs.write r v = .ok b ∧ s.regWrite r v q = .next { s with regs := b, seq := q })
      ∨ ∃ e, s.regs.write r v = .error e ∧ s.regWrite r v q = .refused e := by
  unfold State.regWrite
  cases s.regs.write r v with
  | ok b => exact .inl ⟨b, rfl, rfl⟩
  | error e => exact .inr ⟨e, rfl, rfl⟩

theorem RegBlock.timingWritable_iff {b : RegBlock} : b.timingWritable = true ↔ b.inrq = true ∧ b.inak = true := by
  unfold RegBlock.timingWritable RegBlock.mode
  cases b.inrq <;> cases b.inak <;> decide
theorem RegBlock.write_btimr {b : RegBlock} (h1 : b.inrq = true) (h2 : b.inak = true) (v : Btimr) :
    b.write .btimr v = .ok { b with timing := v.timing } := by
  simp [RegBlock.write, RegBlock.timingWritable_iff, h1, h2]

theorem RegBlock.writeBanks_ok {b : RegBlock} (h : b.finit = true) (f : BankId → Bank → Bank) :
    b.writeBanks f = .ok (b.mapBanks f) := by simp [RegBlock.writeBanks, h]

/-- The image of a mailbox's identifier register with the request set (43_transmit R190 step 6). -/
theorem txmir_unpack_request (id : BitVec 11) :
    ∃ o, Txmir.unpack (requestWord id) = ⟨id, false, false, true, o⟩ := by
  refine ⟨requestWord id, ?_⟩
  unfold Txmir.unpack requestWord
  congr 1
  · apply BitVec.eq_of_getLsbD_eq
    intro i hi
    simp only [BitVec.getLsbD_extractLsb', hi, decide_true, Bool.true_and, BitVec.getLsbD_or, BitVec.getLsbD_shiftLeft,
      BitVec.getLsbD_setWidth]
    have h1 : 21 + i < 32 := by omega
    have h2 : ¬ 21 + i < 21 := by omega
    have h3 : 21 + i - 21 = i := by omega
    have h5 : i < 32 := by omega
    simp [h1, h2, h3, h5]
  all_goals simp

theorem txmdtr_unpack_dlc (n : Nat) : (Txmdtr.unpack (BitVec.ofNat 32 n)).dlc = BitVec.ofNat 4 n := by
  unfold Txmdtr.unpack
  apply BitVec.eq_of_toNat_eq
  simp [BitVec.extractLsb'_toNat]

theorem rfifo_unpack_release : (Rfifo.unpack releaseWord).rfom = true := by decide

/-! ### Running micro-steps -/

variable {m : State → Host.Outcome State Fault Refusal}

@[simp] theorem drive_zero (s : State) : drive m 0 s = .next s := rfl
theorem drive_idle (n : Nat) {s : State} (h : s.seq = .idle) : drive m n s = .next s := by
  cases n <;> simp [drive, h]

theorem drive_next {n : Nat} {s t : State} (h : s.seq ≠ .idle) (hm : m s.gap = .next t) :
    drive m (n + 1) s = drive m n t := by simp [drive, h, hm]
theorem drive_refused {n : Nat} {s : State} {r : Refusal} (h : s.seq ≠ .idle) (hm : m s.gap = .refused r) :
    drive m (n + 1) s = .refused r := by simp [drive, h, hm]

/-- What a gap and a micro-step keep, a run keeps. -/
theorem drive_keeps (P : State → Prop) (h : ∀ s t, P s → s.seq ≠ .idle → m s.gap = .next t → P t)
    {n : Nat} {s t : State} (hs : P s) (hd : drive m n s = .next t) : P t := by
  induction n generalizing s with
  | zero => simp at hd; exact hd ▸ hs
  | succ n ih =>
    by_cases hi : s.seq = .idle
    · rw [drive_idle _ hi] at hd; cases hd; exact hs
    · cases hm : m s.gap with
      | next u => rw [drive_next hi hm] at hd; exact ih (h s u hs hi hm) hd
      | fault f => simp [drive, hi, hm] at hd
      | refused r => simp [drive, hi, hm] at hd

/-- A run whose micro-steps all answer next states answers a next state. -/
theorem drive_answers (P : State → Prop) (h : ∀ s, P s → s.seq ≠ .idle → ∃ t, m s.gap = .next t ∧ P t)
    (n : Nat) {s : State} (hs : P s) : ∃ t, drive m n s = .next t ∧ P t := by
  induction n generalizing s with
  | zero => exact ⟨s, rfl, hs⟩
  | succ n ih =>
    by_cases hi : s.seq = .idle
    · exact ⟨s, drive_idle _ hi, hs⟩
    · obtain ⟨t, ht, hp⟩ := h s hs hi
      rw [drive_next hi ht]; exact ih hp

/-- A run comes to IDLE, or to the refusal `r`, when each micro-step refuses or uses up a listed gap or, once none is left,
lowers a rank. -/
theorem drive_ends (P : State → Prop) (rank : Seq → Nat) (bound : Nat) (r : Refusal) (hb : ∀ q, rank q ≤ bound)
    (h : ∀ s, P s → s.seq ≠ .idle → (∃ t, m s.gap = .next t ∧ P t ∧ t.env.gaps = s.env.gaps.tail
      ∧ (s.env.gaps = [] → t.seq ≠ .idle → rank t.seq < rank s.seq)) ∨ m s.gap = .refused r)
    {n : Nat} {s : State} (hs : P s) (hn : s.env.gaps.length + bound < n) :
    (∃ t, drive m n s = .next t ∧ P t ∧ t.seq = .idle) ∨ drive m n s = .refused r := by
  suffices H : ∀ n s, P s → s.env.gaps.length + (if s.env.gaps = [] then rank s.seq else bound) < n →
      (∃ t, drive m n s = .next t ∧ P t ∧ t.seq = .idle) ∨ drive m n s = .refused r by
    apply H n s hs
    split
    · have := hb s.seq; omega
    · exact hn
  clear hn hs n s
  intro n
  induction n with
  | zero => intro s _ hn; omega
  | succ n ih =>
    intro s hs hn
    by_cases hi : s.seq = .idle
    · exact .inl ⟨s, drive_idle _ hi, hs, hi⟩
    · rcases h s hs hi with ⟨t, ht, hp, hg, hr⟩ | hr
      · rw [drive_next hi ht]
        by_cases hti : t.seq = .idle
        · exact .inl ⟨t, drive_idle _ hti, hp, hti⟩
        · apply ih t hp
          rcases hgs : s.env.gaps with _ | ⟨x, l⟩
          · have := hr hgs hti
            simp [hgs] at hn hg
            simp [hg]; omega
          · simp [hgs] at hn hg
            rw [hg]
            have := hb t.seq
            split <;> omega
      · exact .inr (drive_refused hi hr)

/-- The same for micro-steps that never refuse. -/
theorem drive_completes (P : State → Prop) (rank : Seq → Nat) (bound : Nat) (hb : ∀ q, rank q ≤ bound)
    (h : ∀ s, P s → s.seq ≠ .idle → ∃ t, m s.gap = .next t ∧ P t ∧ t.env.gaps = s.env.gaps.tail
      ∧ (s.env.gaps = [] → t.seq ≠ .idle → rank t.seq < rank s.seq))
    {n : Nat} {s : State} (hs : P s) (hn : s.env.gaps.length + bound < n) :
    ∃ t, drive m n s = .next t ∧ P t ∧ t.seq = .idle := by
  rcases drive_ends P rank bound .timingWriteOutsideInit hb (fun s hs hi => .inl (h s hs hi)) hs hn with h1 | h1
  · exact h1
  · rcases drive_ends P rank bound .commandWhileBusy hb (fun s hs hi => .inl (h s hs hi)) hs hn with h2 | h2
    · exact h2
    · rw [h1] at h2; cases h2

/-! ### Dispatch -/

theorem dispatch_busy {s : State} {l : Bool} {q : Seq} (h : s.seq ≠ .idle) :
    s.dispatch m l q = .refused .commandWhileBusy := by simp [State.dispatch, h]
theorem dispatch_illegal {s : State} {q : Seq} (h : s.seq = .idle) :
    s.dispatch m false q = .next (s.raise .illegalCommand) := by simp [State.dispatch, h]
theorem dispatch_legal {s : State} {q : Seq} (h : s.seq = .idle) :
    s.dispatch m true q = drive m s.budget (s.begin q) := by simp [State.dispatch, h]

end Sys2Proof.Machine
end

