-- ==== Sys2Proof/Laws/Invariant.lean ====
section
/-!
SUPPORT. The invariant of 10_state R48 along a command: a gap keeps it, and a micro-step keeps it or refuses the receive
slot.
-/
namespace Sys2Proof.Machine

/-! ### Gaps -/

theorem addfilter_holds_congr {o p} {b c : RegBlock} (h1 : c.finit = b.finit) (h2 : c.banks = b.banks) :
   (AddfilterPos.suspendHolds p b → AddfilterPos.suspendHolds p c) ∧ (AddfilterOps.standIn o p.written (b.bank o.bank) → AddfilterOps.standIn o p.written (c.bank o.bank)) ∧ (p.readStands b → p.readStands c) := by
  have h3 : ∀ k, c.bank k = b.bank k := fun k => by simp [RegBlock.bank, h2]
  refine ⟨?_, ?_, ?_⟩
  · cases p <;> simp [AddfilterPos.suspendHolds, h1, RegBlock.NoBankActive, h3]
  · rw [h3]; exact id
  · cases p <;> simp [AddfilterPos.readStands, h3]

/-- A gap keeps the invariant. -/
theorem State.gap_inv {s : State} (h : s.Inv) : s.gap.Inv := by
  have hr := h.regs
  have hs := h.seq
  unfold State.gap
  dsimp only
  split
  · exact ⟨RegBlock.engineSteps_consistent hr, by simp [State.SeqHolds, Handle.reset]⟩
  refine ⟨RegBlock.engineSteps_consistent hr, ?_⟩
  unfold State.SeqHolds at *
  dsimp only at *
  generalize s.env.nextGap = es at *
  generalize s.env.autoRetx = a at *
  cases hq : s.seq with
  | idle => simp only [hq] at *; exact fun hc => RegBlock.engineSteps_atRest (hs hc)
  | btcalc _ _ _ => simp only [hq] at *; exact fun hc => RegBlock.engineSteps_atRest (hs hc)
  | construct o p =>
    simp only [hq] at *
    obtain ⟨m1, m2, m3⟩ := hs
    refine ⟨?_, ?_, m3⟩
    · cases p <;> simp only [ConstructPos.modeHolds, RegBlock.engineSteps_inrq] at * <;> try trivial
      all_goals first
        | exact ⟨m1.1, RegBlock.engineSteps_inak_clear m1.1 m1.2⟩
        | exact ⟨m1.1, RegBlock.engineSteps_inak_set m1.1 m1.2⟩
        | exact ⟨m1.1, fun h => RegBlock.engineSteps_inak_set m1.1 (m1.2 h)⟩
        | exact ⟨m1.1, fun h => RegBlock.engineSteps_inak_clear m1.1 (m1.2 h)⟩
    · cases p <;> simp only [ConstructPos.freshHolds] at * <;> first | trivial | exact RegBlock.engineSteps_noBankActive m2
  | addfilter o p =>
    simp only [hq] at *
    obtain ⟨h1, h2, h3, h4, h5, h6⟩ := hs
    have := addfilter_holds_congr (o := o) (p := p) (b := s.regs) (c := s.regs.engineSteps a es) (by simp) (by simp)
    exact ⟨h1, by simpa using h2, RegBlock.engineSteps_inak_clear h2 h3, this.1 h4, this.2.1 h5, this.2.2 h6⟩
  | transmit o p =>
    simp only [hq] at *
    obtain ⟨h1, h2, h3⟩ := hs
    refine ⟨h1, RegBlock.engineSteps_atRest h2, ?_⟩
    have : ∀ m, (s.regs.mbx m).tme = true → ((s.regs.engineSteps a es).mbx m).tme = true := fun m hm => by
      rw [RegBlock.engineSteps_empty ((hr.mailbox m).of_tme hm)]; exact hm
    cases p <;> simp only [TransmitPos.mailboxHolds] at * <;> first | trivial | exact this _ h3 | exact fun m hm => this m (h3 m hm)
  | txstatus p =>
    simp only [hq] at *
    exact ⟨hs.1, RegBlock.engineSteps_atRest hs.2⟩
  | tryrecv p =>
    simp only [hq] at *
    obtain ⟨h1, h2, h3⟩ := hs
    refine ⟨h1, RegBlock.engineSteps_atRest h2, ?_⟩
    have hd := hr.depth s.handle.boundFifo
    have hh : ∀ x, (s.regs.fifo s.handle.boundFifo).q.head? = some x → ((s.regs.engineSteps a es).fifo s.handle.boundFifo).q.head? = some x :=
       fun x hx => (RegBlock.engineSteps_head hx hd).1
    have hn : (s.regs.fifo s.handle.boundFifo).q ≠ [] → ((s.regs.engineSteps a es).fifo s.handle.boundFifo).q ≠ [] := by
      intro h
      obtain ⟨x, l, hx⟩ := List.exists_cons_of_ne_nil h
      have := hh x (by simp [hx])
      intro hc; simp [hc] at this
    cases p <;> simp only [TryrecvPos.headHolds] at *
    · exact fun h => hn (h3 h)
    · exact hn h3
    · obtain ⟨x, hx, h⟩ := h3; exact ⟨x, hh x hx, h⟩
    · obtain ⟨x, hx, h⟩ := h3; exact ⟨x, hh x hx, h⟩
    · obtain ⟨x, hx, h⟩ := h3; exact ⟨x, hh x hx, h⟩
    · exact hh _ h3
    · exact hh _ h3

/-! ### Register blocks that stay consistent -/

theorem RegBlock.afterReset_consistent (n) : (RegBlock.afterReset n).Consistent := by
  refine ⟨?_, ?_, ?_⟩
  · intro m; cases m <;> simp [RegBlock.afterReset, RegBlock.mbx, PerMbx.get, Mailbox.afterReset, Mailbox.powerOn, Mailbox.Consistent, Mailbox.state]
  · intro m k h; cases m <;> simp [RegBlock.afterReset, RegBlock.mbx, PerMbx.get, Mailbox.afterReset, Mailbox.powerOn] at h
  · intro f; cases f <;> simp [RegBlock.afterReset, RegBlock.fifo, PerFifo.get, PerFifo.all]

theorem RegBlock.afterReset_noBankActive (n) : (RegBlock.afterReset n).NoBankActive := by
  intro k; simp [RegBlock.afterReset, RegBlock.bank, Bank.afterReset]

theorem RegBlock.Consistent.congr {b c : RegBlock} (h : b.Consistent) (h1 : c.mailboxes = b.mailboxes) (h2 : c.fifos = b.fifos) : c.Consistent := by
  have e1 : ∀ m, c.mbx m = b.mbx m := fun m => by simp [RegBlock.mbx, h1]
  have e2 : ∀ m, c.fifo m = b.fifo m := fun m => by simp [RegBlock.fifo, h2]
  exact ⟨fun m => by rw [e1]; exact h.mailbox m, fun m k => by rw [e1, e1]; exact h.oneTransmits m k, fun f => by rw [e2]; exact h.depth f⟩

theorem RegBlock.Consistent.setMbx {b : RegBlock} (h : b.Consistent) {m x} (hx : x.Consistent) (hn : x.xmit = true → (b.mbx m).xmit = true) : (b.setMbx m x).Consistent := by
  refine ⟨fun k => ?_, fun j k => ?_, fun f => by simpa using h.depth f⟩
  · rw [RegBlock.mbx_setMbx]; split; exact hx; exact h.mailbox k
  · rw [RegBlock.mbx_setMbx, RegBlock.mbx_setMbx]
    intro h1 h2
    apply h.oneTransmits
    · split at h1
      · rename_i e; subst e; exact hn h1
      · exact h1
    · split at h2
      · rename_i e; subst e; exact hn h2
      · exact h2

theorem RegBlock.Consistent.setFifo {b : RegBlock} (h : b.Consistent) {f x} (hx : x.q.length ≤ Config.fifoDepth) : (b.setFifo f x).Consistent := by
  refine ⟨fun k => by simpa using h.mailbox k, fun j k => by simpa using h.oneTransmits j k, fun g => ?_⟩
  rw [RegBlock.fifo_setFifo]; split; exact hx; exact h.depth g

theorem RegBlock.AtRest.congr {b c : RegBlock} (h : b.AtRest) (h1 : c.inrq = b.inrq) (h2 : c.inak = b.inak) (h3 : c.finit = b.finit) (h4 : c.banks = b.banks) : c.AtRest := by
  refine ⟨h1.trans h.inrq, h2.trans h.inak, ?_⟩
  rw [h3]
  rcases h.finit with h | h
  · exact .inl h
  · exact .inr fun k => by simpa [RegBlock.bank, h4] using h k

/-! ### Micro-steps -/

theorem micro_inv_construct {s : State} {o p} (hq : s.seq = .construct o p) (h : s.Inv) : ∃ t, micro s = .next t ∧ t.Inv := by
  have hr := h.regs
  have hs := h.seq
  unfold State.SeqHolds at hs
  simp only [hq] at hs
  obtain ⟨m1, m2, m3⟩ := hs
  unfold micro; rw [hq]; dsimp only
  cases p <;> simp only [constructMicro, ConstructPos.modeHolds, ConstructPos.freshHolds, ConstructPos.handleHolds] at *
  case s1 =>
    split
    · exact ⟨_, rfl, hr, by simp [State.SeqHolds, m3]⟩
    · exact ⟨_, rfl, hr, trivial, trivial, m3⟩
  case s2 r => exact ⟨_, rfl, RegBlock.afterReset_consistent _, ⟨rfl, rfl⟩, RegBlock.afterReset_noBankActive _, m3⟩
  case s3 r => exact ⟨_, rfl, hr, m1, m2, m3⟩
  case e1 r => exact ⟨_, rfl, hr, m1, m2, m3⟩
  case e2 r t => exact ⟨_, rfl, RegBlock.Consistent.congr hr rfl rfl, rfl, m2, m3⟩
  case e3 r => exact ⟨_, rfl, hr, ⟨m1, id⟩, m2, m3⟩
  case e4 r st =>
    refine ⟨_, rfl, hr, ?_⟩
    simp only [State.SeqHolds, State.goto]
    cases hst : st.inak with
    | true => exact ⟨⟨m1.1, m1.2 hst⟩, m2, m3⟩
    | false => exact ⟨m1.1, m2, m3⟩
  case s5 r =>
    rw [State.regWrite_ok _ (RegBlock.write_btimr m1.1 m1.2 _)]
    exact ⟨_, rfl, RegBlock.Consistent.congr hr rfl rfl, m1, m2, m3⟩
  case l1 => exact ⟨_, rfl, hr, m1, m2, m3⟩
  case l2 t => exact ⟨_, rfl, RegBlock.Consistent.congr hr rfl rfl, rfl, m2, m3⟩
  case l3 => exact ⟨_, rfl, hr, ⟨m1, id⟩, m2, m3⟩
  case l4 st =>
    refine ⟨_, rfl, hr, ?_⟩
    simp only [State.SeqHolds, State.goto]
    cases hst : st.inak with
    | true => exact ⟨m1.1, m2, m3⟩
    | false => exact ⟨⟨m1.1, m1.2 hst⟩, m2, m3⟩
  case s7 => exact ⟨_, rfl, hr, m1, m2, rfl⟩
  case s8 => exact ⟨_, rfl, hr, fun _ => ⟨m1.1, m1.2, .inr m2⟩⟩

theorem micro_inv_addfilter {s : State} {o p} (hq : s.seq = .addfilter o p) (h : s.Inv) : ∃ t, micro s = .next t ∧ t.Inv := by
  have hr := h.regs
  have hs := h.seq
  unfold State.SeqHolds at hs
  simp only [hq] at hs
  obtain ⟨h1, h2, h3, h4, h5, h6⟩ := hs
  unfold micro; rw [hq]; dsimp only
  cases p <;> simp only [addfilterMicro, AddfilterPos.suspendHolds, AddfilterPos.readStands, AddfilterPos.written, AddfilterOps.standIn] at *
  case s1 => exact ⟨_, rfl, hr, h1, h2, h3, h4, h5, trivial⟩
  case s2 t => exact ⟨_, rfl, RegBlock.Consistent.congr hr rfl rfl, h1, h2, h3, rfl, h5, trivial⟩
  case s3 => exact ⟨_, rfl, hr, h1, h2, h3, h4, h5, fun k => RegBlock.get_bankBits _ _ _ k⟩
  case s7 => exact ⟨_, rfl, hr, h1, h2, h3, h4, h5, fun k => RegBlock.get_bankBits _ _ _ k⟩
  case s9 => exact ⟨_, rfl, hr, h1, h2, h3, h4, h5, fun k => RegBlock.get_bankBits _ _ _ k⟩
  case s11 => exact ⟨_, rfl, hr, h1, h2, h3, h4, h5, fun k => RegBlock.get_bankBits _ _ _ k⟩
  case s13 => exact ⟨_, rfl, hr, h1, h2, h3, h4, h5, trivial⟩
  case s14 t => exact ⟨_, rfl, RegBlock.Consistent.congr hr rfl rfl, h1, h2, h3, rfl, h5, trivial⟩
  case s15 => exact ⟨_, rfl, hr, fun _ => ⟨h2, h3, .inl h4⟩⟩
  all_goals
    simp only [State.regWrite, RegBlock.write, RegBlock.writeBanks, h4, if_true]
    refine ⟨_, rfl, RegBlock.Consistent.congr hr rfl rfl, ?_⟩
    refine ⟨h1, h2, h3, h4, ?_, trivial⟩
    simp [AddfilterOps.standIn, AddfilterPos.written] at h5 ⊢
    try simp_all

theorem micro_inv_transmit {s : State} {o p} (hq : s.seq = .transmit o p) (h : s.Inv) : ∃ t, micro s = .next t ∧ t.Inv := by
  have hr := h.regs
  have hs := h.seq
  unfold State.SeqHolds at hs
  simp only [hq] at hs
  obtain ⟨h1, h2, h3⟩ := hs
  unfold micro; rw [hq]; dsimp only
  cases p <;> simp only [transmitMicro, TransmitPos.mailboxHolds] at *
  case s1 => exact ⟨_, rfl, hr, h1, h2, fun m => by simp [State.regVal, RegBlock.read, Mailbox.flags]; exact id⟩
  case s2 st =>
    split
    · exact ⟨_, rfl, hr, fun _ => h2⟩
    · rename_i m hm
      refine ⟨_, rfl, hr, h1, h2, ?_⟩
      apply h3
      unfold firstEmpty at hm
      split at hm
      · cases hm; assumption
      split at hm
      · cases hm; assumption
      split at hm
      · cases hm; assumption
      · cases hm
  case s7 m => exact ⟨_, rfl, hr, h1, h2, trivial⟩
  case s8 => exact ⟨_, rfl, hr, fun _ => h2⟩
  case s6 m =>
    obtain ⟨x, hx⟩ := txmir_unpack_request o.id
    simp only [State.regWrite, RegBlock.write, hx]
    have he := (hr.mailbox m).of_tme h3
    rw [Mailbox.state_empty] at he
    refine ⟨_, rfl, RegBlock.Consistent.setMbx hr ?_ ?_, h1, RegBlock.AtRest.congr h2 rfl rfl rfl rfl, trivial⟩
    · simp [Mailbox.writeId, Mailbox.request, Mailbox.Consistent, Mailbox.state, he.2.2]
    · simp [Mailbox.writeId, Mailbox.request]
  all_goals
    rename_i m
    simp only [State.regWrite, RegBlock.write]
    refine ⟨_, rfl, RegBlock.Consistent.setMbx hr ?_ ?_, h1, RegBlock.AtRest.congr h2 rfl rfl rfl rfl, ?_⟩
    · have := hr.mailbox m
      simpa [Mailbox.Consistent, Mailbox.state] using this
    · exact id
    · simp [TransmitPos.mailboxHolds, h3]

theorem micro_inv_tryrecv {s : State} {p} (hq : s.seq = .tryrecv p) (h : s.Inv) : (∃ t, micro s = .next t ∧ t.Inv) ∨ micro s = .refused .receiveSlotOutsideFrameType := by
  have hr := h.regs
  have hs := h.seq
  unfold State.SeqHolds at hs
  simp only [hq] at hs
  obtain ⟨h1, h2, h3⟩ := hs
  unfold micro; rw [hq]; dsimp only
  have hd := hr.depth s.handle.boundFifo
  cases p <;> simp only [tryrecvMicro, TryrecvPos.headHolds] at *
  case s1 => refine .inl ⟨_, rfl, hr, h1, h2, fun h hc => h ?_⟩; simp at hc; simp [State.regVal, RegBlock.read, Fifo.fmp, hc]
  case s2 r =>
    left; refine ⟨_, rfl, ?_⟩
    split
    · exact ⟨hr, fun _ => h2⟩
    · exact ⟨hr, h1, h2, h3 (by assumption)⟩
  case s3 =>
    obtain ⟨x, l, hx⟩ := List.exists_cons_of_ne_nil h3
    refine .inl ⟨_, rfl, hr, h1, h2, x, ?_, ?_⟩
    · simp [hx]
    · simp [State.regVal, RegBlock.read, Fifo.output, hx]
  case s4 =>
    obtain ⟨x, hx, h⟩ := h3
    obtain ⟨l, hl⟩ : ∃ l, (s.regs.fifo s.handle.boundFifo).q = x :: l := by
      cases hq : (s.regs.fifo s.handle.boundFifo).q <;> simp_all
    refine .inl ⟨_, rfl, hr, h1, h2, x, hx, h, ?_⟩
    simp [State.regVal, RegBlock.read, Fifo.output, hl]
  case s5 =>
    obtain ⟨x, hx, h⟩ := h3
    obtain ⟨l, hl⟩ : ∃ l, (s.regs.fifo s.handle.boundFifo).q = x :: l := by
      cases hq : (s.regs.fifo s.handle.boundFifo).q <;> simp_all
    refine .inl ⟨_, rfl, hr, h1, h2, x, hx, h.1, h.2, ?_⟩
    simp [State.regVal, RegBlock.read, Fifo.output, hl]
  case s6 =>
    obtain ⟨x, hx, h⟩ := h3
    obtain ⟨l, hl⟩ : ∃ l, (s.regs.fifo s.handle.boundFifo).q = x :: l := by
      cases hq : (s.regs.fifo s.handle.boundFifo).q <;> simp_all
    refine .inl ⟨_, rfl, hr, h1, h2, ?_⟩
    simp [TryrecvPos.headHolds, hl, State.regVal, RegBlock.read, Fifo.output, ← h.1, ← h.2.1, ← h.2.2]
  case s7 slot =>
    split
    · exact .inr rfl
    · exact .inl ⟨_, rfl, hr, h1, h2, h3⟩
  case s8 slot frame =>
    left
    simp only [State.regWrite, RegBlock.write, rfifo_unpack_release, if_true]
    refine ⟨_, rfl, RegBlock.Consistent.setFifo hr ?_, h1, RegBlock.AtRest.congr h2 rfl rfl rfl rfl, trivial⟩
    simp [Fifo.release]; omega
  case s9 => exact .inl ⟨_, rfl, hr, fun _ => h2⟩

/-- A micro-step keeps the invariant, or is TRYRECV's refusal of its slot. -/
theorem micro_inv {s : State} (h : s.Inv) : (∃ t, micro s = .next t ∧ t.Inv) ∨ micro s = .refused .receiveSlotOutsideFrameType := by
  have hs := h.seq
  unfold State.SeqHolds at hs
  cases hq : s.seq with
  | idle => exact .inl ⟨s, by simp [micro, hq], h⟩
  | btcalc a b p =>
    simp only [hq] at hs
    left; unfold micro; rw [hq]; dsimp only
    refine ⟨_, rfl, ?_⟩
    cases p with
    | s1 => exact ⟨h.regs, hs⟩
    | s2 r => cases r <;> exact ⟨h.regs, hs⟩
  | construct o p => exact .inl (micro_inv_construct hq h)
  | addfilter o p => exact .inl (micro_inv_addfilter hq h)
  | transmit o p => exact .inl (micro_inv_transmit hq h)
  | txstatus p =>
    simp only [hq] at hs
    left; unfold micro; rw [hq]; dsimp only
    cases p <;> simp only [txstatusMicro]
    · split
      · exact ⟨_, rfl, h.regs, fun _ => hs.2⟩
      · exact ⟨_, rfl, h.regs, hs⟩
    · split
      · exact ⟨_, rfl, h.regs, fun _ => hs.2⟩
      · exact ⟨_, rfl, h.regs, hs⟩
    · exact ⟨_, rfl, h.regs, hs⟩
    · exact ⟨_, rfl, h.regs, fun _ => hs.2⟩
  | tryrecv p => exact micro_inv_tryrecv hq h

end Sys2Proof.Machine
end

