-- ==== Sys2Proof/Laws/PerInstr.lean ====
section
/-!
SUPPORT. Statements made for each command as syntax, one lemma a constructor.
-/
namespace Sys2Proof.Laws.PacketLength

/-- The encoder gives a command the number of words that its header's OPC asks for (30_encoding R113). -/
def Statement (i : Instr) : Prop := ∃ w0 ops, encode i = w0 :: ops ∧ (w0 :: ops).length = packetLength w0

theorem btcalc (clk bitrate : Word) : Statement (.btcalc clk bitrate) := ⟨_, _, rfl, rfl⟩

theorem construct (fifo : FifoId) (mode : OpMode) (bitrate : Word) : Statement (.construct fifo mode bitrate) :=
  ⟨_, _, rfl, by simp [packetLength, constructHeader_facts, OpcodeRow.construct]⟩

theorem addfilter (bank : Nat) (bitmode : BitMode) (matchmode : MatchMode) (idvalue idmask : Word) (fifo : FifoId) :
    Statement (.addfilter bank bitmode matchmode idvalue idmask fifo) :=
  ⟨_, _, rfl, by simp [packetLength, addfilterHeader_opcode, OpcodeRow.addfilter]⟩

theorem transmit (id : BitVec 11) (dlc : Nat) (datal datah : Word) : Statement (.transmit id dlc datal datah) :=
  ⟨_, _, rfl, by simp [packetLength, transmitHeader_opcode, OpcodeRow.transmit]⟩

theorem txstatus : Statement .txstatus := ⟨_, _, rfl, rfl⟩

theorem tryrecv : Statement .tryrecv := ⟨_, _, rfl, rfl⟩

end Sys2Proof.Laws.PacketLength
end

