-- ==== Sys2Proof/Laws/Progress.lean ====
section
/-!
SUPPORT. That a command comes to its response (45_facade R242, 41_mode_control R167): a rank of SEQ for `drive_ends`, and
what keeps the micro-steps from a refusal.
-/
namespace Sys2Proof.Machine

/-- How far SEQ is from the end of its command; a polling loop that has read its acknowledge is nearer. -/
def Seq.rank : Seq → Nat
  | .idle => 0
  | .btcalc _ _ .s1 => 2
  | .btcalc _ _ _ => 1
  | .construct _ p => match p with
    | .s1 => 30 | .s2 _ => 29 | .s3 _ => 28 | .e1 _ => 27 | .e2 _ _ => 26 | .e3 _ => 25
    | .e4 _ st => if st.inak then 24 else 26
    | .s5 _ => 23 | .l1 => 22 | .l2 _ => 21 | .l3 => 20 | .l4 st => if st.inak then 21 else 19
    | .s7 => 18 | .s8 => 17
  | .addfilter _ p => match p with
    | .s1 => 15 | .s2 _ => 14 | .s3 => 13 | .s4 _ => 12 | .s5 => 11 | .s6 => 10 | .s7 => 9 | .s8 _ => 8 | .s9 => 7
    | .s10 _ => 6 | .s11 => 5 | .s12 _ => 4 | .s13 => 3 | .s14 _ => 2 | .s15 => 1
  | .transmit _ p => match p with
    | .s1 => 8 | .s2 _ => 7 | .s3 _ => 6 | .s4 _ => 5 | .s5 _ => 4 | .s6 _ => 3 | .s7 _ => 2 | .s8 => 1
  | .txstatus p => match p with
    | .s1 => 4 | .s2 => 3 | .s3 _ => 2 | .s4 _ _ => 1
  | .tryrecv p => match p with
    | .s1 => 9 | .s2 _ => 8 | .s3 => 7 | .s4 _ => 6 | .s5 _ _ => 5 | .s6 _ _ _ => 4 | .s7 _ => 3 | .s8 _ _ => 2 | .s9 _ _ => 1

theorem Seq.rank_le (q) : Seq.rank q ≤ 30 := by
  cases q with
  | idle => decide
  | btcalc a b p => cases p <;> simp [Seq.rank]
  | construct o p => cases p <;> simp [Seq.rank] <;> split <;> omega
  | addfilter o p => cases p <;> simp [Seq.rank]
  | transmit o p => cases p <;> simp [Seq.rank]
  | txstatus p => cases p <;> simp [Seq.rank]
  | tryrecv p => cases p <;> simp [Seq.rank]

/-- What keeps a command from a refusal in any state: the mode bits along CONSTRUCT (R161 to R164), the suspend flag along
ADDFILTER (R177), and at IDLE a response. -/
def State.OnCourse (s : State) : Prop := match s.seq with
  | .idle => s.respPort ≠ [] ∧ s.respPort.length ≤ 3
  | .construct _ p => p.modeHolds s.regs
  | .addfilter _ p => match p with
    | .s1 | .s2 _ | .s15 => True
    | _ => s.regs.finit = true
  | _ => True

theorem ConstructPos.modeHolds_engineSteps {p : ConstructPos} {b : RegBlock} {a es} (h : p.modeHolds b) : p.modeHolds (b.engineSteps a es) := by
  cases p <;> simp only [ConstructPos.modeHolds, RegBlock.engineSteps_inrq] at * <;> try trivial
  all_goals first
        | exact ⟨h.1, RegBlock.engineSteps_inak_clear h.1 h.2⟩
        | exact ⟨h.1, RegBlock.engineSteps_inak_set h.1 h.2⟩
        | exact ⟨h.1, fun g => RegBlock.engineSteps_inak_set h.1 (h.2 g)⟩
        | exact ⟨h.1, fun g => RegBlock.engineSteps_inak_clear h.1 (h.2 g)⟩

theorem State.gap_onCourse {s : State} (hn : s.NoReset) (h : State.OnCourse s) : State.OnCourse s.gap := by
  unfold State.OnCourse at *
  rw [State.gap_seq hn, s.gap_respPort, State.gap_regs]
  cases hq : s.seq with
  | construct o p => rw [hq] at h; exact ConstructPos.modeHolds_engineSteps h
  | addfilter o p => rw [hq] at h; cases p <;> first | exact h | simpa using h
  | _ => rw [hq] at h; exact h

/-- A gap that is not listed brings the acknowledge to the request (R167). -/
theorem State.gap_acknowledges {s : State} (hf : s.env.fair = true) (hg : s.env.gaps = []) : s.gap.regs.inak = s.regs.inrq := by
  rw [State.gap_regs]
  simp only [Env.nextGap, hg, List.headD_nil, fairEvents, hf, if_true, RegBlock.engineSteps, List.foldl, RegBlock.engineStep, RegBlock.enabled, RegBlock.effect]
  generalize s.regs = b
  obtain ⟨i, a, _, _, _, _, _⟩ := b
  cases i <;> cases a <;> rfl

/-- A micro-step keeps the course and, with the acknowledge settled, comes nearer the end; TRYRECV may refuse its slot. -/
theorem micro_progress {s : State} (hi : s.seq ≠ .idle) (h : State.OnCourse s) :
   (∃ t, micro s = .next t ∧ State.OnCourse t ∧ t.env = s.env ∧ t.cmdPort = s.cmdPort ∧ (s.regs.inak = s.regs.inrq → t.seq ≠ .idle → Seq.rank t.seq < Seq.rank s.seq))
    ∨ ((∃ p, s.seq = .tryrecv p) ∧ micro s = .refused .receiveSlotOutsideFrameType) := by
  unfold State.OnCourse at h
  cases hq : s.seq with
  | idle => exact absurd hq hi
  | btcalc a b p =>
    left; unfold micro; rw [hq]; dsimp only
    cases p with
    | s1 => exact ⟨_, rfl, trivial, rfl, rfl, by simp [btcalcMicro, Seq.rank]⟩
    | s2 r => cases r <;> exact ⟨_, rfl, by simp [State.OnCourse, btcalcMicro, btcalcResponse], rfl, rfl, by simp [btcalcMicro]⟩
  | construct o p =>
    left; unfold micro; rw [hq]; dsimp only
    rw [hq] at h; dsimp only at h
    cases p <;> simp only [constructMicro, ConstructPos.modeHolds] at *
    case s1 =>
      split
      · exact ⟨_, rfl, by simp [State.OnCourse], rfl, rfl, by simp⟩
      · exact ⟨_, rfl, trivial, rfl, rfl, by simp [Seq.rank]⟩
    case s2 r => exact ⟨_, rfl, ⟨rfl, rfl⟩, rfl, rfl, by simp [Seq.rank]⟩
    case s3 r => exact ⟨_, rfl, h, rfl, rfl, by simp [Seq.rank]⟩
    case e1 r => exact ⟨_, rfl, h, rfl, rfl, by simp [Seq.rank]⟩
    case e2 r t => exact ⟨_, rfl, rfl, rfl, rfl, by simp [Seq.rank]⟩
    case e3 r => exact ⟨_, rfl, ⟨h, id⟩, rfl, rfl, by simp [Seq.rank, State.regVal, RegBlock.read]; intro g; simp [g, h]⟩
    case e4 r st =>
      refine ⟨_, rfl, ?_, rfl, rfl, ?_⟩
      · simp only [State.OnCourse, State.goto]
        cases hst : st.inak with
        | true => exact ⟨h.1, h.2 hst⟩
        | false => exact h.1
      · cases hst : st.inak <;> simp [Seq.rank, hst]
    case s5 r =>
      rw [State.regWrite_ok _ (RegBlock.write_btimr h.1 h.2 _)]
      exact ⟨_, rfl, h, rfl, rfl, by simp [Seq.rank]⟩
    case l1 => exact ⟨_, rfl, h, rfl, rfl, by simp [Seq.rank]⟩
    case l2 t => exact ⟨_, rfl, rfl, rfl, rfl, by simp [Seq.rank]⟩
    case l3 => exact ⟨_, rfl, ⟨h, id⟩, rfl, rfl, by simp [Seq.rank, State.regVal, RegBlock.read]; intro g; simp [g, h]⟩
    case l4 st =>
      refine ⟨_, rfl, ?_, rfl, rfl, ?_⟩
      · simp only [State.OnCourse, State.goto]
        cases hst : st.inak with
        | true => exact h.1
        | false => exact ⟨h.1, h.2 hst⟩
      · cases hst : st.inak <;> simp [Seq.rank, hst]
    case s7 => exact ⟨_, rfl, h, rfl, rfl, by simp [Seq.rank]⟩
    case s8 => exact ⟨_, rfl, by simp [State.OnCourse, okResponse], rfl, rfl, by simp⟩
  | addfilter o p =>
    left; unfold micro; rw [hq]; dsimp only
    rw [hq] at h; dsimp only at h
    cases p <;> simp only [addfilterMicro] at *
    case s2 => exact ⟨_, rfl, rfl, rfl, rfl, by simp [Seq.rank]⟩
    case s14 => exact ⟨_, rfl, trivial, rfl, rfl, by simp [Seq.rank]⟩
    case s15 => exact ⟨_, rfl, by simp [State.OnCourse, okResponse], rfl, rfl, by simp⟩
    all_goals first
      | exact ⟨_, rfl, h, rfl, rfl, by simp [Seq.rank]⟩
      | exact ⟨_, State.regWrite_ok _ (RegBlock.writeBanks_ok h _), h, rfl, rfl, by simp [Seq.rank]⟩
  | transmit o p =>
    left; unfold micro; rw [hq]; dsimp only
    cases p <;> simp only [transmitMicro] at *
    case s2 st =>
      split
      · exact ⟨_, rfl, by simp [State.OnCourse], rfl, rfl, by simp⟩
      · exact ⟨_, rfl, trivial, rfl, rfl, by simp [Seq.rank]⟩
    case s8 => exact ⟨_, rfl, by simp [State.OnCourse, okResponse], rfl, rfl, by simp⟩
    all_goals exact ⟨_, rfl, trivial, rfl, rfl, by simp [Seq.rank]⟩
  | txstatus p =>
    left; unfold micro; rw [hq]; dsimp only
    cases p <;> simp only [txstatusMicro] at *
    case s1 =>
      split
      · exact ⟨_, rfl, by simp [State.OnCourse, txstatusResponse], rfl, rfl, by simp⟩
      · exact ⟨_, rfl, trivial, rfl, rfl, by simp [Seq.rank]⟩
    case s2 =>
      split
      · exact ⟨_, rfl, by simp [State.OnCourse, txstatusResponse], rfl, rfl, by simp⟩
      · exact ⟨_, rfl, trivial, rfl, rfl, by simp [Seq.rank]⟩
    case s3 => exact ⟨_, rfl, trivial, rfl, rfl, by simp [Seq.rank]⟩
    case s4 => exact ⟨_, rfl, by simp [State.OnCourse, txstatusResponse], rfl, rfl, by simp⟩
  | tryrecv p =>
    unfold micro; rw [hq]; dsimp only
    cases p <;> simp only [tryrecvMicro] at *
    case s2 r =>
      left; split
      · exact ⟨_, rfl, by simp [State.OnCourse], rfl, rfl, by simp⟩
      · exact ⟨_, rfl, trivial, rfl, rfl, by simp [Seq.rank]⟩
    case s7 slot =>
      split
      · exact .inr ⟨⟨_, rfl⟩, rfl⟩
      · left; exact ⟨_, rfl, trivial, rfl, rfl, by simp [Seq.rank]⟩
    case s8 slot frame =>
      left
      simp only [State.regWrite, RegBlock.write, rfifo_unpack_release, if_true]
      exact ⟨_, rfl, trivial, rfl, rfl, by simp [Seq.rank]⟩
    case s9 => left; exact ⟨_, rfl, by simp [State.OnCourse, tryrecvResponse], rfl, rfl, by simp⟩
    all_goals left; exact ⟨_, rfl, trivial, rfl, rfl, by simp [Seq.rank]⟩

end Sys2Proof.Machine
end

