-- ==== Sys2Proof/Laws/Quiet.lean ====
section
/-!
SUPPORT. Micro-steps in a quiet state, where a gap changes nothing: the stages of ADDFILTER (42_filter R176) and of
TRANSMIT (43_transmit R190), each as one update of the state.
-/
namespace Sys2Proof.Machine

/-- In a quiet state a run takes the micro-step at once. -/
theorem drive_quiet {n : Nat} {s t : State} {r : Host.Outcome State Fault Refusal} (hq : s.Quiet) (hi : s.seq ≠ .idle)
    (hm : micro s = .next t) (h : drive micro n t = r) : drive micro (n + 1) s = r := by
  rw [← h]; exact drive_next hi (by rw [State.gap_quiet hq]; exact hm)

/-- An update that leaves the inputs and the mode bits leaves the state quiet. -/
theorem State.Quiet.of_same {s t : State} (h : s.Quiet) (he : t.env = s.env) (h1 : t.regs.inrq = s.regs.inrq)
    (h2 : t.regs.inak = s.regs.inak) : t.Quiet :=
  ⟨by rw [he]; exact h.gaps, by rw [he]; exact h.resets, by rw [h1, h2]; exact h.settled⟩

theorem State.Quiet.budget {s : State} (h : s.Quiet) : s.budget = 32 := by simp [State.budget, h.gaps, microBudget]

/-! ### Changes of one bank -/

/-- The register block with one bank changed. -/
def RegBlock.setBank (b : RegBlock) (k : BankId) (f : Bank → Bank) : RegBlock :=
  b.mapBanks fun j x => if j = k then f x else x

theorem RegBlock.bank_setBank (b : RegBlock) (k j : BankId) (f : Bank → Bank) :
    (b.setBank k f).bank j = if j = k then f (b.bank j) else b.bank j := RegBlock.bank_mapBanks _ _ _

theorem RegBlock.mapBanks_congr {b : RegBlock} {f g : BankId → Bank → Bank} (h : ∀ k, f k (b.bank k) = g k (b.bank k)) :
    b.mapBanks f = b.mapBanks g := by
  unfold RegBlock.mapBanks
  rw [show (fun k => f k (b.bank k)) = fun k => g k (b.bank k) from funext h]

theorem RegBlock.setBank_setBank (b : RegBlock) (k : BankId) (f g : Bank → Bank) :
    (b.setBank k f).setBank k g = b.setBank k (g ∘ f) := by
  refine RegBlock.ext_get rfl rfl rfl rfl (fun _ => rfl) (fun _ => rfl) fun j => ?_
  simp only [RegBlock.bank_setBank]
  split <;> rfl

/-! ### The stages of ADDFILTER -/

variable {o : AddfilterOps} {s : State} {n : Nat} {r : Host.Outcome State Fault Refusal}

/-- Steps 1 and 2: the filters are suspended. -/
theorem addfilter_suspends (hq : s.Quiet) (hs : s.seq = .addfilter o .s1)
    (h : drive micro n { s with regs := { s.regs with finit := true }, seq := .addfilter o .s3, free := s.free + 1 } = r) :
    drive micro (n + 2) s = r := by
  refine drive_quiet hq (by simp [hs]) (by simp only [micro, hs, addfilterMicro]; rfl) ?_
  exact drive_quiet (hq.of_same rfl rfl rfl) (by simp) rfl h

/-- Steps 3 and 4: the scale. -/
theorem addfilter_scale (hq : s.Quiet) (hs : s.seq = .addfilter o .s3) (hf : s.regs.finit = true)
    (h : drive micro n { s with
      regs := s.regs.setBank o.bank fun x => { x with fsc := o.bitmode.toBit }
      seq := .addfilter o .s5, free := s.free + 1 } = r) : drive micro (n + 2) s = r := by
  refine drive_quiet hq (by simp [hs]) (by simp only [micro, hs, addfilterMicro]; rfl) ?_
  refine drive_quiet (hq.of_same rfl rfl rfl) (by simp) (by
    simp only [micro, State.afterRead_seq, addfilterMicro]
    exact State.regWrite_ok _ (RegBlock.writeBanks_ok hf _)) (.trans ?_ h)
  congr 2
  refine RegBlock.mapBanks_congr fun k => ?_
  simp only [BankBits.get_withBit, State.regVal, RegBlock.read, RegBlock.get_bankBits]
  by_cases hk : k = o.bank <;> simp [hk]

/-- Step 5: the first filter register. -/
theorem addfilter_value (hq : s.Quiet) (hs : s.seq = .addfilter o .s5) (hf : s.regs.finit = true)
    (h : drive micro n { s with
      regs := s.regs.setBank o.bank fun x => { x with fr1 := o.idvalue }, seq := .addfilter o .s6 } = r) :
    drive micro (n + 1) s = r :=
  drive_quiet hq (by simp [hs]) (by
    simp only [micro, hs, addfilterMicro]
    exact State.regWrite_ok _ (RegBlock.writeBanks_ok hf _)) h

/-- Step 6: the second filter register. -/
theorem addfilter_mask (hq : s.Quiet) (hs : s.seq = .addfilter o .s6) (hf : s.regs.finit = true)
    (h : drive micro n { s with
      regs := s.regs.setBank o.bank fun x => { x with fr2 := o.idmask }, seq := .addfilter o .s7 } = r) :
    drive micro (n + 1) s = r :=
  drive_quiet hq (by simp [hs]) (by
    simp only [micro, hs, addfilterMicro]
    exact State.regWrite_ok _ (RegBlock.writeBanks_ok hf _)) h

/-- Steps 7 and 8: the match mode. -/
theorem addfilter_match (hq : s.Quiet) (hs : s.seq = .addfilter o .s7) (hf : s.regs.finit = true)
    (h : drive micro n { s with
      regs := s.regs.setBank o.bank fun x => { x with fbm := o.matchmode.toBit }
      seq := .addfilter o .s9, free := s.free + 1 } = r) : drive micro (n + 2) s = r := by
  refine drive_quiet hq (by simp [hs]) (by simp only [micro, hs, addfilterMicro]; rfl) ?_
  refine drive_quiet (hq.of_same rfl rfl rfl) (by simp) (by
    simp only [micro, State.afterRead_seq, addfilterMicro]
    exact State.regWrite_ok _ (RegBlock.writeBanks_ok hf _)) (.trans ?_ h)
  congr 2
  refine RegBlock.mapBanks_congr fun k => ?_
  simp only [BankBits.get_withBit, State.regVal, RegBlock.read, RegBlock.get_bankBits]
  by_cases hk : k = o.bank <;> simp [hk]

/-- Steps 9 and 10: the FIFO. -/
theorem addfilter_route (hq : s.Quiet) (hs : s.seq = .addfilter o .s9) (hf : s.regs.finit = true)
    (h : drive micro n { s with
      regs := s.regs.setBank o.bank fun x => { x with ffa := o.fifo.toBit }
      seq := .addfilter o .s11, free := s.free + 1 } = r) : drive micro (n + 2) s = r := by
  refine drive_quiet hq (by simp [hs]) (by simp only [micro, hs, addfilterMicro]; rfl) ?_
  refine drive_quiet (hq.of_same rfl rfl rfl) (by simp) (by
    simp only [micro, State.afterRead_seq, addfilterMicro]
    exact State.regWrite_ok _ (RegBlock.writeBanks_ok hf _)) (.trans ?_ h)
  congr 2
  refine RegBlock.mapBanks_congr fun k => ?_
  simp only [BankBits.get_withBit, State.regVal, RegBlock.read, RegBlock.get_bankBits]
  by_cases hk : k = o.bank <;> simp [hk]

/-- Steps 11 and 12: the bank becomes active. -/
theorem addfilter_activates (hq : s.Quiet) (hs : s.seq = .addfilter o .s11) (hf : s.regs.finit = true)
    (h : drive micro n { s with
      regs := s.regs.setBank o.bank fun x => { x with fact := true }
      seq := .addfilter o .s13, free := s.free + 1 } = r) : drive micro (n + 2) s = r := by
  refine drive_quiet hq (by simp [hs]) (by simp only [micro, hs, addfilterMicro]; rfl) ?_
  refine drive_quiet (hq.of_same rfl rfl rfl) (by simp) (by
    simp only [micro, State.afterRead_seq, addfilterMicro]
    exact State.regWrite_ok _ (RegBlock.writeBanks_ok hf _)) (.trans ?_ h)
  congr 2
  refine RegBlock.mapBanks_congr fun k => ?_
  simp only [BankBits.get_withBit, State.regVal, RegBlock.read, RegBlock.get_bankBits]
  by_cases hk : k = o.bank <;> simp [hk]

/-- Steps 13 to 15: the filters run again and the response goes out. -/
theorem addfilter_resumes (hq : s.Quiet) (hs : s.seq = .addfilter o .s13) :
    drive micro (n + 3) s = .next { s with
      regs := { s.regs with finit := false }, seq := .idle, respPort := okResponse, free := s.free + 1 } := by
  refine drive_quiet hq (by simp [hs]) (by simp only [micro, hs, addfilterMicro]; rfl) ?_
  refine drive_quiet (hq.of_same rfl rfl rfl) (by simp) rfl ?_
  exact drive_quiet (hq.of_same rfl rfl rfl) (by simp) rfl (drive_idle _ rfl)

end Sys2Proof.Machine
end

