-- ==== Sys2Proof/Laws/Run.lean ====
section
/-!
SUPPORT. Following a command from its acceptance to its response while the engine moves: what the gaps keep, and how a
fact at each position of SEQ becomes a fact about the response.
-/
namespace Sys2Proof.Machine

variable {s t u : State}

theorem drive_step {n : Nat} {r : Host.Outcome State Fault Refusal} (hi : s.seq ≠ .idle) (hm : micro s.gap = .next t)
    (h : drive micro n t = r) : drive micro (n + 1) s = r := by rw [← h]; exact drive_next hi hm

theorem State.SameInputs.refl (s : State) : s.SameInputs s := ⟨rfl, rfl, rfl, rfl, rfl, rfl⟩
theorem State.SameInputs.of_same (h : s.SameInputs t) (he : u.env = t.env) (hc : u.cmdPort = t.cmdPort) :
    s.SameInputs u :=
  ⟨hc.trans h.cmdPort, by rw [he]; exact h.fPclk, by rw [he]; exact h.regBase, by rw [he]; exact h.autoRetx,
    by rw [he]; exact h.fair, by rw [he]; exact h.resets⟩
theorem State.SameInputs.gap (h : s.SameInputs t) (hn : t.NoReset) : s.SameInputs t.gap :=
  ⟨by simp [h.cmdPort], by simp [h.fPclk], by simp [h.regBase], by simp [h.autoRetx], by simp [h.fair], by
    rw [State.gap_env, Env.pass_resets_nil _ hn, ← h.resets]; exact hn.symm⟩
theorem State.NoReset.of_same (h : s.NoReset) (he : t.env = s.env) : t.NoReset := by
  unfold State.NoReset; rw [he]; exact h

/-- Since `s` only the engine has acted on the register block, and neither the handle nor an input has changed. -/
structure State.OnlyEngine (s t : State) : Prop where
  noReset : t.NoReset
  inputs : s.SameInputs t
  regs : RegBlock.UpToEngine s.env.autoRetx s.regs t.regs
  handle : t.handle = s.handle

theorem State.OnlyEngine.start (hn : s.NoReset) (q : Seq) : s.OnlyEngine (s.begin q) := ⟨hn, ⟨rfl, rfl, rfl, rfl, rfl, rfl⟩, .refl _, rfl⟩
theorem State.OnlyEngine.gap (h : s.OnlyEngine t) : s.OnlyEngine t.gap :=
  ⟨State.gap_noReset h.noReset, h.inputs.gap h.noReset,
    h.regs.trans (by rw [← h.inputs.autoRetx]; exact State.gap_upToEngine t),
    (State.gap_handle h.noReset).trans h.handle⟩
theorem State.OnlyEngine.of_same (h : s.OnlyEngine t) (he : u.env = t.env) (hr : u.regs = t.regs)
    (hh : u.handle = t.handle) (hc : u.cmdPort = t.cmdPort) : s.OnlyEngine u :=
  ⟨h.noReset.of_same he, h.inputs.of_same he hc, by rw [hr]; exact h.regs, hh.trans h.handle⟩

/-- A fact that gaps and micro-steps keep, with each micro-step nearer the end once the acknowledge is settled, holds at the
response of a command whose engine acknowledges. -/
theorem run_completes (P : State → Prop) (hn : ∀ s, P s → s.NoReset) (hf : ∀ s, P s → s.env.fair = true)
    (hg : ∀ s, P s → P s.gap)
    (hm : ∀ s, P s → s.seq ≠ .idle → ∃ t, micro s = .next t ∧ P t ∧ t.env = s.env
      ∧ (s.regs.inak = s.regs.inrq → t.seq ≠ .idle → t.seq.rank < s.seq.rank))
    (hs : P s) : ∃ t, drive micro s.budget s = .next t ∧ P t ∧ t.seq = .idle := by
  refine drive_completes (m := micro) P Seq.rank 30 Seq.rank_le ?_ hs (by simp [State.budget, microBudget])
  intro s hs hi
  have hq := State.gap_seq (hn s hs)
  obtain ⟨t, h1, h2, h3, h4⟩ := hm s.gap (hg s hs) (by rw [hq]; exact hi)
  refine ⟨t, h1, h2, by rw [h3]; simp, fun he hi' => ?_⟩
  rw [← hq]
  exact h4 (by rw [State.gap_acknowledges (hf s hs) he]; simp) hi'

/-- The same for a command that never polls, whatever the engine does. -/
theorem run_completes_unpolled (P : State → Prop) (hn : ∀ s, P s → s.NoReset) (hg : ∀ s, P s → P s.gap)
    (hm : ∀ s, P s → s.seq ≠ .idle → ∃ t, micro s = .next t ∧ P t ∧ t.env = s.env
      ∧ (t.seq ≠ .idle → t.seq.rank < s.seq.rank))
    (hs : P s) : ∃ t, drive micro s.budget s = .next t ∧ P t ∧ t.seq = .idle := by
  refine drive_completes (m := micro) P Seq.rank 30 Seq.rank_le ?_ hs (by simp [State.budget, microBudget])
  intro s hs hi
  have hq := State.gap_seq (hn s hs)
  obtain ⟨t, h1, h2, h3, h4⟩ := hm s.gap (hg s hs) (by rw [hq]; exact hi)
  exact ⟨t, h1, h2, by rw [h3]; simp, fun _ h => by rw [← hq]; exact h4 h⟩

end Sys2Proof.Machine
end

