-- ==== Sys2Proof/Tests/Slice0.lean ====
section
/-!
SUPPORT. Tests with expected values from the spec: the worked encodings of 30_encoding section 6 and the vectors of
95_test_vectors (each test names its table). Then, for every statement with hypotheses, a witness that meets them all.
-/
namespace Sys2Proof.Tests

open Sys2Proof Sys2Proof.Machine

/-! ### States to start from -/

/-- A constructed, quiet block: Normal mode, every mailbox Empty, both FIFOs empty, no bank active. -/
def ready : State := { State.reset with handle := ⟨true, .fifo0, none⟩ }

/-- `ready` with mailboxes Pending where the flag is false, in the order 0, 1, 2. -/
def pool (e0 e1 e2 : Bool) : State :=
  let mbx (e : Bool) : Mailbox := { Mailbox.powerOn with tme := e, txrq := !e }
  { ready with regs := { ready.regs with mailboxes := ⟨mbx e0, mbx e1, mbx e2⟩ } }

/-- `ready` with FIFO 0 holding these slots. -/
def holding (q : List Slot) : State := { ready with regs := ready.regs.setFifo .fifo0 ⟨q, false⟩ }

/-- The slot of 0x123, 2, [0xAA, 0xBB] (V-RAW row 1). -/
def slotAB : Slot := ⟨0x24600000, 2, 0x0000BBAA, 0⟩
def frameAB : Frame := ⟨0x123, 2, [0xAA, 0xBB]⟩

/-- The state after a command, or the state before it where the command stops. -/
def after (i : Instr) (s : State) : State :=
  match exec i s with
  | .next t => t
  | _ => s

/-- A state with the sequencer at `q`. -/
def atSeq (s : State) (q : Seq) : State := { s with seq := q }

def addOps : AddfilterOps := ⟨0, .b32, .mask, 0x24600000, 0xFFE00000, .fifo0⟩
def txOps : TransmitOps := ⟨0x123, 2, 0x0000BBAA, 0⟩
def coOps : ConstructOps := ⟨.fifo1, .loopback, 500000⟩
def timing8 : BitTiming := ⟨2, 6, 1, 1⟩

/-! ### WellFormed refuses -/

theorem test_bank14_ill_formed : (Instr.addfilter 14 .b32 .mask 0 0 .fifo0).wellFormed = false := by decide
theorem test_dlc9_ill_formed : (Instr.transmit 0 9 0 0).wellFormed = false := by decide
theorem test_bank13_well_formed : (Instr.addfilter 13 .b32 .mask 0 0 .fifo0).wellFormed = true := by decide
theorem test_dlc8_well_formed : (Instr.transmit 0 8 0 0).wellFormed = true := by decide

/-- Why a packet is refused. -/
def rejectOf (p : List Word) : Option Reject :=
  match decode p with
  | .ok _ => none
  | .error e => some e

/-! ### Decoding (30_encoding section 6; V-DEC) -/

theorem test_decode_btcalc : decode [0x10000000, 0x007A1200, 0x0007A120] = .ok (.btcalc 8000000 500000) := rfl
theorem test_decode_construct : decode [0x20000003, 0x0003D090] = .ok (.construct .fifo1 .loopback 250000) := rfl
theorem test_decode_addfilter : decode [0x3000120D, 0x24602480, 0x24A024C0]
    = .ok (.addfilter 13 .b16 .list 0x24602480 0x24A024C0 .fifo1) := rfl
theorem test_decode_transmit : decode [0x400807FF, 0x04030201, 0x08070605]
    = .ok (.transmit 0x7FF 8 0x04030201 0x08070605) := rfl
theorem test_decode_txstatus : decode [0x50000000] = .ok .txstatus := rfl
theorem test_decode_tryrecv : decode [0x60000000] = .ok .tryrecv := rfl

/-- V-DEC rows 3, 4, 5: no opcode. -/
theorem test_reject_opcode : [0x00000000, 0x70000000, 0xF0000000].map (fun w => rejectOf [w])
    = List.replicate 3 (some .illegalOpcode) := by decide
/-- V-DEC rows 6, 8, 13, 15, 16, 17: a reserved bit. -/
theorem test_reject_reserved :
    [[0x10000001, 0x007A1200, 0x0007A120], [0x20000008, 0x0007A120], [0x30000400, 0, 0], [0x40000800, 0, 0],
      [0x50000001], [0x60000100]].map rejectOf = List.replicate 6 (some .reservedBit) := by decide
/-- V-DEC rows 7, 12, 14: an operand out of range. -/
theorem test_reject_operands :
    [[0x20000006, 0x0007A120], [0x3000000E, 0, 0], [0x40090000, 0, 0]].map rejectOf
      = [some .illegalMode, some .bankOutOfRange, some .dlcAbove8] := by decide

/-- The rows are those of spec/opcode_table.json, in its order (match, mask, words). -/
theorem test_opcode_rows : opcodeRows.map (fun r => (r.pattern, r.mask, r.words))
    = [(0x10000000, 0xFFFFFFFF, 3), (0x20000000, 0xFFFFFFF8, 2), (0x30000000, 0xFFFFECE0, 3),
       (0x40000000, 0xFFF0F800, 3), (0x50000000, 0xFFFFFFFF, 1), (0x60000000, 0xFFFFFFFF, 1)] := by decide
/-- No word hits two rows. -/
theorem test_rows_disjoint :
    opcodeRows.Pairwise fun a b => (a.pattern ^^^ b.pattern) &&& a.mask &&& b.mask ≠ 0 := by decide

/-- The host's numbering: word 1 of a packet above word 0. -/
theorem test_table_word : decodeTableWord 64 0x0003D09020000003 = some (.construct .fifo1 .loopback 250000) := by decide

/-! ### One step of each command -/

/-- V-BT row (36000000, 1000000): the three-way tie goes to the fewest quanta. -/
theorem test_btcalc_tie : (after (.btcalc 36000000 1000000) .reset).respPort = [0, 0x00030005] := by decide
/-- V-BT row (8000000, 0). -/
theorem test_btcalc_zero : (after (.btcalc 8000000 0) .reset).respPort = [2] := by decide

/-- P1 command 2. -/
theorem test_construct_loopback : (after (.construct .fifo0 .loopback 500000) .reset).respPort = [0]
    ∧ (after (.construct .fifo0 .loopback 500000) .reset).regs.timing.pack = 0x40050001
    ∧ (after (.construct .fifo0 .loopback 500000) .reset).regs.mode = .normal := by decide
/-- 10_state R28: of the four rows only Initialization lets the timing register be written. -/
theorem test_timing_writable :
    [(false, false), (true, false), (true, true), (false, true)].map
        (fun p => ({ RegBlock.powerOn with inrq := p.1, inak := p.2 } : RegBlock).timingWritable)
      = [false, false, true, false] := by decide
/-- V-CO `CONSTRUCT 0, normal, 83333`. -/
theorem test_construct_inexact : (after (.construct .fifo0 .normal 83333) .reset).respPort = [2]
    ∧ (after (.construct .fifo0 .normal 83333) .reset).handle.constructed = false := by decide

/-- V-FI row 2, with FINIT = 1 before. -/
theorem test_addfilter_list :
    (after (.addfilter 1 .b32 .list 0x24600000 0x24800000 .fifo1)
      { ready with regs := { ready.regs with finit := true } }).regs.bank 1
        = ⟨true, true, true, true, 0x24600000, 0x24800000⟩ := by decide
/-- V-FI: FINIT = 0 after it, and the other banks as before. -/
theorem test_addfilter_finit : (after (.addfilter 13 .b16 .mask 1 2 .fifo0) ready).regs.finit = false
    ∧ (after (.addfilter 13 .b16 .mask 1 2 .fifo0) ready).regs.bank 12 = Bank.powerOn := by decide

/-- V-TX, the trace: mailboxes 0 and 1 Pending. -/
theorem test_transmit_third :
    let t := after (.transmit 0x7FF 8 0x04030201 0x08070605) (pool false false true)
    t.respPort = [0] ∧ t.handle.lastMbx = some .mbx2 ∧ (t.regs.mbx .mbx2).stid = 0x7FF
      ∧ (t.regs.mbx .mbx2).tme = false ∧ (t.regs.mbx .mbx2).datah = 0x08070605 := by decide
/-- V-TX row 000. -/
theorem test_transmit_full : (after (.transmit 0x123 2 0xBBAA 0) (pool false false false)).respPort = [1]
    ∧ (after (.transmit 0x123 2 0xBBAA 0) (pool false false false)).handle.lastMbx = none := by decide

/-- V-TS: LAST_MBX = 1 and TSTATR = 0x1C000500. -/
theorem test_txstatus_lost :
    (after .txstatus { ready with
      handle := ⟨true, .fifo0, some .mbx1⟩
      regs := ready.regs.setMbx .mbx1 { Mailbox.powerOn with rqcp := true, alst := true } }).respPort = [0x200] := by
  decide
/-- V-TS: LAST_MBX = NONE. -/
theorem test_txstatus_none : (after .txstatus ready).respPort = [0x400] := by decide

/-- V-RX row 3 (with 3 pending): the payload is cut at the data length. -/
theorem test_tryrecv_cut :
    let t := after .tryrecv (holding [⟨0x55400018, 0xABCD0003, 0x44332211, 0x88776655⟩, slotAB, slotAB])
    t.respPort = [0x02AA0300, 0x00332211, 0] ∧ (t.regs.fifo .fifo0).q = [slotAB, slotAB] := by decide
/-- V-RX row 1. -/
theorem test_tryrecv_empty : (after .tryrecv ready).respPort = [1] := by decide

/-! ### Images and engine steps -/

/-- V-TI rows 2, 3 and 5. -/
theorem test_timing_image : encodeTiming ⟨4, 6, 1, 1⟩ true false = 0x40050003
    ∧ encodeTiming ⟨1, 6, 1, 1⟩ false true = 0x80050000 ∧ encodeTiming ⟨1024, 16, 8, 4⟩ false false = 0x037F03FF := by
  decide
/-- V-RAW row 1, and the refusals of an extended frame, a remote frame and DLC = 9. -/
theorem test_raw_image : encodeRaw frameAB = slotAB ∧ decodeRaw slotAB = some frameAB
    ∧ decodeRaw ⟨0x24600004, 2, 0, 0⟩ = none ∧ decodeRaw ⟨0x24600002, 0, 0, 0⟩ = none
    ∧ decodeRaw ⟨0x24600000, 9, 0, 0⟩ = none := by decide
/-- V-TX: TSTATR = 0x1C000003, all mailboxes Empty, mailbox 0 with RQCP and TXOK. -/
theorem test_tstatr_image :
    (Tstatr.mk ⟨⟨true, true, false, false, true⟩, ⟨false, false, false, false, true⟩, ⟨false, false, false, false, true⟩⟩
      0).pack = 0x1C000003 := by decide

/-- V-EN: of 0x300, 0x100, 0x200 Pending only mailbox 1 may be selected. -/
theorem test_arbiter :
    let mbx (id : BitVec 11) : Mailbox := { Mailbox.powerOn with tme := false, txrq := true, stid := id }
    let b : RegBlock := { RegBlock.powerOn with mailboxes := ⟨mbx 0x300, mbx 0x100, mbx 0x200⟩ }
    allMbx.map b.selectable = [false, true, false] := by decide
/-- V-EN: TxOk on 1 and TxArbLost on 1, retry, from TSTATR = 0. -/
theorem test_txok_txarblost :
    let x : Mailbox := { Mailbox.powerOn with tme := false, txrq := true, xmit := true }
    x.sent.flags = ⟨true, true, false, false, true⟩ ∧ (x.lost true).flags = ⟨false, false, true, false, false⟩
      ∧ (x.lost true).state = some .pending := by decide
/-- P3: the overflow variant that overwrites the newest frame. -/
theorem test_overflow_replaces : (Fifo.mk [slotAB, slotAB, slotAB] false).overflow ⟨1, 0, 0, 0⟩ true
    = ⟨[slotAB, slotAB, ⟨1, 0, 0, 0⟩], true⟩ := by decide

/-- A program runs from reset: the host's word is fetched and run by the next step (V-DEC row 18). -/
theorem test_step_fetches :
    step (State.reset.withFetchWord 96 0x0007A120007A120010000000)
      = .next { State.reset with respPort := [0, 0x00050001] } := by
  show step _ = _
  rfl

/-! ### Witnesses: for each statement with hypotheses, values that meet them together

One theorem a statement, `witness_<Name>`; where a statement has several clauses, one conjunct or one theorem a clause. -/

theorem ready_quiet : ready.Quiet := ⟨rfl, rfl, rfl⟩
theorem reset_quiet : State.reset.Quiet := ⟨rfl, rfl, rfl⟩

/-- Every mailbox of `pool` is consistent, so the invariant holds at any position that asks for no more. -/
theorem ready_consistent : ready.regs.Consistent := by
  refine ⟨?_, ?_, ?_⟩
  · intro m; cases m <;> exact ⟨by decide, by decide⟩
  · intro m k; cases m <;> intro h <;> exact absurd h (by decide)
  · intro f; cases f <;> decide
theorem ready_atRest : ready.regs.AtRest := ⟨rfl, rfl, .inl rfl⟩
theorem ready_inv : ready.Inv := ⟨ready_consistent, fun _ => ready_atRest⟩

/-! Encoding and dispatch -/

theorem witness_DecodeOfEncode : (Instr.addfilter 13 .b16 .list 0xFFFFFFFF 0 .fifo1).wellFormed = true
    ∧ (Instr.transmit 0x7FF 8 0 0).wellFormed = true := by decide
theorem witness_DecodeOnlyEncodings : decode [0x400807FF, 0, 0] = .ok (.transmit 0x7FF 8 0 0) := rfl
/-- A packet of each length just there, and one word short. -/
theorem witness_PacketLengthByOpcode :
    takePacket [0x10000000, 1, 2] = some ([0x10000000, 1, 2], []) ∧ takePacket [0x10000000, 1] = none
      ∧ takePacket [0x20000000, 1] = some ([0x20000000, 1], []) ∧ takePacket [0x20000000] = none
      ∧ takePacket [0xF0000000, 1] = some ([0xF0000000], [1]) := by decide
/-- An illegal packet (BANK = 14) and a legal one (BANK = 13). -/
theorem witness_IllegalCommandsChangeNothing :
    takePacket [0x3000000E, 0, 0] = some ([0x3000000E, 0, 0], []) ∧ IllegalCommand 0x3000000E true
      ∧ takePacket [0x3000000D, 0, 0] = some ([0x3000000D, 0, 0], []) ∧ ¬ IllegalCommand 0x3000000D true :=
  ⟨by decide, by simp [IllegalCommand, fieldOf, Config.nBanks], by decide,
    by simp [IllegalCommand, fieldOf, Config.nBanks]⟩
/-- A whole packet, none, and a command in execution. -/
theorem witness_StepRunsDecodedCommand :
    (State.reset.seq = .idle ∧ takePacket [0x50000000] = some ([0x50000000], []) ∧ decode [0x50000000] = .ok .txstatus)
      ∧ takePacket State.reset.cmdPort = none ∧ (atSeq ready (.txstatus .s1)).seq ≠ .idle :=
  ⟨⟨rfl, rfl, rfl⟩, rfl, by decide⟩
theorem witness_SecondCommandInFlightRefused : (atSeq ready (.txstatus .s1)).seq ≠ .idle := by decide

/-! The Bit-Timing Calculator -/

/-- A timing found (V-BT row 1), bit rate 0, and a bit rate without a candidate (row 2). -/
theorem witness_BtcMeetsContract : btc 8000000 500000 = some timing8 ∧ (0 : Word).toNat = 0
    ∧ (1 : Word).toNat ≠ 0 ∧ btc 8000000 1 = none := by decide
/-- 40_bit_timing R148: N = 16 with presc 1 is another candidate for (8000000, 500000). -/
theorem witness_BtcChoosesLeastCandidate :
    btc 8000000 500000 = some timing8 ∧ IsCandidate (8000000 : Word).toNat (500000 : Word).toNat 1 13 2 :=
  ⟨by decide, ⟨by decide, by decide, by decide, by decide, by decide, by decide⟩⟩
/-- Both ends of every range. -/
theorem witness_TimingImageHoldsParameters :
    let ok (r : BitTiming) := 1 ≤ r.presc ∧ r.presc ≤ 1024 ∧ 1 ≤ r.seg1 ∧ r.seg1 ≤ 16 ∧ 1 ≤ r.seg2 ∧ r.seg2 ≤ 8
      ∧ 1 ≤ r.sjw ∧ r.sjw ≤ 4
    ok ⟨1, 1, 1, 1⟩ ∧ ok ⟨1024, 16, 8, 4⟩ := by decide
theorem witness_BtcalcCompletes : State.reset.seq = .idle ∧ State.reset.NoReset := ⟨rfl, rfl⟩

/-! Construction -/

theorem witness_ConstructCompletes : State.reset.seq = .idle ∧ State.reset.NoReset ∧ State.reset.env.fair = true
    ∧ State.reset.handle.constructed = false ∧ btc State.reset.env.fPclk 500000 = some timing8 :=
  ⟨rfl, rfl, rfl, rfl, by decide⟩
theorem witness_ConstructFailsWithoutEffect : State.reset.seq = .idle ∧ State.reset.NoReset
    ∧ State.reset.handle.constructed = false ∧ btc State.reset.env.fPclk 83333 = none := ⟨rfl, rfl, rfl, by decide⟩
theorem witness_ConstructHangsWithoutAcknowledge :
    let s : State := { State.reset with env := { Env.initial with fair := false } }
    s.seq = .idle ∧ s.NoReset ∧ s.env.fair = false ∧ s.env.gaps = [] ∧ s.handle.constructed = false
      ∧ btc s.env.fPclk 500000 = some timing8 := ⟨rfl, rfl, rfl, rfl, rfl, by decide⟩
/-- Step 5 of CONSTRUCT in Initialization. -/
def timingWrite : State :=
  { State.reset with seq := .construct coOps (.s5 timing8), regs := { RegBlock.powerOn with inrq := true, inak := true } }
theorem witness_TimingWrittenOnlyInInitialization :
    ∃ t, micro timingWrite = .next t ∧ t.regs.timing ≠ timingWrite.regs.timing := ⟨_, rfl, by decide⟩
theorem witness_EngineInactiveInInitialization :
    timingWrite.regs.inak = true ∧ EngineEvent.ackInit ≠ .ackNormal ∧ timingWrite.regs.inrq = true := by decide

/-! Filters -/

/-- The lowest and the highest bank exist. -/
theorem witness_AddfilterInstallsFilter : ready.seq = .idle ∧ ready.NoReset ∧ ready.handle.constructed = true
    ∧ (0 : Nat) < Config.nBanks ∧ (13 : Nat) < Config.nBanks := ⟨rfl, rfl, rfl, by decide, by decide⟩
theorem witness_AddfilterFrame : ready.seq = .idle ∧ ready.Quiet ∧ ready.handle.constructed = true :=
  ⟨rfl, ready_quiet, rfl⟩
def suspended : State := { ready with regs := { ready.regs with finit := true } }
theorem witness_BanksWrittenOnlyWhileSuspended :
    ∃ t, micro (atSeq suspended (.addfilter addOps .s5)) = .next t
      ∧ t.regs.bank 0 ≠ (atSeq suspended (.addfilter addOps .s5)).regs.bank 0 := ⟨_, rfl, by decide⟩
/-- Suspended, in Initialization, and with no bank active. -/
theorem witness_NothingStoredWhileSuspended :
    suspended.regs.finit = true ∧ timingWrite.regs.inak = true ∧ ready.regs.NoBankActive :=
  ⟨rfl, rfl, by unfold RegBlock.NoBankActive; decide⟩
theorem witness_BankBitWriteChangesOneBank : suspended.regs.finit = true := rfl

/-! Transmission -/

/-- Each of the three mailboxes is the lowest Empty one, and DLC at both ends. -/
theorem witness_TransmitLoadsFirstEmpty :
    let ok (s : State) (m : MbxId) (dlc : Nat) := s.seq = .idle ∧ s.env.resets = [] ∧ s.handle.constructed = true
      ∧ dlc ≤ 8 ∧ (s.gap.regs.mbx m).tme = true ∧ ∀ k ∈ allMbx, k.toNat < m.toNat → (s.gap.regs.mbx k).tme = false
    ok (pool true false true) .mbx0 0 ∧ ok (pool false true true) .mbx1 8 ∧ ok (pool false false true) .mbx2 8 := by
  decide
theorem witness_TransmitFrame : (pool false false true).seq = .idle ∧ (pool false false true).Quiet
    ∧ (pool false false true).handle.constructed = true ∧ ((pool false false true).regs.mbx .mbx2).tme = true
    ∧ ∀ k : MbxId, k.toNat < MbxId.toNat .mbx2 → ((pool false false true).regs.mbx k).tme = false :=
  ⟨rfl, ⟨rfl, rfl, rfl⟩, rfl, rfl, by intro k; cases k <;> decide⟩
theorem witness_TransmitWouldBlock : (pool false false false).seq = .idle ∧ (pool false false false).NoReset
    ∧ (pool false false false).handle.constructed = true
    ∧ ∀ k, ((pool false false false).gap.regs.mbx k).tme = false :=
  ⟨rfl, rfl, rfl, by intro k; cases k <;> decide⟩
theorem witness_EmptyMailboxStable : (ready.regs.mbx .mbx2).state = some .empty := by decide
theorem witness_TransmitWritesOnlyEmptyMailbox :
    (atSeq ready (.transmit txOps (.s4 .mbx1))).Inv
      ∧ ∃ t, micro (atSeq ready (.transmit txOps (.s4 .mbx1))) = .next t
        ∧ t.regs.mbx .mbx1 ≠ (atSeq ready (.transmit txOps (.s4 .mbx1))).regs.mbx .mbx1 :=
  ⟨⟨ready_consistent, rfl, ready_atRest, rfl⟩, _, rfl, by decide⟩
theorem witness_PoolFillsThenBlocks : ready.seq = .idle ∧ ready.Quiet ∧ ready.handle.constructed = true
    ∧ ∀ m, (ready.regs.mbx m).tme = true := ⟨rfl, ready_quiet, rfl, by intro m; cases m <;> rfl⟩
theorem witness_NoCommandCancelsRequest :
    ∃ t, micro (atSeq (pool false true true) (.txstatus (.s3 .mbx0))) = .next t
      ∧ (∀ o r, (atSeq (pool false true true) (.txstatus (.s3 .mbx0))).seq ≠ .construct o (.s2 r))
      ∧ ((pool false true true).regs.mbx .mbx0).txrq = true ∧ ((pool false true true).regs.mbx .mbx0).tme = false :=
  ⟨_, rfl, (fun _ _ h => by cases h), rfl, rfl⟩
theorem witness_TxstatusBeforeTransmit : ready.seq = .idle ∧ ready.NoReset ∧ ready.handle.constructed = true
    ∧ ready.handle.lastMbx = none := ⟨rfl, rfl, rfl, rfl⟩
def sentOn (m : MbxId) : State := { ready with handle := ⟨true, .fifo0, some m⟩ }
theorem witness_TxstatusReportsLastMailbox : (sentOn .mbx2).seq = .idle ∧ (sentOn .mbx2).NoReset
    ∧ (sentOn .mbx2).handle.constructed = true ∧ (sentOn .mbx2).handle.lastMbx = some .mbx2 := ⟨rfl, rfl, rfl, rfl⟩

/-! Reception -/

/-- One slot with DLC = 2, and three, the head with DLC = 8. -/
theorem witness_TryrecvReturnsHead :
    let ok (s : State) (x : Slot) := s.seq = .idle ∧ s.env.resets = [] ∧ s.handle.constructed = true
      ∧ (s.gap.regs.fifo .fifo0).q.head? = some x ∧ (s.gap.regs.fifo .fifo0).q.length ≤ Config.fifoDepth
      ∧ x.idw.getLsbD 2 = false ∧ x.idw.getLsbD 1 = false ∧ x.dlc ≤ 8
    ok (holding [slotAB]) slotAB
      ∧ ok (holding [⟨0xFFE00000, 8, 1, 2⟩, slotAB, slotAB]) ⟨0xFFE00000, 8, 1, 2⟩ := by decide
theorem witness_TryrecvFrame : (holding [slotAB, slotAB, slotAB]).seq = .idle
    ∧ (holding [slotAB, slotAB, slotAB]).Quiet ∧ (holding [slotAB, slotAB, slotAB]).handle.constructed = true
    ∧ ((holding [slotAB, slotAB, slotAB]).regs.fifo .fifo0).q = slotAB :: [slotAB, slotAB]
    ∧ [slotAB, slotAB].length < Config.fifoDepth ∧ decodeRaw slotAB = some frameAB :=
  ⟨rfl, ⟨rfl, rfl, rfl⟩, rfl, rfl, by decide, by decide⟩
theorem witness_TryrecvWouldBlock : ready.seq = .idle ∧ ready.NoReset ∧ ready.handle.constructed = true
    ∧ (ready.gap.regs.fifo ready.handle.boundFifo).q = [] := ⟨rfl, rfl, rfl, rfl⟩
/-- An extended frame, a remote frame, and a data length of 9. -/
theorem witness_TryrecvRefusesForeignFrame :
    let ok (x : Slot) := (holding [x]).seq = .idle ∧ (holding [x]).env.resets = []
      ∧ (holding [x]).handle.constructed = true ∧ ((holding [x]).gap.regs.fifo .fifo0).q.head? = some x
      ∧ ((holding [x]).gap.regs.fifo .fifo0).q.length ≤ Config.fifoDepth
      ∧ (x.idw.getLsbD 2 = true ∨ x.idw.getLsbD 1 = true ∨ 8 < x.dlc)
    ok ⟨0x24600004, 2, 0, 0⟩ ∧ ok ⟨0x24600002, 0, 0, 0⟩ ∧ ok ⟨0x24600000, 9, 0, 0⟩ := by decide
theorem witness_FifoHeadStable : ((holding [slotAB, slotAB, slotAB]).regs.fifo .fifo0).q.head? = some slotAB
    ∧ ((holding [slotAB, slotAB, slotAB]).regs.fifo .fifo0).q.length ≤ Config.fifoDepth := by decide
/-- No data byte, and eight. -/
theorem witness_RawFrameRoundTrip :
    let ok (x : Frame) := x.dlc ≤ 8 ∧ x.data.length = x.dlc
    ok ⟨0, 0, []⟩ ∧ ok ⟨0x7FF, 8, [1, 2, 3, 4, 5, 6, 7, 8]⟩ := by decide
/-- Two slots that differ in every ignored kind of bit. -/
theorem witness_DecodeRawIgnoresOtherBits :
    let x : Slot := ⟨0x55400018, 0xABCD0003, 0x44332211, 0x88776655⟩
    let y : Slot := ⟨0x55400000, 3, 0x00332211, 0⟩
    x.idw.extractLsb' 21 11 = y.idw.extractLsb' 21 11 ∧ x.idw.getLsbD 2 = y.idw.getLsbD 2
      ∧ x.idw.getLsbD 1 = y.idw.getLsbD 1 ∧ x.dtw.extractLsb' 0 4 = y.dtw.extractLsb' 0 4
      ∧ ∀ i < x.dlc, payloadByte x.dlw x.dhw i = payloadByte y.dlw y.dhw i := by decide
theorem witness_ResponsePayloadSliced : decodeRaw slotAB = some frameAB := by decide
theorem witness_ReceiveAfterStore : ready.seq = .idle ∧ ready.Quiet ∧ ready.handle.constructed = true
    ∧ (ready.regs.fifo ready.handle.boundFifo).q = [] ∧ decodeRaw slotAB = some frameAB :=
  ⟨rfl, ready_quiet, rfl, rfl, by decide⟩

/-! The engine's side -/

/-- A mailbox on the bus. -/
def sending : RegBlock :=
  RegBlock.powerOn.setMbx .mbx1 { Mailbox.powerOn with tme := false, txrq := true, xmit := true }
theorem witness_ArbiterTakesLowestIdentifier :
    let b := (pool false true true).regs
    b.inak = false ∧ (∀ k ∈ allMbx, (b.mbx k).xmit = false) ∧ (b.mbx .mbx0).state = some .pending
      ∧ (∀ k ∈ allMbx, (b.mbx k).state = some .pending → (b.mbx .mbx0).stid.toNat ≤ (b.mbx k).stid.toNat)
      ∧ (b.mbx .mbx1).state ≠ some .pending := by decide
/-- AUTO_RETX open, true and false. -/
theorem witness_TransmissionFails : sending.inak = false ∧ (sending.mbx .mbx1).xmit = true
    ∧ ((none : Option Bool) = none ∨ none = some false) ∧ (some true = none ∨ some true = some true)
    ∧ ¬ (some false = none ∨ some false = some true) := by decide
/-- `Config.accept` has no body: whatever value of it accepts the frame, the hypotheses of storing and of overflowing are
met; and a suspended filter meets those of the other two clauses. -/
theorem witness_FrameStoredWhenAccepted (h : Config.accept false false 0 0 slotAB.idw = true) :
    (∃ b : RegBlock, b.inak = false ∧ b.finit = false ∧ (∃ k, (b.bank k).fact = true
        ∧ (b.bank k).ffa = FifoId.toBit .fifo0
        ∧ Config.accept (b.bank k).fsc (b.bank k).fbm (b.bank k).fr1 (b.bank k).fr2 slotAB.idw = true)
      ∧ (b.fifo .fifo0).q.length < 3)
    ∧ (∃ b : RegBlock, b.inak = false ∧ b.finit = false ∧ (∃ k, (b.bank k).fact = true
        ∧ (b.bank k).ffa = FifoId.toBit .fifo0
        ∧ Config.accept (b.bank k).fsc (b.bank k).fbm (b.bank k).fr1 (b.bank k).fr2 slotAB.idw = true)
      ∧ (b.fifo .fifo0).q.length = 3)
    ∧ ¬ suspended.regs.finit = false :=
  ⟨⟨{ RegBlock.powerOn with banks := .all { Bank.powerOn with fact := true } }, rfl, rfl, ⟨13, rfl, rfl, h⟩, by decide⟩,
    ⟨{ RegBlock.powerOn with
        banks := .all { Bank.powerOn with fact := true }
        fifos := ⟨⟨[slotAB, slotAB, slotAB], false⟩, ⟨[], false⟩⟩ }, rfl, rfl, ⟨0, rfl, rfl, h⟩, by decide⟩,
    by decide⟩

/-! Resets and the whole machine -/

def interrupted : State :=
  { atSeq ready (.txstatus .s1) with env := { Env.initial with resets := [0, 5] } }
theorem witness_BlockResetAbandonsCommand : interrupted.seq ≠ .idle ∧ interrupted.env.resets = 0 :: [5] := by decide
theorem witness_StepKeepsInvariant : ready.Inv ∧ ∃ t, step ready = .next t := ⟨ready_inv, _, rfl⟩
/-- A state that steps, and one whose step is the refusal. -/
theorem witness_StepStopsOnlyOnForeignFrame : ready.Inv
    ∧ step { holding [⟨0x24600004, 2, 0, 0⟩] with cmdPort := [0x60000000] } = .refused .receiveSlotOutsideFrameType :=
  ⟨ready_inv, rfl⟩
theorem witness_EveryCommandResponds :
    let s : State := { State.reset with cmdPort := [0x20000003, 0x0003D090, 7] }
    s.seq = .idle ∧ s.NoReset ∧ s.env.fair = true
      ∧ takePacket s.cmdPort = some ([0x20000003, 0x0003D090], [7]) := ⟨rfl, rfl, rfl, rfl⟩
/-- Each of the three codes. -/
theorem witness_NonOkLeavesState :
    (ready.seq = .idle ∧ ready.NoReset ∧ ∃ t, exec .tryrecv ready = .next t ∧ t.respPort = [1])
      ∧ (∃ t, exec (.btcalc 8000000 0) ready = .next t ∧ t.respPort = [2])
      ∧ ∃ t, exec (.construct .fifo0 .normal 500000) ready = .next t ∧ t.respPort = [3] :=
  ⟨⟨rfl, rfl, _, rfl, rfl⟩, ⟨_, rfl, rfl⟩, ⟨_, rfl, rfl⟩⟩
theorem witness_ConfigurationFixedOnceConstructed : ready.seq = .idle ∧ ready.NoReset
    ∧ ready.handle.constructed = true ∧ (∃ t, exec .txstatus ready = .next t)
    ∧ ∃ t, exec (.construct .fifo1 .silent 500000) ready = .next t := ⟨rfl, rfl, rfl, ⟨_, rfl⟩, ⟨_, rfl⟩⟩
def overflowed : State := { ready with regs := ready.regs.setFifo .fifo0 ⟨[slotAB, slotAB, slotAB], true⟩ }
theorem witness_OverflowStaysSet : overflowed.seq = .idle ∧ overflowed.NoReset
    ∧ (∃ t, exec .tryrecv overflowed = .next t) ∧ (overflowed.regs.fifo .fifo0).fovr = true :=
  ⟨rfl, rfl, ⟨_, rfl⟩, rfl⟩
/-- An address between two registers, one past the last, and one below the first. -/
theorem witness_RegReadIsMemRead :
    (∀ r ∈ allRegs, (0x018 : Nat) ≠ State.reset.env.regBase + r.offset)
      ∧ (∀ r ∈ allRegs, (0x2B0 : Nat) ≠ State.reset.env.regBase + r.offset)
      ∧ ∀ r ∈ allRegs, (0x0FF : Nat) ≠ 0x100 + r.offset := by decide

end Sys2Proof.Tests
end

section
/-!
PROOF. The bus behind RegRead and RegWrite (00_scope R13, 20_memory R77, R80, 30_encoding R116): every register is found
at its address, and no register anywhere else.
-/
namespace Sys2Proof.Machine

/-! ### The register map as a list -/

theorem mem_allFifo (f : FifoId) : f ∈ allFifo := by cases f <;> decide

/-- The list of R116 is complete. -/
theorem mem_allRegs (r : Reg) : r ∈ allRegs := by
  cases r <;> simp [allRegs, mem_allMbx, mem_allFifo, mem_allBank]

theorem regAt_offset_of_mem : ∀ r ∈ allRegs, regAt r.offset = some r := by decide

/-- A register is found at its offset. -/
@[simp] theorem regAt_offset (r : Reg) : regAt r.offset = some r := regAt_offset_of_mem r (mem_allRegs r)

/-- The lookup inverts the map, so no two registers share an offset. -/
theorem Reg.offset_injective : Function.Injective Reg.offset := fun r r' h =>
  Option.some.inj (by rw [← regAt_offset r, ← regAt_offset r', h])

theorem Reg.four_dvd_offset (r : Reg) : 4 ∣ r.offset := by
  cases r <;> simp only [Reg.offset] <;> omega

theorem regAt_eq_none {n : Nat} (h : ∀ r : Reg, n ≠ r.offset) : regAt n = none :=
  List.find?_eq_none.mpr fun r _ => by simpa using (h r).symm

/-! ### Addresses -/

theorem Env.four_dvd_regBase (e : Env) : 4 ∣ e.regBase := Nat.dvd_mul_right 4 e.regBaseWord

@[simp] theorem State.regAtAddress_reg (s : State) (r : Reg) :
    s.regAtAddress (s.env.regBase + r.offset) = some r := by
  simp [State.regAtAddress]

theorem State.regAtAddress_eq_none {s : State} {address : Nat} (h : ∀ r : Reg, address ≠ s.env.regBase + r.offset) :
    s.regAtAddress address = none := by
  unfold State.regAtAddress
  split
  · next hle => exact regAt_eq_none fun r hr => h r (by omega)
  · rfl

/-! ### The bus access -/

theorem State.memRead_reg (s : State) (r : Reg) :
    s.memRead (s.env.regBase + r.offset) = .next (r.pack (s.regVal r), s.afterRead s.seq) := by
  simp [State.memRead]

theorem State.memWrite_reg (s : State) (r : Reg) (v : Word) :
    s.memWrite (s.env.regBase + r.offset) v = s.regWrite r (r.unpack v) s.seq := by
  simp [State.memWrite]

theorem State.memRead_fault {s : State} {address : Nat} (h : s.regAtAddress address = none) :
    s.memRead address = .fault (.noRegisterAt address) := by
  simp [State.memRead, h]

theorem State.memWrite_fault {s : State} {address : Nat} (h : s.regAtAddress address = none) (v : Word) :
    s.memWrite address v = .fault (.noRegisterAt address) := by
  simp [State.memWrite, h]

/-- Writing the fields of a value's image is writing the value: the image keeps every named field (R117 to R125). -/
theorem State.regWrite_image (s : State) (r : Reg) (v : r.Val) (next : Seq) :
    s.regWrite r (r.unpack (r.pack v)) next = s.regWrite r v next := by
  simp only [State.regWrite, RegBlock.write_image]

/-- Settles O57: the bus finds the register, and a register write sees only the fields its image keeps. -/
theorem regWriteIsMemWrite : Obligations.RegWriteIsMemWrite := fun s r v =>
  (s.memWrite_reg r (r.pack v)).trans (s.regWrite_image r v s.seq)

/-- Settles O56, clause by clause, from the register map as a list. -/
theorem regReadIsMemRead : Obligations.RegReadIsMemRead := fun s =>
  ⟨s.memRead_reg,
   fun r => dvd_add s.env.four_dvd_regBase r.four_dvd_offset,
   fun _ _ h => Reg.offset_injective h,
   fun _ h =>
     have hn := State.regAtAddress_eq_none h
     ⟨State.memRead_fault hn, State.memWrite_fault hn⟩⟩

end Sys2Proof.Machine
end

section
/-!
SUPPORT. What one step of the machine can do (45_facade R235): a command that is accepted runs from the first micro-step of
its own sequence or is answered ILLEGAL_COMMAND, and each micro-step outside CONSTRUCT makes at most one register access.
-/
namespace Sys2Proof.Machine

variable {s t : State} {q : Seq}

/-! ### Acceptance -/

/-- The sequence a legal command starts, CONSTRUCTED being `c` (30_encoding R112 cases 4 to 7, 45_facade R235). -/
inductive Seq.Starts (c : Bool) : Seq → Instr → Prop
  | btcalc (clk bitrate : Word) : Starts c (.btcalc clk bitrate .s1) (.btcalc clk bitrate)
  | construct (fifo : FifoId) (mode : OpMode) (bitrate : Word) (hc : c = false) :
    Starts c (.construct ⟨fifo, mode, bitrate⟩ .s1) (.construct fifo mode bitrate)
  | addfilter (bank : BankId) (bm : BitMode) (mm : MatchMode) (idvalue idmask : Word) (fifo : FifoId) (hc : c = true) :
    Starts c (.addfilter ⟨bank, bm, mm, idvalue, idmask, fifo⟩ .s1) (.addfilter bank.val bm mm idvalue idmask fifo)
  | transmit (id : BitVec 11) (dlc : Nat) (datal datah : Word) (hd : dlc ≤ Config.dlcMax) (hc : c = true) :
    Starts c (.transmit ⟨id, dlc, datal, datah⟩ .s1) (.transmit id dlc datal datah)
  | txstatus (hc : c = true) : Starts c (.txstatus .s1) .txstatus
  | tryrecv (hc : c = true) : Starts c (.tryrecv .s1) .tryrecv

theorem dispatch_cases {m : State → Host.Outcome State Fault Refusal} {legal : Bool} (hi : s.seq = .idle) :
    s.dispatch m legal q = .next (s.raise .illegalCommand)
      ∨ (legal = true ∧ s.dispatch m legal q = drive m s.budget (s.begin q)) := by
  cases legal with
  | false => exact .inl (dispatch_illegal hi)
  | true => exact .inr ⟨rfl, dispatch_legal hi⟩

/-- A command given while SEQ is IDLE is answered ILLEGAL_COMMAND, or runs from its first micro-step. -/
theorem exec_cases (i : Instr) (hi : s.seq = .idle) :
    exec i s = .next (s.raise .illegalCommand)
      ∨ ∃ q, q.Starts s.handle.constructed i ∧ exec i s = drive micro s.budget (s.begin q) := by
  cases i with
  | btcalc clk bitrate => exact .inr ⟨_, .btcalc clk bitrate, dispatch_legal hi⟩
  | construct fifo mode bitrate =>
    refine (dispatch_cases hi).imp_right fun ⟨hl, h⟩ => ⟨_, .construct fifo mode bitrate ?_, h⟩
    simpa using hl
  | addfilter bank bm mm idvalue idmask fifo =>
    by_cases hb : bank < Config.nBanks
    · have he : exec (.addfilter bank bm mm idvalue idmask fifo) s = s.dispatch micro s.handle.constructed
          (.addfilter ⟨⟨bank, hb⟩, bm, mm, idvalue, idmask, fifo⟩ .s1) := dif_pos hb
      rw [he]
      exact (dispatch_cases hi).imp_right fun ⟨hl, h⟩ =>
        ⟨_, .addfilter ⟨bank, hb⟩ bm mm idvalue idmask fifo hl, h⟩
    · have he : exec (.addfilter bank bm mm idvalue idmask fifo) s = s.dispatch micro false .idle := dif_neg hb
      rw [he]
      exact .inl (dispatch_illegal hi)
  | transmit id dlc datal datah =>
    refine (dispatch_cases hi).imp_right fun ⟨hl, h⟩ => ?_
    simp only [Bool.and_eq_true, decide_eq_true_eq] at hl
    exact ⟨_, .transmit id dlc datal datah hl.1 hl.2, h⟩
  | txstatus => exact (dispatch_cases hi).imp_right fun ⟨hl, h⟩ => ⟨_, .txstatus hl, h⟩
  | tryrecv => exact (dispatch_cases hi).imp_right fun ⟨hl, h⟩ => ⟨_, .tryrecv hl, h⟩

/-- What a step that answers a next state has done. -/
theorem step_cases (h : step s = .next t) :
    (s.seq ≠ .idle ∧ drive micro s.budget s = .next t)
      ∨ (s.seq = .idle ∧ (t = s.gap ∨ (∃ rest, t = s.rejectPacket rest)
          ∨ ∃ i rest, exec i { s with cmdPort := rest } = .next t)) := by
  unfold step at h
  split at h
  · next hi =>
    refine .inr ⟨hi, ?_⟩
    split at h
    · cases h; exact .inl rfl
    · split at h
      · exact .inr (.inr ⟨_, _, h⟩)
      · cases h; exact .inr (.inl ⟨_, rfl⟩)
  · next hi => exact .inl ⟨hi, h⟩

/-! ### One micro-step -/

/-- From `s` to `t` the register block takes one register write or none. -/
def State.AtMostOneWrite (s t : State) : Prop := t.regs = s.regs ∨ ∃ r v, s.regs.write r v = .ok t.regs

/-- From `s` to `t` the command with positions `cmd` goes on or ends, after at most one register write. -/
def State.Advances {α : Type} (cmd : α → Seq) (s t : State) : Prop :=
  (t.seq = .idle ∨ ∃ p, t.seq = cmd p) ∧ s.AtMostOneWrite t

section
variable {α : Type} {cmd : α → Seq}

theorem State.Advances.ends (hq : t.seq = .idle) (hr : t.regs = s.regs) : s.Advances cmd t := ⟨.inl hq, .inl hr⟩

theorem State.Advances.goesOn {p : α} (hq : t.seq = cmd p) (hr : t.regs = s.regs) : s.Advances cmd t :=
  ⟨.inr ⟨p, hq⟩, .inl hr⟩

theorem State.regWrite_advances {r : Reg} {v : r.Val} {p : α} (h : s.regWrite r v (cmd p) = .next t) :
    s.Advances cmd t := by
  rcases s.regWrite_cases r v (cmd p) with ⟨b, hb, hn⟩ | ⟨e, -, hn⟩ <;> rw [hn] at h
  · cases h; exact ⟨.inr ⟨p, rfl⟩, .inr ⟨r, v, hb⟩⟩
  · cases h

end

theorem btcalcMicro_advances (clk bitrate : Word) (p : BtcalcPos) (s : State) :
    s.Advances (.btcalc clk bitrate) (btcalcMicro clk bitrate p s) := by
  cases p with
  | s1 => exact .goesOn rfl rfl
  | s2 r => cases r <;> exact .ends rfl rfl

theorem addfilterMicro_advances {o : AddfilterOps} {p : AddfilterPos} (h : addfilterMicro o p s = .next t) :
    s.Advances (.addfilter o) t := by
  cases p <;> simp only [addfilterMicro] at h
  case s1 | s3 | s7 | s9 | s11 | s13 => cases h; exact .goesOn rfl rfl
  case s2 | s4 | s5 | s6 | s8 | s10 | s12 | s14 => exact State.regWrite_advances h
  case s15 => cases h; exact .ends rfl rfl

theorem transmitMicro_advances {o : TransmitOps} {p : TransmitPos} (h : transmitMicro o p s = .next t) :
    s.Advances (.transmit o) t := by
  cases p <;> simp only [transmitMicro] at h
  case s1 | s7 => cases h; exact .goesOn rfl rfl
  case s2 =>
    split at h <;> cases h
    · exact .ends rfl rfl
    · exact .goesOn rfl rfl
  case s3 | s4 | s5 | s6 => exact State.regWrite_advances h
  case s8 => cases h; exact .ends rfl rfl

theorem txstatusMicro_advances {p : TxstatusPos} (h : txstatusMicro p s = .next t) : s.Advances .txstatus t := by
  cases p <;> simp only [txstatusMicro] at h
  case s1 | s2 =>
    split at h <;> cases h
    · exact .ends rfl rfl
    · exact .goesOn rfl rfl
  case s3 => cases h; exact .goesOn rfl rfl
  case s4 => cases h; exact .ends rfl rfl

theorem tryrecvMicro_advances {p : TryrecvPos} (h : tryrecvMicro p s = .next t) : s.Advances .tryrecv t := by
  cases p <;> simp only [tryrecvMicro] at h
  case s1 | s3 | s4 | s5 | s6 => cases h; exact .goesOn rfl rfl
  case s2 =>
    split at h <;> cases h
    · exact .ends rfl rfl
    · exact .goesOn rfl rfl
  case s7 =>
    split at h <;> cases h
    exact .goesOn rfl rfl
  case s8 => exact State.regWrite_advances h
  case s9 => cases h; exact .ends rfl rfl

/-- CONSTRUCT is in execution. -/
def Seq.constructing : Seq → Bool
  | .construct _ _ => true
  | _ => false

theorem State.Advances.outsideConstruct {α : Type} {cmd : α → Seq} (hcmd : ∀ p, (cmd p).constructing = false)
    (h : s.Advances cmd t) : t.seq.constructing = false ∧ s.AtMostOneWrite t := by
  obtain ⟨hq | ⟨p, hq⟩, hw⟩ := h
  · exact ⟨by rw [hq]; rfl, hw⟩
  · exact ⟨by rw [hq]; exact hcmd p, hw⟩

/-- Outside CONSTRUCT a micro-step makes at most one register write, and does not turn to CONSTRUCT. -/
theorem micro_outsideConstruct (hc : s.seq.constructing = false) (h : micro s = .next t) :
    t.seq.constructing = false ∧ s.AtMostOneWrite t := by
  unfold micro at h
  cases hq : s.seq <;> rw [hq] at h
  case idle => cases h; exact ⟨hc, .inl rfl⟩
  case construct => rw [hq] at hc; cases hc
  case btcalc clk bitrate p =>
    cases h; exact (btcalcMicro_advances clk bitrate p s).outsideConstruct fun _ => rfl
  case addfilter => exact (addfilterMicro_advances h).outsideConstruct fun _ => rfl
  case transmit => exact (transmitMicro_advances h).outsideConstruct fun _ => rfl
  case txstatus => exact (txstatusMicro_advances h).outsideConstruct fun _ => rfl
  case tryrecv => exact (tryrecvMicro_advances h).outsideConstruct fun _ => rfl

end Sys2Proof.Machine
end

section
/-!
PROOF. The state's invariants (10_state R38, R48, R50, R52): what reset gives, what every step keeps, and what the engine
never writes.
-/
namespace Sys2Proof.Machine

variable {s t : State}

/-! ### The invariant R48 along a step -/

/-- A run of micro-steps keeps the invariant. -/
theorem drive_inv {n : Nat} (hs : s.Inv) (h : drive micro n s = .next t) : t.Inv := by
  refine drive_keeps (m := micro) State.Inv (fun u v hu _ hv => ?_) hs h
  rcases micro_inv (State.gap_inv hu) with ⟨w, hw, hi⟩ | hr
  · rw [hw] at hv; cases hv; exact hi
  · rw [hr] at hv; cases hv

/-- Between commands the invariant speaks of the register block and the handle only. -/
theorem State.inv_idle_congr (hs : s.Inv) (hi : s.seq = .idle) (hi' : t.seq = .idle) (hr : t.regs = s.regs)
    (hh : t.handle = s.handle) : t.Inv := by
  have hq := hs.seq
  simp only [State.SeqHolds, hi] at hq
  exact ⟨hr ▸ hs.regs, by simpa only [State.SeqHolds, hi', hr, hh] using hq⟩

/-- What holds between commands is what the first micro-step of a legal command needs. -/
theorem State.begin_inv {i : Instr} {q : Seq} (hs : s.Inv) (hi : s.seq = .idle)
    (hq : q.Starts s.handle.constructed i) : (s.begin q).Inv := by
  have hrest : s.handle.constructed = true → s.regs.AtRest := by
    have h := hs.seq
    simpa only [State.SeqHolds, hi] using h
  refine ⟨hs.regs, ?_⟩
  cases hq with
  | btcalc => exact hrest
  | construct _ _ _ hc => exact ⟨trivial, trivial, hc⟩
  | addfilter _ _ _ _ _ _ hc =>
    obtain ⟨hinrq, hinak, hfinit⟩ := hrest hc
    exact ⟨hc, hinrq, hinak, hfinit, by simp [AddfilterOps.standIn, AddfilterPos.written], trivial⟩
  | transmit _ _ _ _ _ hc => exact ⟨hc, hrest hc, trivial⟩
  | txstatus hc => exact ⟨hc, hrest hc⟩
  | tryrecv hc => exact ⟨hc, hrest hc, trivial⟩

theorem exec_inv {i : Instr} (hs : s.Inv) (hi : s.seq = .idle) (h : exec i s = .next t) : t.Inv := by
  rcases exec_cases i hi with he | ⟨q, hq, he⟩ <;> rw [he] at h
  · cases h; exact State.inv_idle_congr hs hi rfl rfl rfl
  · exact drive_inv (State.begin_inv hs hi hq) h

/-- Settles O50: the invariant along a gap, an illegal packet, a command from its acceptance, and a command that goes on. -/
theorem stepKeepsInvariant : Obligations.StepKeepsInvariant := by
  intro s t hs h
  rcases step_cases h with ⟨-, hd⟩ | ⟨hi, rfl | ⟨rest, rfl⟩ | ⟨i, rest, he⟩⟩
  · exact drive_inv hs hd
  · exact State.gap_inv hs
  · exact State.inv_idle_congr hs hi rfl rfl rfl
  · have hs' : State.Inv { s with cmdPort := rest } := State.inv_idle_congr hs hi hi rfl rfl
    exact exec_inv hs' hi he

/-! ### The engine's write set -/

/-- Settles O41, from the engine's frame and the mailbox data it leaves. -/
theorem engineWriteSet : Obligations.EngineWriteSet := fun b a es =>
  have ⟨hinrq, htiming, hfinit, hbanks⟩ := b.engineSteps_frame a es
  ⟨hinrq, htiming, hfinit, hbanks, b.engineSteps_sameData a es⟩

/-! ### The overflow flag -/

/-- The engine sets FOVR and never clears it (10_state R38). -/
theorem RegBlock.engineSteps_fovr {b : RegBlock} {a : Option Bool} {es : List EngineEvent} {f : FifoId}
    (h : (b.fifo f).fovr = true) : ((b.engineSteps a es).fifo f).fovr = true := by
  refine RegBlock.engineSteps_keeps (fun c => (c.fifo f).fovr = true) (fun c e hc he => ?_) h
  rcases RegBlock.effect_fifo he f with hf | ⟨slot, -, -, -, hf⟩ | ⟨slot, r, -, -, -, hf⟩ <;> rw [hf]
  · exact hc
  · exact hc
  · rfl

theorem RegBlock.writeBanks_fifos {b c : RegBlock} {g : BankId → Bank → Bank} (h : b.writeBanks g = .ok c) :
    c.fifos = b.fifos := by
  unfold RegBlock.writeBanks at h
  split at h
  · cases h; rfl
  · cases h

/-- No register write changes FOVR (10_state R38, R39). -/
theorem RegBlock.write_fovr {b c : RegBlock} {r : Reg} {v : r.Val} (h : b.write r v = .ok c) (f : FifoId) :
    (c.fifo f).fovr = (b.fifo f).fovr := by
  cases r with
  | ctlr | statr | tstatr | txmir | txmdtr | txmdlr | txmdhr | rxmir | rxmdtr | rxmdlr | rxmdhr | fctlr =>
    cases h; rfl
  | rfifo g =>
    cases h
    split
    · rw [RegBlock.fifo_setFifo]
      split
      · next hg => subst hg; rfl
      · rfl
    · rfl
  | btimr =>
    simp only [RegBlock.write] at h
    split at h <;> cases h
    rfl
  | fmcfgr | fscfgr | fafifor | fwr | fir1 | fir2 =>
    simp only [RegBlock.fifo, RegBlock.writeBanks_fifos h]

theorem State.AtMostOneWrite.fovr (h : s.AtMostOneWrite t) (f : FifoId) :
    (t.regs.fifo f).fovr = (s.regs.fifo f).fovr := by
  rcases h with h | ⟨r, v, h⟩
  · rw [h]
  · exact RegBlock.write_fovr h f

/-- CONSTRUCT is not in execution, and the FIFO has overflowed. -/
def State.OverflowedOutsideConstruct (f : FifoId) (s : State) : Prop :=
  s.seq.constructing = false ∧ (s.regs.fifo f).fovr = true

theorem State.OverflowedOutsideConstruct.gap {f : FifoId} (h : s.OverflowedOutsideConstruct f) :
    s.gap.OverflowedOutsideConstruct f := by
  obtain ⟨hc, hf⟩ := h
  refine ⟨?_, by rw [s.gap_regs]; exact RegBlock.engineSteps_fovr hf⟩
  rcases s.gap_cases with ⟨hq, -⟩ | ⟨hq, -⟩ <;> rw [hq]
  · exact hc
  · rfl

theorem State.OverflowedOutsideConstruct.micro {f : FifoId} (h : s.OverflowedOutsideConstruct f)
    (hm : micro s = .next t) : t.OverflowedOutsideConstruct f := by
  obtain ⟨hc, hw⟩ := micro_outsideConstruct h.1 hm
  exact ⟨hc, (hw.fovr f).trans h.2⟩

theorem drive_overflowedOutsideConstruct {f : FifoId} {n : Nat} (hs : s.OverflowedOutsideConstruct f)
    (h : drive micro n s = .next t) : t.OverflowedOutsideConstruct f :=
  drive_keeps (m := micro) (State.OverflowedOutsideConstruct f) (fun _ _ hu _ hm => hu.gap.micro hm) hs h

/-- Settles O55: neither the engine nor a register write clears FOVR, and no command but CONSTRUCT resets the
peripheral. -/
theorem overflowStaysSet : Obligations.OverflowStaysSet := by
  intro i s t f hi _ h hf
  rcases exec_cases i hi with he | ⟨q, hq, he⟩ <;> rw [he] at h
  · cases h; exact .inl hf
  · cases hq with
    | construct g m b => exact .inr ⟨g, m, b, rfl⟩
    | btcalc | addfilter | transmit | txstatus | tryrecv =>
      exact .inl (drive_overflowedOutsideConstruct (s := s.begin _) ⟨rfl, hf⟩ h).2

/-! ### Reset -/

/-- Settles O47: the two fields of the reset state that R50 gives. -/
theorem resetValues : Obligations.ResetValues := ⟨rfl, rfl⟩

/-- Each mailbox after peripheral reset has the flags of R50 and free data registers. -/
theorem RegBlock.afterReset_mbx (n : Nat) (m : MbxId) :
    ∃ k, (RegBlock.afterReset n).mbx m = Mailbox.afterReset k := by
  cases m <;> exact ⟨_, rfl⟩

theorem RegBlock.afterReset_fifo (n : Nat) (f : FifoId) : (RegBlock.afterReset n).fifo f = ⟨[], false⟩ := by
  cases f <;> rfl

/-- Settles O48: SEQ and the handle stay, and the new register block has R50's values, mailbox by mailbox, FIFO by FIFO
and bank by bank. -/
theorem peripheralResetValues : Obligations.PeripheralResetValues := by
  intro s
  refine ⟨rfl, rfl, rfl, rfl, fun m => ?_, fun f => ?_, RegBlock.afterReset_noBankActive s.free⟩
  · obtain ⟨k, hk⟩ := RegBlock.afterReset_mbx s.free m
    rw [State.peripheralReset_regs, hk]
    exact ⟨rfl, rfl, rfl, rfl, rfl, rfl, rfl⟩
  · rw [State.peripheralReset_regs, RegBlock.afterReset_fifo]
    exact ⟨rfl, rfl, rfl⟩

theorem RegBlock.powerOn_mbx (m : MbxId) : RegBlock.powerOn.mbx m = Mailbox.powerOn := by cases m <;> rfl

theorem RegBlock.powerOn_consistent : RegBlock.powerOn.Consistent where
  mailbox m := by
    rw [RegBlock.powerOn_mbx]
    exact ⟨by decide, by decide⟩
  oneTransmits m k hm := by
    rw [RegBlock.powerOn_mbx] at hm
    cases hm
  depth f := by cases f <;> exact Nat.zero_le _

/-- Settles O49: the power-on register block is consistent, and at IDLE without a handle nothing more is asked. -/
theorem resetMeetsInvariant : Obligations.ResetMeetsInvariant :=
  ⟨RegBlock.powerOn_consistent, fun hc => nomatch hc⟩

end Sys2Proof.Machine
end

section
/-!
PROOF. The memory model (20_memory R87, R88): what the engine leaves alone in the mailboxes and the FIFOs, and no second
command while one is in execution.
-/
namespace Sys2Proof.Machine

/-- Settles O26: the engine touches a mailbox only while it is Pending or Transmitting. -/
theorem emptyMailboxStable : Obligations.EmptyMailboxStable :=
  fun _ _ _ _ h => RegBlock.engineSteps_empty h

/-- FMP has room for every length up to FIFO_DEPTH (10_state R37). -/
theorem Fifo.fmp_toNat {x : Fifo} (h : x.q.length ≤ Config.fifoDepth) : x.fmp.toNat = x.q.length :=
  (BitVec.toNat_ofNat ..).trans (Nat.mod_eq_of_lt (Nat.lt_succ_of_le h))

/-- Settles O36: the head stays, the queue does not get shorter, and at both ends of the run it is short enough for FMP to
be its length. -/
theorem fifoHeadStable : Obligations.FifoHeadStable := by
  intro b a es f x hx hd
  obtain ⟨hhead, hle, hd'⟩ := RegBlock.engineSteps_head (a := a) (es := es) hx hd
  refine ⟨hhead, ?_, Fifo.fmp_toNat hd'⟩
  rwa [BitVec.le_def, Fifo.fmp_toNat hd, Fifo.fmp_toNat hd']

/-- Settles O7: every command goes through `State.dispatch`, ADDFILTER on each side of its bank check. -/
theorem secondCommandInFlightRefused : Obligations.SecondCommandInFlightRefused := by
  intro i s h
  cases i with
  | addfilter bank bitmode matchmode idvalue idmask fifo =>
    change execAddfilter bank bitmode matchmode idvalue idmask fifo s = _
    unfold execAddfilter
    split
    · exact dispatch_busy h
    · exact dispatch_busy h
  | btcalc | construct | transmit | txstatus | tryrecv => exact dispatch_busy h

end Sys2Proof.Machine
end

section
/-!
PROOF. Decoding (30_encoding R100 to R114): the packet's length, and decoding and encoding as inverses.
-/
namespace Sys2Proof

open Machine

variable {w0 w1 w2 : Word} {ws ops : List Word} {i : Instr}

/-! ### The length of a packet -/

theorem packetLength_eq (w0 : Word) : packetLength w0 =
    if opcodeOf w0 = 1 ∨ opcodeOf w0 = 3 ∨ opcodeOf w0 = 4 then 3 else if opcodeOf w0 = 2 then 2 else 1 := by
  unfold packetLength
  split <;> simp_all [OpcodeRow.btcalc, OpcodeRow.construct, OpcodeRow.addfilter, OpcodeRow.transmit]

theorem packetLength_pos (w0 : Word) : 1 ≤ packetLength w0 := by
  rw [packetLength_eq]; split_ifs <;> decide

theorem packetLength_le (w0 : Word) : packetLength w0 ≤ 3 := by
  rw [packetLength_eq]; split_ifs <;> decide

/-- Settles O4: both sides fix the length by the same opcodes. -/
theorem packetLengthByOpcode : Obligations.PacketLengthByOpcode := by
  intro w0 ws
  dsimp only
  rw [← opcodeOf_eq, ← packetLength_eq]
  exact ⟨fun h => if_pos h, fun h => if_neg (Nat.not_le_of_lt h)⟩

/-! ### Decoding by opcode -/

theorem decode_of_length (h : (w0 :: ops).length = packetLength w0) :
    decode (w0 :: ops) = decodeFields w0 (ops.getD 0 0) (ops.getD 1 0) := if_pos h

/-- A list of words that decodes is a packet, and its fields decode. -/
theorem decode_ok (h : decode ws = .ok i) : ∃ w0 ops, ws = w0 :: ops ∧ (w0 :: ops).length = packetLength w0
    ∧ decodeFields w0 (ops.getD 0 0) (ops.getD 1 0) = .ok i := by
  cases ws with
  | nil => cases h
  | cons w0 ops =>
    by_cases hl : (w0 :: ops).length = packetLength w0
    · exact ⟨w0, ops, rfl, hl, by rw [← decode_of_length hl]; exact h⟩
    · rw [decode, if_neg hl] at h; cases h

theorem decodeFields_btcalc (h : opcodeOf w0 = 1) : decodeFields w0 w1 w2 =
    if OpcodeRow.btcalc.hits w0 then .ok (.btcalc w1 w2) else .error .reservedBit := by
  simp only [decodeFields, h]

theorem decodeFields_construct (h : opcodeOf w0 = 2) : decodeFields w0 w1 w2 =
    if OpcodeRow.construct.hits w0 then decodeConstruct w0 w1 else .error .reservedBit := by
  simp only [decodeFields, h]

theorem decodeFields_addfilter (h : opcodeOf w0 = 3) : decodeFields w0 w1 w2 =
    if OpcodeRow.addfilter.hits w0 then decodeAddfilter w0 w1 w2 else .error .reservedBit := by
  simp only [decodeFields, h]

theorem decodeFields_transmit (h : opcodeOf w0 = 4) : decodeFields w0 w1 w2 =
    if OpcodeRow.transmit.hits w0 then decodeTransmit w0 w1 w2 else .error .reservedBit := by
  simp only [decodeFields, h]

theorem decodeFields_txstatus (h : opcodeOf w0 = 5) : decodeFields w0 w1 w2 =
    if OpcodeRow.txstatus.hits w0 then .ok .txstatus else .error .reservedBit := by
  simp only [decodeFields, h]

theorem decodeFields_tryrecv (h : opcodeOf w0 = 6) : decodeFields w0 w1 w2 =
    if OpcodeRow.tryrecv.hits w0 then .ok .tryrecv else .error .reservedBit := by
  simp only [decodeFields, h]

theorem decodeFields_illegalOpcode (h : opcodeOf w0 = 0 ∨ 7 ≤ opcodeOf w0) :
    decodeFields w0 w1 w2 = .error .illegalOpcode := by
  unfold decodeFields
  split
  case h_7 => rfl
  all_goals omega

/-- The seven forms of word 0 (30_encoding R101). -/
theorem opcodeOf_cases (w0 : Word) : opcodeOf w0 = 1 ∨ opcodeOf w0 = 2 ∨ opcodeOf w0 = 3 ∨ opcodeOf w0 = 4
    ∨ opcodeOf w0 = 5 ∨ opcodeOf w0 = 6 ∨ opcodeOf w0 = 0 ∨ 7 ≤ opcodeOf w0 := by omega

/-! ### From a command to its packet and back -/

theorem encode_length (i : Instr) : ∃ w0 ops, encode i = w0 :: ops ∧ (w0 :: ops).length = packetLength w0 := by
  cases i with
  | btcalc => exact Laws.PacketLength.btcalc ..
  | construct => exact Laws.PacketLength.construct ..
  | addfilter => exact Laws.PacketLength.addfilter ..
  | transmit => exact Laws.PacketLength.transmit ..
  | txstatus => exact Laws.PacketLength.txstatus
  | tryrecv => exact Laws.PacketLength.tryrecv

/-- A command's packet is decoded by its fields. -/
theorem decode_encode (i : Instr) :
    decode (encode i) = decodeFields ((encode i).getD 0 0) ((encode i).getD 1 0) ((encode i).getD 2 0) := by
  obtain ⟨w0, ops, he, hl⟩ := encode_length i
  rw [he, decode_of_length hl]
  rfl

/-- Settles O1: each header has its opcode, hits its row, and gives its operand fields back. -/
theorem decodeOfEncode : Obligations.DecodeOfEncode := by
  intro i hi
  rw [decode_encode]
  cases i with
  | btcalc clk bitrate => exact decodeFields_btcalc (w0 := 0x10000000) rfl
  | construct fifo mode bitrate =>
    obtain ⟨hop, hrow, hmode, hfifo⟩ := constructHeader_facts fifo mode
    change decodeFields (constructHeader fifo mode) bitrate 0 = _
    rw [decodeFields_construct hop, if_pos hrow, decodeConstruct, hmode, hfifo, fifoId_ofBit_toBit]
  | addfilter bank bm mm idvalue idmask fifo =>
    have hb : bank < Config.nBanks := of_decide_eq_true hi
    obtain ⟨hbm, hmm, hfifo⟩ := addfilterHeader_bits bank bm mm fifo
    change decodeFields (addfilterHeader bank bm mm fifo) idvalue idmask = _
    rw [decodeFields_addfilter (addfilterHeader_opcode ..), if_pos (addfilterHeader_hits ..), decodeAddfilter,
      addfilterHeader_bank bm mm fifo (Nat.lt_trans hb (by decide)), if_pos hb, hbm, hmm, hfifo, bitmode_ofBit_toBit,
      matchmode_ofBit_toBit, fifoId_ofBit_toBit]
  | transmit id dlc datal datah =>
    have hd : dlc ≤ Config.dlcMax := of_decide_eq_true hi
    change decodeFields (transmitHeader id dlc) datal datah = _
    rw [decodeFields_transmit (transmitHeader_opcode ..), if_pos (transmitHeader_hits ..), decodeTransmit,
      transmitHeader_dlc id (Nat.lt_of_le_of_lt hd (by decide)), if_pos hd, transmitHeader_id]
  | txstatus => rfl
  | tryrecv => rfl

/-- Settles O3: the worked encodings are the packets of their commands. -/
theorem workedEncodingsDecode : Obligations.WorkedEncodingsDecode :=
  ⟨decodeOfEncode (.btcalc _ _) rfl, decodeOfEncode (.construct .fifo1 .loopback _) rfl,
    decodeOfEncode (.construct .fifo0 .silent _) rfl, decodeOfEncode (.addfilter 0 .b32 .mask _ _ .fifo0) rfl,
    decodeOfEncode (.addfilter 13 .b16 .list _ _ .fifo1) rfl, decodeOfEncode (.transmit 0x123 2 _ _) rfl,
    decodeOfEncode .txstatus rfl, decodeOfEncode .tryrecv rfl⟩

/-- A guarded decoding that answers a command has passed its guard. -/
theorem ok_of_ite_error {c : Prop} [Decidable c] {x : Except Reject Instr} {e : Reject}
    (h : (if c then x else .error e) = .ok i) : c ∧ x = .ok i := by
  split at h
  · next hc => exact ⟨hc, h⟩
  · cases h

theorem decodeConstruct_ok (hrow : OpcodeRow.construct.hits w0 = true) (h : decodeConstruct w0 w1 = .ok i) :
    i.wellFormed = true ∧ encode i = [w0, w1] := by
  unfold decodeConstruct at h
  split at h
  · cases h
  · next mode hmode =>
    cases h
    exact ⟨rfl, by rw [encode, constructHeader_of_hits hrow hmode]⟩

theorem decodeAddfilter_ok (hrow : OpcodeRow.addfilter.hits w0 = true) (h : decodeAddfilter w0 w1 w2 = .ok i) :
    i.wellFormed = true ∧ encode i = [w0, w1, w2] := by
  obtain ⟨hbank, hi⟩ := ok_of_ite_error h
  cases hi
  exact ⟨decide_eq_true hbank, by rw [encode, addfilterHeader_of_hits hrow]⟩

theorem decodeTransmit_ok (hrow : OpcodeRow.transmit.hits w0 = true) (h : decodeTransmit w0 w1 w2 = .ok i) :
    i.wellFormed = true ∧ encode i = [w0, w1, w2] := by
  obtain ⟨hdlc, hi⟩ := ok_of_ite_error h
  cases hi
  exact ⟨decide_eq_true hdlc, by rw [encode, transmitHeader_of_hits hrow]⟩

/-- Fields that decode are those of a well-formed command's packet. -/
theorem decodeFields_ok (h : decodeFields w0 w1 w2 = .ok i) :
    i.wellFormed = true ∧ encode i = [w0, w1, w2].take (packetLength w0) := by
  rcases opcodeOf_cases w0 with hop | hop | hop | hop | hop | hop | hop
  · rw [decodeFields_btcalc hop] at h
    obtain ⟨hrow, hi⟩ := ok_of_ite_error h
    obtain rfl := (OpcodeRow.hits_all rfl).1 hrow
    cases hi; exact ⟨rfl, rfl⟩
  · rw [decodeFields_construct hop] at h
    obtain ⟨hrow, hi⟩ := ok_of_ite_error h
    simpa [packetLength_eq, hop] using decodeConstruct_ok hrow hi
  · rw [decodeFields_addfilter hop] at h
    obtain ⟨hrow, hi⟩ := ok_of_ite_error h
    simpa [packetLength_eq, hop] using decodeAddfilter_ok hrow hi
  · rw [decodeFields_transmit hop] at h
    obtain ⟨hrow, hi⟩ := ok_of_ite_error h
    simpa [packetLength_eq, hop] using decodeTransmit_ok hrow hi
  · rw [decodeFields_txstatus hop] at h
    obtain ⟨hrow, hi⟩ := ok_of_ite_error h
    obtain rfl := (OpcodeRow.hits_all rfl).1 hrow
    cases hi; exact ⟨rfl, rfl⟩
  · rw [decodeFields_tryrecv hop] at h
    obtain ⟨hrow, hi⟩ := ok_of_ite_error h
    obtain rfl := (OpcodeRow.hits_all rfl).1 hrow
    cases hi; exact ⟨rfl, rfl⟩
  · rw [decodeFields_illegalOpcode hop] at h
    cases h

/-- A packet is the words its length takes from the front of its zero-padded form. -/
theorem packet_eq_take (h : (w0 :: ops).length = packetLength w0) :
    [w0, ops.getD 0 0, ops.getD 1 0].take (packetLength w0) = w0 :: ops := by
  have hle := packetLength_le w0
  rw [← h] at hle ⊢
  match ops, hle with
  | [], _ => rfl
  | [_], _ => rfl
  | [_, _], _ => rfl

/-- Settles O2: what decodes is a packet of the length OPC fixes, whose word 0 is the command's header. -/
theorem decodeOnlyEncodings : Obligations.DecodeOnlyEncodings := by
  intro ws i h
  obtain ⟨w0, ops, rfl, hl, hf⟩ := decode_ok h
  obtain ⟨hwf, he⟩ := decodeFields_ok hf
  exact ⟨hwf, he.trans (packet_eq_take hl)⟩

end Sys2Proof
end

section
/-!
PROOF. Legal and illegal commands (30_encoding R112), on the header's fields and on the handle, and the step that answers
each.
-/
namespace Sys2Proof

open Machine

variable {w0 w1 w2 : Word} {i : Instr} {c : Bool}

/-- A command's demand on the handle (30_encoding R112 cases 6 and 7), CONSTRUCTED being `c`. -/
def Instr.LegalWhen (c : Bool) : Instr → Prop
  | .btcalc _ _ => True
  | .construct _ _ _ => c = false
  | .addfilter _ _ _ _ _ _ | .transmit _ _ _ _ | .txstatus | .tryrecv => c = true

theorem exists_ok_ite_error {p : Prop} [Decidable p] {x : Except Reject Instr} {e : Reject} {P : Instr → Prop} :
    (∃ i, (if p then x else .error e) = .ok i ∧ P i) ↔ p ∧ ∃ i, x = .ok i ∧ P i := by
  by_cases hp : p <;> simp [hp]

theorem exists_ok {x : Instr} {P : Instr → Prop} :
    (∃ i, (Except.ok x : Except Reject Instr) = .ok i ∧ P i) ↔ P x := by simp

/-- MODE = 3 is the one value that is no mode (30_encoding R103). -/
theorem OpMode.ofField_eq_none : ∀ v : BitVec 2, OpMode.ofField v = none ↔ v.toNat = 3 := by decide

theorem exists_decodeConstruct :
    (∃ i, decodeConstruct w0 w1 = .ok i ∧ i.LegalWhen c) ↔ fieldOf w0 2 1 ≠ 3 ∧ c = false := by
  rw [fieldOf_eq, ne_eq, ← OpMode.ofField_eq_none, decodeConstruct]
  cases OpMode.ofField (w0.extractLsb' 1 2) <;> simp [Instr.LegalWhen]

theorem exists_decodeAddfilter :
    (∃ i, decodeAddfilter w0 w1 w2 = .ok i ∧ i.LegalWhen c) ↔ fieldOf w0 4 0 < Config.nBanks ∧ c = true := by
  rw [fieldOf_eq]
  exact exists_ok_ite_error.trans (and_congr_right fun _ => exists_ok)

theorem exists_decodeTransmit :
    (∃ i, decodeTransmit w0 w1 w2 = .ok i ∧ i.LegalWhen c) ↔ fieldOf w0 19 16 ≤ Config.dlcMax ∧ c = true := by
  rw [fieldOf_eq]
  exact exists_ok_ite_error.trans (and_congr_right fun _ => exists_ok)

/-- The seven cases of R112 are what decoding and the handle leave out, opcode by opcode. -/
theorem not_illegalCommand_iff :
    ¬ IllegalCommand w0 c ↔ ∃ i, decodeFields w0 w1 w2 = .ok i ∧ i.LegalWhen c := by
  unfold IllegalCommand
  rw [← opcodeOf_eq]
  rcases opcodeOf_cases w0 with hop | hop | hop | hop | hop | hop | hop
  · rw [decodeFields_btcalc hop, exists_ok_ite_error, exists_ok, bare_hits_iff .btcalc 1 (by decide) w0 hop rfl]
    simp [hop, Instr.LegalWhen]
  · rw [decodeFields_construct hop, exists_ok_ite_error, exists_decodeConstruct, construct_hits_iff w0 hop]
    simp [hop]
  · rw [decodeFields_addfilter hop, exists_ok_ite_error, exists_decodeAddfilter, addfilter_hits_iff w0 hop]
    simp [hop, and_assoc]
  · rw [decodeFields_transmit hop, exists_ok_ite_error, exists_decodeTransmit, transmit_hits_iff w0 hop]
    simp [hop, and_assoc]
  · rw [decodeFields_txstatus hop, exists_ok_ite_error, exists_ok, bare_hits_iff .txstatus 5 (by decide) w0 hop rfl]
    simp [hop, Instr.LegalWhen]
  · rw [decodeFields_tryrecv hop, exists_ok_ite_error, exists_ok, bare_hits_iff .tryrecv 6 (by decide) w0 hop rfl]
    simp [hop, Instr.LegalWhen]
  · rw [decodeFields_illegalOpcode hop]
    simp [hop]

end Sys2Proof

namespace Sys2Proof.Machine

variable {s : State} {i : Instr} {w0 : Word} {ws ops p rest : List Word}

/-! ### The step on a whole packet -/

/-- What is taken from the port is a packet. -/
theorem takePacket_some (h : takePacket ws = some (w0 :: ops, rest)) : (w0 :: ops).length = packetLength w0 := by
  cases ws with
  | nil => cases h
  | cons v vs =>
    unfold takePacket at h
    dsimp only at h
    split at h
    · next hle =>
      simp only [Option.some.injEq, Prod.mk.injEq] at h
      obtain ⟨hp, -⟩ := h
      obtain ⟨n, hn⟩ := Nat.exists_eq_add_of_le' (packetLength_pos v)
      have hv : v = w0 := by rw [hn] at hp; simpa using (List.cons.inj hp).1
      rw [← hp, List.length_take, Nat.min_eq_left hle, hv]
    · cases h

theorem step_decode_ok (hi : s.seq = .idle) (hp : takePacket s.cmdPort = some (p, rest)) (hd : decode p = .ok i) :
    step s = exec i { s with cmdPort := rest } := by
  simp only [step, hi, hp, hd]

theorem step_decode_error {e : Reject} (hi : s.seq = .idle) (hp : takePacket s.cmdPort = some (p, rest))
    (hd : decode p = .error e) : step s = .next (s.rejectPacket rest) := by
  simp only [step, hi, hp, hd]

/-- A sequence starts only as the handle admits. -/
theorem Seq.Starts.legalWhen {c : Bool} {q : Seq} (h : q.Starts c i) : i.LegalWhen c := by
  cases h with
  | btcalc => trivial
  | construct _ _ _ hc => exact hc
  | addfilter _ _ _ _ _ _ hc => exact hc
  | transmit _ _ _ _ _ hc => exact hc
  | txstatus hc => exact hc
  | tryrecv hc => exact hc

theorem exec_illegal (hi : s.seq = .idle) (h : ¬ i.LegalWhen s.handle.constructed) :
    exec i s = .next (s.raise .illegalCommand) :=
  (exec_cases i hi).resolve_right fun ⟨_, hq, _⟩ => h hq.legalWhen

/-- ILLEGAL_COMMAND changes nothing but the ports while SEQ is IDLE. -/
theorem State.rejectPacket_of_idle (hi : s.seq = .idle) :
    s.rejectPacket rest = { s with cmdPort := rest, respPort := [0x00000003] } := by
  simp only [State.rejectPacket, State.raise, State.respond, Status.code, ← hi]

/-- Settles O5: an illegal packet either does not decode or its command asks another handle; a legal one decodes. -/
theorem illegalCommandsChangeNothing : Obligations.IllegalCommandsChangeNothing := by
  intro s w0 ops rest hi hp
  have hd := decode_of_length (takePacket_some hp)
  constructor
  · intro hill
    rw [← State.rejectPacket_of_idle hi]
    cases h : decode (w0 :: ops) with
    | error e => exact step_decode_error hi hp h
    | ok i =>
      have hn : ¬ i.LegalWhen s.handle.constructed := fun hl =>
        not_illegalCommand_iff.2 ⟨i, hd.symm.trans h, hl⟩ hill
      rw [step_decode_ok hi hp h]
      exact exec_illegal hi hn
  · intro hleg
    obtain ⟨i, hf, -⟩ := not_illegalCommand_iff.1 hleg
    have h := hd.trans hf
    exact ⟨i, h, (decodeOnlyEncodings _ i h).1, step_decode_ok hi hp h⟩

end Sys2Proof.Machine
end

section
/-!
PROOF. The images of 30_encoding (R126 to R130): the timing image, a bank-bit write, the raw frame, and the payload of
TRYRECV's response.
-/
namespace Sys2Proof.Machine

/-! ### The timing image (R128) -/

theorem toNat_ofNat_pred {k n : Nat} (h : 1 ≤ n) (hk : n - 1 < 2 ^ k) : (BitVec.ofNat k (n - 1)).toNat + 1 = n := by
  rw [BitVec.toNat_ofNat, Nat.mod_eq_of_lt hk, Nat.sub_add_cancel h]

/-- Settles O10: EncodeTiming as a number, and as the image of the fields that hold each length less one. -/
theorem timingImageHoldsParameters : Obligations.TimingImageHoldsParameters := by
  intro r lbkm silm hp hp' h1 h1' h2 h2' hj hj'
  have bp : r.presc - 1 < 1024 := by omega
  have b1 : r.seg1 - 1 < 16 := by omega
  have b2 : r.seg2 - 1 < 8 := by omega
  have bj : r.sjw - 1 < 4 := by omega
  have hfields := encodeTiming_fields lbkm silm bp b1 b2 bj
  dsimp only
  refine ⟨encodeTiming_toNat lbkm silm bp b1 b2 bj, ?_⟩
  rw [hfields, timing_image]
  exact ⟨toNat_ofNat_pred hp bp, toNat_ofNat_pred h1 b1, toNat_ofNat_pred h2 b2, toNat_ofNat_pred hj bj, rfl, rfl, rfl⟩

/-! ### A bank-bit write (R130) -/

/-- Writing back the bits read, with one replaced, changes one bank: `get` reads a bank's bit and `put` stores it. -/
theorem RegBlock.writeBanks_withBit {b : RegBlock} (hf : b.finit = true) (get : Bank → Bool) (put : Bank → Bool → Bank)
    (hput : ∀ x, put x (get x) = x) (w : Word) (k : BankId) (v : Bool) :
    b.writeBanks (fun j x => put x (((b.bankBits get w).withBit k v).bits.get j))
      = .ok (b.mapBanks fun j x => if j = k then put x v else x) := by
  rw [RegBlock.writeBanks_ok hf]
  refine congrArg _ (RegBlock.mapBanks_congr fun j => ?_)
  rw [BankBits.get_withBit, RegBlock.get_bankBits]
  split
  · rfl
  · exact hput _

/-- Settles O22: the four registers differ only in the bit of a bank they hold. -/
theorem bankBitWriteChangesOneBank : Obligations.BankBitWriteChangesOneBank := fun _ w k v hf =>
  ⟨RegBlock.writeBanks_withBit hf Bank.fsc (fun x z => { x with fsc := z }) (fun _ => rfl) w k v,
    RegBlock.writeBanks_withBit hf Bank.fbm (fun x z => { x with fbm := z }) (fun _ => rfl) w k v,
    RegBlock.writeBanks_withBit hf Bank.ffa (fun x z => { x with ffa := z }) (fun _ => rfl) w k v,
    RegBlock.writeBanks_withBit hf Bank.fact (fun x z => { x with fact := z }) (fun _ => rfl) w k v⟩

/-! ### The raw frame (R126, R127) -/

variable {x : Slot} {frame : Frame}

theorem Slot.wellFormed_iff : x.wellFormed = true ↔
    x.idw.getLsbD 2 = false ∧ x.idw.getLsbD 1 = false ∧ x.dlc ≤ Config.dlcMax := by
  simp only [Slot.wellFormed, Bool.and_eq_true, Bool.not_eq_true', decide_eq_true_eq, and_assoc]

theorem decodeRaw_of_wellFormed (h : x.wellFormed = true) : decodeRaw x =
    some ⟨x.idw.extractLsb' 21 11, x.dlc, (List.range x.dlc).map (payloadByte x.dlw x.dhw)⟩ := if_pos h

theorem decodeRaw_of_not_wellFormed (h : ¬ x.wellFormed = true) : decodeRaw x = none := if_neg h

theorem decodeRaw_some (h : decodeRaw x = some frame) : x.dlc ≤ Config.dlcMax
    ∧ frame = ⟨x.idw.extractLsb' 21 11, x.dlc, (List.range x.dlc).map (payloadByte x.dlw x.dhw)⟩ := by
  by_cases hw : x.wellFormed = true
  · rw [decodeRaw_of_wellFormed hw] at h
    exact ⟨(Slot.wellFormed_iff.1 hw).2.2, (Option.some.inj h).symm⟩
  · rw [decodeRaw_of_not_wellFormed hw] at h; cases h

theorem encodeRaw_idw_low (x : Frame) {i : Nat} (hi : i < 21) : (encodeRaw x).idw.getLsbD i = false := by
  simp [encodeRaw, hi]

theorem encodeRaw_id (x : Frame) : (encodeRaw x).idw.extractLsb' 21 11 = x.id := by
  apply BitVec.eq_of_getLsbD_eq
  intro i hi
  simp [encodeRaw, hi, show 21 + i < 32 by omega]

theorem encodeRaw_dlc {x : Frame} (h : x.dlc ≤ Config.dlcMax) : (encodeRaw x).dlc = x.dlc := by
  have h8 : x.dlc ≤ 8 := h
  simp only [Slot.dlc, encodeRaw, BitVec.extractLsb'_toNat, BitVec.toNat_ofNat, Nat.shiftRight_zero]
  omega

theorem encodeRaw_payloadByte (x : Frame) {i : Nat} (hi : i < 8) :
    payloadByte (encodeRaw x).dlw (encodeRaw x).dhw i = x.byte i :=
  payloadByte_wordOfBytes (fun j => x.byte j) i hi

/-- Settles O37: the raw image keeps the identifier, the length, and each byte below it. -/
theorem rawFrameRoundTrip : Obligations.RawFrameRoundTrip := by
  intro x hd hl
  have hdlc := encodeRaw_dlc (x := x) hd
  have hw : (encodeRaw x).wellFormed = true := Slot.wellFormed_iff.2
    ⟨encodeRaw_idw_low x (by decide), encodeRaw_idw_low x (by decide), hdlc.trans_le hd⟩
  have hdata : (List.range x.dlc).map (payloadByte (encodeRaw x).dlw (encodeRaw x).dhw) = x.data := by
    refine List.ext_getElem (by simp [hl]) fun i hi hi' => ?_
    have hid : i < x.dlc := hl ▸ hi'
    rw [List.getElem_map, List.getElem_range, encodeRaw_payloadByte x (Nat.lt_of_lt_of_le hid hd), Frame.byte, if_pos hid,
      List.getD_eq_getElem _ _ hi']
  rw [decodeRaw_of_wellFormed hw, encodeRaw_id, hdlc, hdata]

/-- Settles O38: the named bits fix whether a slot is well-formed, and the frame. -/
theorem decodeRawIgnoresOtherBits : Obligations.DecodeRawIgnoresOtherBits := by
  intro x y hid hide hrtr hdtw hdata
  have hdlc : x.dlc = y.dlc := congrArg BitVec.toNat hdtw
  have hw : x.wellFormed = y.wellFormed := by rw [Slot.wellFormed, hide, hrtr, hdlc]; rfl
  have hbytes : (List.range x.dlc).map (payloadByte x.dlw x.dhw) = (List.range x.dlc).map (payloadByte y.dlw y.dhw) :=
    List.map_congr_left fun i hi => hdata i (List.mem_range.1 hi)
  rw [decodeRaw, hw, hid, hbytes, hdlc]
  rfl

/-! ### TRYRECV's response (R110, 44_receive R216 step 9) -/

/-- The mask of R216 step 9 has the bits of the first `d` bytes. -/
theorem getLsbD_payloadMask {d : Nat} (hd : d ≤ 8) (j : Nat) :
    ((1#64 <<< (8 * d)) - 1).getLsbD j = decide (j < 8 * d) := by
  have h : ((1#64 <<< (8 * d)) - 1).toNat = 2 ^ (8 * d) - 1 := by interval_cases d <;> rfl
  rw [BitVec.getLsbD, h, Nat.testBit_two_pow_sub_one]

/-- The payload of the response is the slot's, with the bytes at and beyond the length 0. -/
theorem payloadByte_maskedPayload (l h : Word) {d : Nat} (hd : d ≤ 8) (i : Nat) :
    payloadByte ((maskedPayload l h d).extractLsb' 0 32) ((maskedPayload l h d).extractLsb' 32 32) i
      = if i < d then payloadByte l h i else 0 := by
  have hp : (maskedPayload l h d).extractLsb' 32 32 ++ (maskedPayload l h d).extractLsb' 0 32 = maskedPayload l h d := by
    rw [BitVec.extractLsb'_append_extractLsb'_eq_extractLsb' (by rfl), BitVec.extractLsb'_eq_self]
  apply BitVec.eq_of_getLsbD_eq
  intro j hj
  rw [getLsbD_payloadByte _ _ _ _ hj, hp, maskedPayload, BitVec.getLsbD_and, getLsbD_payloadMask hd,
    ← getLsbD_payloadByte _ _ _ _ hj]
  split
  · simp [show 8 * i + j < 8 * d by omega]
  · simp [show ¬ 8 * i + j < 8 * d by omega]

/-- Word 0 of the response (R110) as a number. -/
theorem tryrecv_header_toNat (id : BitVec 11) {d : Nat} (hd : d < 16) :
    (Status.ok.code ||| (id.setWidth 32 <<< 16) ||| (BitVec.ofNat 32 d <<< 8)).toNat
      = d * 2 ^ 8 + id.toNat * 2 ^ 16 := by
  have hid := id.isLt
  have hId : (id.setWidth 32 <<< 16).toNat = id.toNat <<< 16 := by
    rw [BitVec.toNat_shiftLeft, BitVec.toNat_setWidth, Nat.shiftLeft_eq, Nat.shiftLeft_eq]; omega
  have hDlc : (BitVec.ofNat 32 d <<< 8).toNat = d * 2 ^ 8 := by
    rw [BitVec.toNat_shiftLeft, BitVec.toNat_ofNat, Nat.shiftLeft_eq]; omega
  rw [BitVec.toNat_or, BitVec.toNat_or, hId, hDlc, Nat.or_comm, ← or_shiftLeft_eq_add _ _ 16 (by omega)]
  exact congrArg _ (Nat.zero_or _)

/-- The fields of word 0 of the response (R110). -/
theorem tryrecv_header_fields (id : BitVec 11) {d : Nat} (hd : d < 16) :
    let w0 := Status.ok.code ||| (id.setWidth 32 <<< 16) ||| (BitVec.ofNat 32 d <<< 8)
    fieldOf w0 3 0 = 0 ∧ fieldOf w0 11 8 = d ∧ fieldOf w0 26 16 = id.toNat := by
  have hid := id.isLt
  simp only [fieldOf, tryrecv_header_toNat id hd]
  omega

/-- Settles O39: the header's fields, and the payload byte by byte. -/
theorem responsePayloadSliced : Obligations.ResponsePayloadSliced := by
  intro slot frame h
  obtain ⟨hd, rfl⟩ := decodeRaw_some h
  obtain ⟨hstatus, hdlc, hid⟩ := tryrecv_header_fields (slot.idw.extractLsb' 21 11) (Nat.lt_of_le_of_lt hd (by decide))
  refine ⟨_, _, _, rfl, hstatus, hdlc, hid, fun i _ => (payloadByte_maskedPayload _ _ hd i).trans ?_⟩
  split
  · next hlt => simp [hlt]
  · rfl

end Sys2Proof.Machine
end

section
/-!
PROOF. Every command packet ends in one response (30_encoding R109, 45_facade R242) with an engine that acknowledges
(41_mode_control R167), but for a TRYRECV that refuses its slot.
-/
namespace Sys2Proof.Machine

variable {s t : State} {rest : List Word}

/-! ### Which command is in execution -/

/-- TRYRECV is in execution. -/
def Seq.receiving : Seq → Bool
  | .tryrecv _ => true
  | _ => false

/-- CONSTRUCT goes on or ends. -/
theorem constructMicro_advances {o : ConstructOps} {p : ConstructPos} (h : constructMicro o p s = .next t) :
    t.seq = .idle ∨ ∃ p, t.seq = .construct o p := by
  have write {r : Reg} {v : r.Val} {p : ConstructPos} (h : s.regWrite r v (.construct o p) = .next t) :
      t.seq = .idle ∨ ∃ p, t.seq = .construct o p := (State.regWrite_advances h).1
  cases p <;> simp only [constructMicro] at h
  case s1 =>
    split at h <;> cases h
    · exact .inl rfl
    · exact .inr ⟨_, rfl⟩
  case s2 | s3 | e1 | e3 | e4 | l1 | l3 | l4 | s7 => cases h; exact .inr ⟨_, rfl⟩
  case e2 | s5 | l2 => exact write h
  case s8 => cases h; exact .inl rfl

theorem receiving_of_advances {α : Type} {cmd : α → Seq} (hcmd : ∀ p, (cmd p).receiving = false)
    (h : t.seq = .idle ∨ ∃ p, t.seq = cmd p) : t.seq.receiving = false := by
  rcases h with h | ⟨p, h⟩ <;> rw [h]
  · rfl
  · exact hcmd p

/-- No command turns to TRYRECV. -/
theorem micro_notReceiving (hr : s.seq.receiving = false) (h : micro s = .next t) : t.seq.receiving = false := by
  unfold micro at h
  cases hq : s.seq <;> rw [hq] at h
  case idle => cases h; exact hr
  case tryrecv => rw [hq] at hr; cases hr
  case btcalc clk bitrate p => cases h; exact receiving_of_advances (fun _ => rfl) (btcalcMicro_advances clk bitrate p s).1
  case construct => exact receiving_of_advances (fun _ => rfl) (constructMicro_advances h)
  case addfilter => exact receiving_of_advances (fun _ => rfl) (addfilterMicro_advances h).1
  case transmit => exact receiving_of_advances (fun _ => rfl) (transmitMicro_advances h).1
  case txstatus => exact receiving_of_advances (fun _ => rfl) (txstatusMicro_advances h).1

/-! ### A command under way -/

/-- A command whose packet `rest` follows is on its way to a response, with an engine that acknowledges. -/
structure State.Underway (rest : List Word) (s : State) : Prop where
  noReset : s.NoReset
  fair : s.env.fair = true
  cmdPort : s.cmdPort = rest
  onCourse : s.OnCourse

theorem State.Underway.gap (h : s.Underway rest) : s.gap.Underway rest :=
  ⟨State.gap_noReset h.noReset, by simp [h.fair], by simp [h.cmdPort], State.gap_onCourse h.noReset h.onCourse⟩

/-- A micro-step of a command under way comes nearer the response, or refuses TRYRECV's slot. -/
theorem State.Underway.micro (h : s.Underway rest) (hi : s.seq ≠ .idle) :
    (∃ t, micro s = .next t ∧ t.Underway rest ∧ t.env = s.env
        ∧ (s.regs.inak = s.regs.inrq → t.seq ≠ .idle → t.seq.rank < s.seq.rank))
      ∨ (s.seq.receiving = true ∧ micro s = .refused .receiveSlotOutsideFrameType) := by
  rcases micro_progress hi h.onCourse with ⟨t, hm, hc, he, hp, hrank⟩ | ⟨⟨p, hq⟩, hm⟩
  · exact .inl ⟨t, hm, ⟨h.noReset.of_same he, by rw [he]; exact h.fair, hp.trans h.cmdPort, hc⟩, he, hrank⟩
  · exact .inr ⟨by rw [hq]; rfl, hm⟩

/-- A command under way comes to its response, or refuses TRYRECV's slot. -/
theorem State.Underway.ends (h : s.Underway rest) :
    (∃ t, drive Machine.micro s.budget s = .next t ∧ t.Underway rest ∧ t.seq = .idle)
      ∨ drive Machine.micro s.budget s = .refused .receiveSlotOutsideFrameType := by
  refine drive_ends (State.Underway rest) Seq.rank 30 _ Seq.rank_le (fun s h hi => ?_) h
    (by simp [State.budget, microBudget])
  have hq := State.gap_seq h.noReset
  refine (h.gap.micro (hq ▸ hi)).imp (fun ⟨t, hm, ht, he, hrank⟩ => ⟨t, hm, ht, by rw [he]; simp, fun hg hi' => ?_⟩)
    (fun hm => hm.2)
  rw [← hq]
  exact hrank (by rw [State.gap_acknowledges h.fair hg]; simp) hi'

/-- Any command but TRYRECV comes to its response. -/
theorem State.Underway.completes (h : s.Underway rest) (hr : s.seq.receiving = false) :
    ∃ t, drive Machine.micro s.budget s = .next t ∧ t.Underway rest ∧ t.seq = .idle := by
  obtain ⟨t, hd, ⟨ht, -⟩, hi⟩ := run_completes (fun s => s.Underway rest ∧ s.seq.receiving = false)
    (fun _ h => h.1.noReset) (fun _ h => h.1.fair)
    (fun s h => ⟨h.1.gap, by rw [State.gap_seq h.1.noReset]; exact h.2⟩)
    (fun s ⟨h, hr⟩ hi => by
      rcases h.micro hi with ⟨t, hm, ht, hrest⟩ | ⟨hr', -⟩
      · exact ⟨t, hm, ⟨ht, micro_notReceiving hr hm⟩, hrest⟩
      · rw [hr] at hr'; cases hr')
    ⟨h, hr⟩
  exact ⟨t, hd, ht, hi⟩

/-- At IDLE a command that was under way has responded. -/
theorem State.Underway.responded (h : s.Underway rest) (hi : s.seq = .idle) :
    s.seq = .idle ∧ s.respPort ≠ [] ∧ s.respPort.length ≤ 3 ∧ s.cmdPort = rest := by
  have hc := h.onCourse
  simp only [State.OnCourse, hi] at hc
  exact ⟨hi, hc.1, hc.2, h.cmdPort⟩

/-! ### From the packet to the response -/

theorem Seq.Starts.receiving {c : Bool} {q : Seq} {i : Instr} (h : q.Starts c i) :
    q.receiving = true ↔ i = .tryrecv := by
  cases h <;> simp [Seq.receiving]

/-- Before its first micro-step a command is on course whatever the state. -/
theorem Seq.Starts.underway {c : Bool} {q : Seq} {i : Instr} (h : q.Starts c i) (hn : s.NoReset)
    (hf : s.env.fair = true) : (s.begin q).Underway s.cmdPort :=
  ⟨hn, hf, rfl, by cases h <;> trivial⟩

theorem State.raise_responded (hp : s.cmdPort = rest) (st : Status) :
    (s.raise st).seq = .idle ∧ (s.raise st).respPort ≠ [] ∧ (s.raise st).respPort.length ≤ 3
      ∧ (s.raise st).cmdPort = rest :=
  ⟨rfl, List.cons_ne_nil _ _, Nat.le_add_left 1 2, hp⟩

/-- Settles O52: a packet that does not decode and a command the handle rejects answer at once; any other command runs from
its first micro-step. -/
theorem everyCommandResponds : Obligations.EveryCommandResponds := by
  intro s p rest hi hn hf hp
  cases hd : decode p with
  | error e => exact .inl ⟨_, step_decode_error hi hp hd, State.raise_responded rfl _⟩
  | ok i =>
    rw [step_decode_ok hi hp hd]
    rcases exec_cases (s := { s with cmdPort := rest }) i hi with he | ⟨q, hq, he⟩ <;> rw [he]
    · exact .inl ⟨_, rfl, State.raise_responded rfl _⟩
    · have hu := hq.underway (s := { s with cmdPort := rest }) hn hf
      cases hr : q.receiving with
      | true =>
        refine hu.ends.imp (fun ⟨t, ht, htu, hti⟩ => ⟨t, ht, htu.responded hti⟩) fun hrefused => ⟨?_, hrefused⟩
        rw [hq.receiving.1 hr]
      | false =>
        obtain ⟨t, ht, htu, hti⟩ := hu.completes hr
        exact .inl ⟨t, ht, htu.responded hti⟩

end Sys2Proof.Machine
end

section
/-!
PROOF. The Bit-Timing Calculator (40_bit_timing R140 to R145): what BTC returns is a candidate, the least one, and there is
one whenever BTC can find any; and BTCALC answers with it.
-/
namespace Sys2Proof.Machine

/-! ### Candidates as what the loops of R144 visit -/

section
variable {clk bitrate presc seg1 seg2 : Nat}

/-- The number of quanta fixes the prescaler (R143), and both loops visit the candidate. -/
theorem IsCandidate.visited (h : IsCandidate clk bitrate presc seg1 seg2) (h0 : bitrate ≠ 0) :
    clk % bitrate = 0 ∧ Config.nMin ≤ 1 + seg1 + seg2 ∧ 1 + seg1 + seg2 < Config.nMax + 1
      ∧ Admitted (clk / bitrate) (1 + seg1 + seg2) ∧ splitInBand (1 + seg1 + seg2) seg1 = true := by
  obtain ⟨hexact, hp, ⟨hx, hx'⟩, ⟨hy, hy'⟩, hlow, hhigh⟩ := h
  have hratio : clk / bitrate = presc * (1 + seg1 + seg2) := by
    rw [hexact, Nat.mul_assoc, Nat.mul_div_cancel_left _ (Nat.pos_of_ne_zero h0)]
  have hpresc : clk / bitrate / (1 + seg1 + seg2) = presc := by
    rw [hratio, Nat.mul_div_cancel _ (by omega)]
  simp only [Config.seg1Min, Config.seg1Max, Config.seg2Min, Config.seg2Max, Config.spMin, Config.spMax] at *
  refine ⟨?_, ?_, ?_, ⟨by rw [hratio, Nat.mul_mod_left], by rwa [hpresc]⟩, splitInBand_iff.2 ⟨?_, ?_, ?_, ?_⟩⟩
  · rw [hexact, Nat.mul_assoc, Nat.mul_mod_right]
  · simp only [Config.nMin, Config.seg1Min, Config.seg2Min]; omega
  · simp only [Config.nMax, Config.seg1Max, Config.seg2Max]; omega
  all_goals omega

/-- An admitted number of quanta with a split in the band is a candidate. -/
theorem isCandidate_of_admitted {n : Nat} (hdvd : clk % bitrate = 0) (ha : Admitted (clk / bitrate) n)
    (hb : splitInBand n seg1 = true) (h1 : Config.seg1Min ≤ seg1) (h1' : seg1 ≤ Config.seg1Max) :
    IsCandidate clk bitrate (clk / bitrate / n) seg1 (n - 1 - seg1) := by
  obtain ⟨hmod, hp⟩ := ha
  obtain ⟨hn, h2, hlow, hhigh⟩ := splitInBand_iff.1 hb
  have hquanta : 1 + seg1 + (n - 1 - seg1) = n := by omega
  refine ⟨?_, hp, ⟨h1, h1'⟩, ⟨?_, h2⟩, ?_, ?_⟩
  · rw [hquanta, Nat.mul_assoc, Nat.div_mul_cancel (Nat.dvd_of_mod_eq_zero hmod),
      Nat.mul_div_cancel' (Nat.dvd_of_mod_eq_zero hdvd)]
  · simp only [Config.seg2Min]; omega
  · rw [hquanta]; exact hlow
  · rw [hquanta]; exact hhigh

end

/-! ### The inner loop's answer -/

theorem bestSplit_some {n : Nat} {c : Split} (h : bestSplit n = some c) :
    Config.seg1Min ≤ c.seg1 ∧ c.seg1 ≤ Config.seg1Max ∧ splitInBand n c.seg1 = true ∧ c.d = targetDistance n c.seg1
      ∧ c.seg2 = n - 1 - c.seg1 ∧ 1 + c.seg1 + c.seg2 = n := by
  obtain ⟨h1, h1', hb, hd, h2, -⟩ : SplitFound n _ (some c) := h ▸ bestSplit_found n
  obtain ⟨hn, -⟩ := splitInBand_iff.1 hb
  exact ⟨h1, Nat.le_of_lt_succ h1', hb, hd, h2, by omega⟩

/-- A split in the band is found, or one that comes before it. -/
theorem bestSplit_of_splitInBand {n x : Nat} (h1 : Config.seg1Min ≤ x) (h1' : x ≤ Config.seg1Max)
    (hb : splitInBand n x = true) :
    ∃ c, bestSplit n = some c ∧ (c.d < targetDistance n x ∨ (c.d = targetDistance n x ∧ c.seg1 ≤ x)) := by
  have hx := Nat.lt_succ_of_le h1'
  cases hs : bestSplit n with
  | none =>
    have hnone : SplitFound n _ none := hs ▸ bestSplit_found n
    rw [hnone x h1 hx] at hb
    cases hb
  | some c =>
    obtain ⟨-, -, -, -, -, hleast⟩ : SplitFound n _ (some c) := hs ▸ bestSplit_found n
    exact ⟨c, rfl, hleast x h1 hx hb⟩

/-! ### The outer loop's answer -/

section
variable {clk bitrate presc seg1 seg2 : Nat} {b : Solution}

theorem bestSolution_isCandidate (hdvd : clk % bitrate = 0) (h : bestSolution (clk / bitrate) = some b) :
    IsCandidate clk bitrate b.presc b.seg1 b.seg2 := by
  obtain ⟨-, -, ha, hpresc, hsplit, -⟩ : SolutionFound (clk / bitrate) _ (some b) := h ▸ bestSolution_found _
  obtain ⟨h1, h1', hb, -, h2, -⟩ := bestSplit_some hsplit
  dsimp only at h1 h1' hb h2
  rw [hpresc, h2]
  exact isCandidate_of_admitted hdvd ha hb h1 h1'

theorem bestSolution_ne_none (hc : IsCandidate clk bitrate presc seg1 seg2) (h0 : bitrate ≠ 0) :
    bestSolution (clk / bitrate) ≠ none := by
  intro h
  obtain ⟨-, hn, hn', ha, hb⟩ := hc.visited h0
  obtain ⟨c, hsplit, -⟩ := bestSplit_of_splitInBand hc.seg1Range.1 hc.seg1Range.2 hb
  have hnone : SolutionFound (clk / bitrate) _ none := h ▸ bestSolution_found _
  rw [hnone _ hn hn' ha] at hsplit
  cases hsplit

/-- The solution found is least in the order of R142: across numbers of quanta by the outer loop, and against the other
splits of the candidate's own number by the inner one. -/
theorem bestSolution_noWorse (hc : IsCandidate clk bitrate presc seg1 seg2) (h0 : bitrate ≠ 0)
    (h : bestSolution (clk / bitrate) = some b) : SplitNoWorse b.seg1 b.seg2 seg1 seg2 := by
  obtain ⟨-, hn, hn', ha, hb⟩ := hc.visited h0
  obtain ⟨c, hsplit, hinner⟩ := bestSplit_of_splitInBand hc.seg1Range.1 hc.seg1Range.2 hb
  obtain ⟨-, -, -, -, hbest, hleast⟩ : SolutionFound (clk / bitrate) _ (some b) := h ▸ bestSolution_found _
  have houter := hleast _ c hn hn' ha hsplit
  obtain ⟨-, -, -, hd, -, hquanta⟩ := bestSplit_some hbest
  dsimp only at hd hquanta
  have hpos : 0 < b.n := by omega
  simp only [SplitNoWorse]
  rw [hquanta, ← hd]
  generalize 1 + seg1 + seg2 = n at *
  rcases hinner with hlt | ⟨heq, hseg⟩
  · have hstrict : c.d * b.n < targetDistance n seg1 * b.n := Nat.mul_lt_mul_of_pos_right hlt hpos
    exact .inl (by omega)
  · rw [← heq]
    refine houter.imp_right fun ⟨hdist, hle⟩ => ⟨hdist, (Nat.lt_or_eq_of_le hle).imp_right fun hsame => ⟨hsame, ?_⟩⟩
    -- the same number of quanta: the outer loop's split is the inner loop's
    rw [← hsame, hbest] at hsplit
    cases hsplit
    exact hseg

end

/-! ### BTC -/

section
variable {clk bitrate : Word}

theorem btc_zero (h : bitrate.toNat = 0) : btc clk bitrate = none := if_pos h

/-- What a result of BTC is (R143, R144). -/
theorem btc_eq_some {r : BitTiming} : btc clk bitrate = some r ↔ bitrate.toNat ≠ 0
    ∧ clk.toNat % bitrate.toNat = 0 ∧ ∃ b, bestSolution (clk.toNat / bitrate.toNat) = some b ∧ b.timing = r := by
  unfold btc
  by_cases h0 : bitrate.toNat = 0
  · simp [h0]
  · by_cases hdvd : clk.toNat % bitrate.toNat = 0 <;> simp [h0, hdvd]

/-- BTC does not fail where there is a candidate (R145). -/
theorem btc_ne_none {presc seg1 seg2 : Nat} (h0 : bitrate.toNat ≠ 0)
    (hc : IsCandidate clk.toNat bitrate.toNat presc seg1 seg2) : btc clk bitrate ≠ none := by
  obtain ⟨b, hb⟩ := Option.ne_none_iff_exists'.1 (bestSolution_ne_none hc h0)
  rw [btc_eq_some.2 ⟨h0, (hc.visited h0).1, b, hb, rfl⟩]
  exact Option.some_ne_none _

theorem btc_isCandidate {r : BitTiming} (h : btc clk bitrate = some r) :
    IsCandidate clk.toNat bitrate.toNat r.presc r.seg1 r.seg2 := by
  obtain ⟨-, hdvd, b, hb, rfl⟩ := btc_eq_some.1 h
  exact bestSolution_isCandidate hdvd hb

theorem btc_sjw {r : BitTiming} (h : btc clk bitrate = some r) : r.sjw = min r.seg2 Config.sjwCap := by
  obtain ⟨-, -, b, -, rfl⟩ := btc_eq_some.1 h
  rfl

end

/-- Settles O8: the loops visit every candidate and answer with none but candidates. -/
theorem btcMeetsContract : Obligations.BtcMeetsContract := fun _ _ =>
  ⟨fun _ h => ⟨btc_isCandidate h, btc_sjw h⟩, btc_zero, fun h0 =>
    ⟨fun hnone ⟨_, _, _, hc⟩ => btc_ne_none h0 hc hnone,
     fun hno => Option.eq_none_iff_forall_ne_some.2 fun r h => hno ⟨r.presc, r.seg1, r.seg2, btc_isCandidate h⟩⟩⟩

/-- Settles O9: what BTC returns is the outer loop's solution, which is least. -/
theorem btcChoosesLeastCandidate : Obligations.BtcChoosesLeastCandidate := by
  intro clk bitrate r h presc seg1 seg2 hc
  obtain ⟨h0, -, b, hb, rfl⟩ := btc_eq_some.1 h
  exact bestSolution_noWorse hc h0 hb

/-! ### BTCALC -/

/-- The response of BTCALC step 2 (R140). -/
def btcalcAnswer : Option BitTiming → List Word
  | none => [Status.invalidTimings.code]
  | some r => btcalcResponse r

theorem btcalcMicro_s2 (clk bitrate : Word) (o : Option BitTiming) (s : State) :
    btcalcMicro clk bitrate (.s2 o) s = s.respond (btcalcAnswer o) := by
  cases o <;> rfl

/-- After BTCALC step 1: the engine has moved in the first gap, and SEQ holds the result of BTC. -/
def State.afterBtc (clk bitrate : Word) (s : State) : State :=
  (s.begin (.btcalc clk bitrate .s1)).gap.goto (.btcalc clk bitrate (.s2 (btc clk bitrate)))

/-- At BTCALC's response: the engine has moved in the second gap too. -/
def State.afterBtcalc (clk bitrate : Word) (s : State) : State :=
  (s.afterBtc clk bitrate).gap.respond (btcalcAnswer (btc clk bitrate))

theorem State.afterBtc_onlyEngine (clk bitrate : Word) {s : State} (hn : s.NoReset) :
    s.OnlyEngine (s.afterBtc clk bitrate) :=
  (State.OnlyEngine.start hn (.btcalc clk bitrate .s1)).gap.of_same rfl rfl rfl rfl

theorem State.afterBtcalc_onlyEngine (clk bitrate : Word) {s : State} (hn : s.NoReset) :
    s.OnlyEngine (s.afterBtcalc clk bitrate) :=
  (s.afterBtc_onlyEngine clk bitrate hn).gap.of_same rfl rfl rfl rfl

theorem micro_btcalc {clk bitrate : Word} {p : BtcalcPos} {s : State} (hq : s.seq = .btcalc clk bitrate p) :
    micro s = .next (btcalcMicro clk bitrate p s) := by
  simp only [micro, hq]

/-- BTCALC is two micro-steps in every state with SEQ idle and no block reset coming. -/
theorem exec_btcalc (clk bitrate : Word) {s : State} (hi : s.seq = .idle) (hn : s.NoReset) :
    exec (.btcalc clk bitrate) s = .next (s.afterBtcalc clk bitrate) := by
  have step1 : micro (s.begin (.btcalc clk bitrate .s1)).gap = .next (s.afterBtc clk bitrate) :=
    micro_btcalc (State.gap_seq (State.OnlyEngine.start hn _).noReset)
  have step2 : micro (s.afterBtc clk bitrate).gap = .next (s.afterBtcalc clk bitrate) := by
    rw [micro_btcalc (State.gap_seq (s.afterBtc_onlyEngine clk bitrate hn).noReset), btcalcMicro_s2]
    rfl
  calc exec (.btcalc clk bitrate) s
      = drive micro s.budget (s.begin (.btcalc clk bitrate .s1)) := dispatch_legal hi
    _ = .next (s.afterBtcalc clk bitrate) :=
      drive_step (n := s.env.gaps.length + 31) (by simp) step1
        (drive_step (by simp [State.afterBtc]) step2 (drive_idle _ rfl))

@[simp] theorem State.afterBtcalc_free (clk bitrate : Word) (s : State) : (s.afterBtcalc clk bitrate).free = s.free := by
  simp [State.afterBtcalc, State.afterBtc]

/-- Settles O11: two micro-steps without a register access, whatever the engine does in their gaps. -/
theorem btcalcCompletes : Obligations.BtcalcCompletes := by
  intro clk bitrate s hi hn
  obtain ⟨-, hinputs, hregs, hhandle⟩ := State.afterBtcalc_onlyEngine clk bitrate hn
  refine ⟨_, exec_btcalc clk bitrate hi hn, rfl, ?_, hhandle, State.afterBtcalc_free clk bitrate s, hregs, hinputs⟩
  show btcalcAnswer (btc clk bitrate) = _
  cases btc clk bitrate <;> rfl

end Sys2Proof.Machine
end

section
/-!
PROOF. The Mode Controller (41_mode_control R160 to R168): the acknowledge steps, the engine's rest in Initialization, and
CONSTRUCT's polling loop when no acknowledge comes.
-/
namespace Sys2Proof.Machine

variable {s t : State}

/-! ### The acknowledge steps -/

/-- Settles O16: the two guards of `RegBlock.enabled`, as propositions. -/
theorem acknowledgeSteps : Obligations.AcknowledgeSteps := fun _ _ =>
  ⟨if_congr (by simp [RegBlock.enabled]) rfl rfl, if_congr (by simp [RegBlock.enabled]) rfl rfl⟩

theorem RegBlock.engineStep_inak {b : RegBlock} {a : Option Bool} {e : EngineEvent} (hb : b.inak = true)
    (he : e ≠ .ackNormal) : b.engineStep a e = b :=
  if_neg fun henabled => (RegBlock.enabled_inak henabled).elim (by simp [hb]) he

/-- Settles O17: INAK = 1 falsifies every guard but AckNormal's, and INRQ = 1 that one too. -/
theorem engineInactiveInInitialization : Obligations.EngineInactiveInInitialization := fun _ _ hinak =>
  ⟨fun _ he => RegBlock.engineStep_inak hinak he, fun hinrq _ => RegBlock.engineSteps_init hinrq hinak⟩

/-! ### A silent engine -/

/-- The engine takes no step in any coming gap, not even a due acknowledge, and no block reset is coming. -/
structure Env.Silent (e : Env) : Prop where
  gaps : e.gaps = []
  resets : e.resets = []
  fair : e.fair = false

theorem Env.Silent.nextGap {e : Env} (h : e.Silent) : e.nextGap = [] := by
  simp [Env.nextGap, h.gaps, fairEvents, h.fair]

theorem Env.Silent.pass {e : Env} (h : e.Silent) : e.pass = e := by
  obtain ⟨hgaps, hresets, -⟩ := h
  cases e; simp_all [Env.pass]

theorem State.gap_silent (h : s.env.Silent) : s.gap = s := by
  rw [State.gap_of_noReset h.resets, h.nextGap, h.pass]; rfl

theorem drive_silent {n : Nat} {r : Host.Outcome State Fault Refusal} (h : s.env.Silent) (hi : s.seq ≠ .idle)
    (hm : micro s = .next t) (hd : drive micro n t = r) : drive micro (n + 1) s = r :=
  drive_step hi (by rwa [State.gap_silent h]) hd

/-! ### The polling loop of EnterInit (R161) -/

theorem micro_construct {o : ConstructOps} {p : ConstructPos} (hq : s.seq = .construct o p) :
    micro s = constructMicro o p s := by
  simp only [micro, hq]

/-- CONSTRUCT polls an acknowledge that does not come: at E3, or at E4 with a STATR read while INAK was 0. -/
structure State.Polling (s : State) : Prop where
  silent : s.env.Silent
  seq : ∃ o r, s.seq = .construct o (.e3 r) ∨ ∃ st : Statr, s.seq = .construct o (.e4 r st) ∧ st.inak = false
  respPort : s.respPort = []
  inrq : s.regs.inrq = true
  inak : s.regs.inak = false

theorem State.Polling.seq_ne_idle (h : s.Polling) : s.seq ≠ .idle := by
  obtain ⟨o, r, hq | ⟨st, hq, -⟩⟩ := h.seq <;> simp [hq]

/-- E3 reads INAK = 0 and E4 goes back to E3. -/
theorem State.Polling.micro (h : s.Polling) : ∃ t, micro s = .next t ∧ t.Polling := by
  obtain ⟨hsilent, ⟨o, r, hq | ⟨st, hq, hst⟩⟩, hresp, hinrq, hinak⟩ := h
  · exact ⟨_, micro_construct hq, hsilent, ⟨o, r, .inr ⟨_, rfl, hinak⟩⟩, hresp, hinrq, hinak⟩
  · exact ⟨_, micro_construct hq, hsilent, ⟨o, r, .inl (by simp [hst])⟩, hresp, hinrq, hinak⟩

theorem State.Polling.drive (h : s.Polling) (n : Nat) : ∃ t, drive Machine.micro n s = .next t ∧ t.Polling :=
  drive_answers State.Polling (fun s h _ => by rw [State.gap_silent h.silent]; exact h.micro) n h

theorem step_resume (hi : s.seq ≠ .idle) : step s = s.resume := by
  unfold step
  split
  · contradiction
  · rfl

theorem run_succ (n : Nat) (h : step s = .next t) :
    Host.Core.run Sys2Proof.core (n + 1) s = Host.Core.run Sys2Proof.core n t := by
  have hcore : Sys2Proof.core.step s = .next t := h
  simp only [Host.Core.run, hcore]

/-- Steps of the machine never leave the loop. -/
theorem State.Polling.run (h : s.Polling) (n : Nat) :
    ∃ u : State, Host.Core.run Sys2Proof.core n s = .next u ∧ u.Polling := by
  induction n generalizing s with
  | zero => exact ⟨s, rfl, h⟩
  | succ n ih =>
    obtain ⟨t, hdrive, ht⟩ := h.drive s.budget
    rw [run_succ n ((step_resume h.seq_ne_idle).trans hdrive)]
    exact ih ht

/-! ### From CONSTRUCT's acceptance to the loop -/

/-- CONSTRUCT at its first E3: the peripheral is reset and Initialization requested, CTLR having been read once. -/
def State.initRequested (o : ConstructOps) (r : BitTiming) (s : State) : State :=
  { s with
    seq := .construct o (.e3 r)
    regs := { RegBlock.afterReset s.free with inrq := true }
    respPort := []
    free := s.free + peripheralResetDraws + 1 }

theorem State.initRequested_polling (o : ConstructOps) (r : BitTiming) (h : s.env.Silent) :
    (s.initRequested o r).Polling :=
  ⟨h, ⟨o, r, .inl rfl⟩, rfl, rfl, rfl⟩

/-- With a silent engine the first five micro-steps are steps 1 to 3, E1 and E2. -/
theorem drive_initRequested {o : ConstructOps} {r : BitTiming} {n : Nat} (h : s.env.Silent)
    (hbtc : btc s.env.fPclk o.bitrate = some r) :
    drive micro (n + 5) (s.begin (.construct o .s1)) = drive micro n (s.initRequested o r) := by
  have step1 : micro (s.begin (.construct o .s1)) = .next ((s.begin (.construct o .s1)).goto (.construct o (.s2 r))) :=
    (micro_construct rfl).trans (by simp [constructMicro, hbtc])
  exact drive_silent h nofun step1 <| drive_silent h nofun rfl <| drive_silent h nofun rfl <|
    drive_silent h nofun rfl <| drive_silent h nofun rfl rfl

/-- Settles O14: CONSTRUCT runs into the polling loop, and no step of the machine leaves it. -/
theorem constructHangsWithoutAcknowledge : Obligations.ConstructHangsWithoutAcknowledge := by
  intro fifo mode bitrate r s hi hn hfair hgaps hc hbtc
  have hsilent : s.env.Silent := ⟨hgaps, hn, hfair⟩
  obtain ⟨t, hdrive, ht⟩ := (State.initRequested_polling ⟨fifo, mode, bitrate⟩ r hsilent).drive 27
  refine ⟨t, ?_, fun n => ?_⟩
  · calc exec (.construct fifo mode bitrate) s
        = s.dispatch micro true (.construct ⟨fifo, mode, bitrate⟩ .s1) := by
          show s.dispatch micro (!s.handle.constructed) _ = _
          rw [hc]; rfl
      _ = drive micro 32 (s.begin (.construct ⟨fifo, mode, bitrate⟩ .s1)) := by
          rw [dispatch_legal hi, State.budget, hgaps]; rfl
      _ = drive micro 27 (s.initRequested ⟨fifo, mode, bitrate⟩ r) := drive_initRequested hsilent hbtc
      _ = .next t := hdrive
  · obtain ⟨u, hrun, hu⟩ := ht.run n
    exact ⟨u, hrun, hu.respPort, hu.seq_ne_idle, hu.inrq, hu.inak⟩

end Sys2Proof.Machine
end

section
/-!
PROOF. The Filter Bank Programmer (42_filter R176 to R183). With the engine still, ADDFILTER's stages compose to one update of
the state. With the engine moving, what ADDFILTER reads and writes is nothing that the engine writes (10_state R52), so the
command runs as it does with the engine still, up to what the engine alone has changed.
-/
namespace Sys2Proof.Machine

variable {s t : State} {o : AddfilterOps}

/-- In a constructed idle state ADDFILTER is legal and runs from its first micro-step. -/
theorem exec_addfilter (o : AddfilterOps) (hi : s.seq = .idle) (hc : s.handle.constructed = true) :
    exec (.addfilter o.bank.val o.bitmode o.matchmode o.idvalue o.idmask o.fifo) s
      = drive micro s.budget (s.begin (.addfilter o .s1)) :=
  calc exec (.addfilter o.bank.val o.bitmode o.matchmode o.idvalue o.idmask o.fifo) s
      = s.dispatch micro s.handle.constructed (.addfilter o .s1) := dif_pos o.bank.isLt
    _ = drive micro s.budget (s.begin (.addfilter o .s1)) := by rw [hc, dispatch_legal hi]

theorem micro_addfilter {p : AddfilterPos} (hq : s.seq = .addfilter o p) : micro s = addfilterMicro o p s := by
  simp only [micro, hq]

/-! ### The engine still -/

/-- The filter that ADDFILTER puts into its bank (R176). -/
def AddfilterOps.filter (o : AddfilterOps) : Bank :=
  ⟨o.bitmode.toBit, o.matchmode.toBit, o.fifo.toBit, true, o.idvalue, o.idmask⟩

/-- The state after ADDFILTER with the engine still: the filter stands in its bank, the filters run, six registers have
been read. -/
def State.afterAddfilter (o : AddfilterOps) (s : State) : State :=
  { s with
    regs := { s.regs.setBank o.bank (fun _ => o.filter) with finit := false }
    respPort := okResponse
    free := s.free + 6 }

theorem State.afterAddfilter_bank (o : AddfilterOps) (s : State) (k : BankId) :
    (s.afterAddfilter o).regs.bank k = if k = o.bank then o.filter else s.regs.bank k :=
  s.regs.bank_setBank o.bank k fun _ => o.filter

/-- ADDFILTER before the micro-step `p`: the filters are suspended, the bank has been changed by `f`, `n` registers have been
read. -/
def State.programming (o : AddfilterOps) (p : AddfilterPos) (f : Bank → Bank) (n : Nat) (s : State) : State :=
  { s with
    seq := .addfilter o p
    regs := { s.regs.setBank o.bank f with finit := true }
    respPort := []
    free := s.free + n }

/-- A stage of ADDFILTER composes its change of the bank with the changes before it. -/
theorem State.programming_setBank (o : AddfilterOps) (p q : AddfilterPos) (f g : Bank → Bank) (n k : Nat) (s : State) :
    { s.programming o p f n with
      regs := (s.programming o p f n).regs.setBank o.bank g
      seq := .addfilter o q
      free := (s.programming o p f n).free + k } = s.programming o q (g ∘ f) (n + k) := by
  have h : (s.programming o p f n).regs.setBank o.bank g
      = { (s.regs.setBank o.bank f).setBank o.bank g with finit := true } := rfl
  rw [h, RegBlock.setBank_setBank]
  simp only [State.programming, Nat.add_assoc]

/-- In a quiet state the 15 micro-steps are the stages `addfilter_suspends` to `addfilter_resumes` in a row. -/
theorem drive_addfilter_quiet (o : AddfilterOps) (n : Nat) (hi : s.seq = .idle) (hq : s.Quiet) :
    drive micro (n + 15) (s.begin (.addfilter o .s1)) = .next (s.afterAddfilter o) := by
  have quiet (p f k) : (s.programming o p f k).Quiet := hq.of_same rfl rfl rfl
  have further {p q : AddfilterPos} {f g : Bank → Bank} {i : Nat} (k m : Nat) {r : Host.Outcome State Fault Refusal}
      (h : drive micro m (s.programming o q (g ∘ f) (i + k)) = r) :
      drive micro m { s.programming o p f i with
        regs := (s.programming o p f i).regs.setBank o.bank g
        seq := .addfilter o q
        free := (s.programming o p f i).free + k } = r :=
    (congrArg (drive micro m) (State.programming_setBank o p q f g i k s)).trans h
  refine addfilter_suspends (hq.of_same rfl rfl rfl) rfl ?_
  refine addfilter_scale (hq.of_same rfl rfl rfl) rfl rfl ?_
  change drive micro (n + 11) (s.programming o .s5 (fun x => { x with fsc := o.bitmode.toBit }) 2) = _
  refine addfilter_value (quiet _ _ _) rfl rfl (further 0 (n + 10) ?_)
  refine addfilter_mask (quiet _ _ _) rfl rfl (further 0 (n + 9) ?_)
  refine addfilter_match (quiet _ _ _) rfl rfl (further 1 (n + 7) ?_)
  refine addfilter_route (quiet _ _ _) rfl rfl (further 1 (n + 5) ?_)
  refine addfilter_activates (quiet _ _ _) rfl rfl (further 1 (n + 3) ?_)
  refine (addfilter_resumes (n := n) (o := o) (quiet _ _ _) rfl).trans ?_
  rw [State.afterAddfilter, ← hi]
  rfl

theorem exec_addfilter_quiet (o : AddfilterOps) (hi : s.seq = .idle) (hq : s.Quiet)
    (hc : s.handle.constructed = true) :
    exec (.addfilter o.bank.val o.bitmode o.matchmode o.idvalue o.idmask o.fifo) s = .next (s.afterAddfilter o) := by
  rw [exec_addfilter o hi hc, hq.budget]
  exact drive_addfilter_quiet o 17 hi hq

theorem BitMode.beq_b32 (x : BitMode) : (x == .b32) = x.toBit := by cases x <;> rfl
theorem MatchMode.beq_list (x : MatchMode) : (x == .list) = x.toBit := by cases x <;> rfl
theorem FifoId.beq_fifo1 (x : FifoId) : (x == .fifo1) = x.toBit := by cases x <;> rfl

/-- The filter as the statements write it, from the operands. -/
theorem AddfilterOps.filter_eq (o : AddfilterOps) :
    o.filter = ⟨o.bitmode == .b32, o.matchmode == .list, o.fifo == .fifo1, true, o.idvalue, o.idmask⟩ := by
  rw [BitMode.beq_b32, MatchMode.beq_list, FifoId.beq_fifo1, AddfilterOps.filter]

/-- Settles O19: the stages of ADDFILTER with the engine still, the filter written out. -/
theorem addfilterFrame : Obligations.AddfilterFrame := by
  intro bank bm mm idvalue idmask fifo s hi hq hc
  rw [exec_addfilter_quiet ⟨bank, bm, mm, idvalue, idmask, fifo⟩ hi hq hc, State.afterAddfilter, AddfilterOps.filter_eq]
  rfl

/-! ### A state without what the engine may change -/

/-- A mailbox with its data registers only. -/
def Mailbox.dataOnly (x : Mailbox) : Mailbox :=
  { Mailbox.powerOn with stid := x.stid, ide := x.ide, rtr := x.rtr, dlc := x.dlc, datal := x.datal, datah := x.datah }

theorem Mailbox.sameData_iff {x y : Mailbox} : x.SameData y ↔ x.dataOnly = y.dataOnly := by
  simp [Mailbox.SameData, Mailbox.dataOnly]

/-- What the engine may change (R52) at a fixed value: INAK follows INRQ, mailboxes keep their data registers only, FIFOs are
empty. -/
def RegBlock.still (b : RegBlock) : RegBlock :=
  { b with inak := b.inrq, mailboxes := b.mailboxes.map Mailbox.dataOnly, fifos := .all ⟨[], false⟩ }

/-- The state with its register block still, and no engine step listed. -/
def State.still (s : State) : State := { s with regs := s.regs.still, env := { s.env with gaps := [] } }

theorem RegBlock.still_mbx (b : RegBlock) (m : MbxId) : b.still.mbx m = (b.mbx m).dataOnly := PerMbx.get_map _ _ _

/-- Equal still mailboxes hold the same data. -/
theorem RegBlock.sameData_of_still {b c : RegBlock} (h : b.still.mailboxes = c.still.mailboxes) (m : MbxId) :
    (b.mbx m).SameData (c.mbx m) := by
  rw [Mailbox.sameData_iff, ← RegBlock.still_mbx, ← RegBlock.still_mbx, RegBlock.mbx, h, RegBlock.mbx]

/-- The engine's steps are invisible in the still register block. -/
theorem RegBlock.engineSteps_still (b : RegBlock) (a : Option Bool) (es : List EngineEvent) :
    (b.engineSteps a es).still = b.still := by
  obtain ⟨hinrq, htiming, hfinit, hbanks⟩ := b.engineSteps_frame a es
  refine RegBlock.ext_get hinrq hinrq htiming hfinit (fun m => ?_) (fun _ => rfl) fun k => RegBlock.engineSteps_bank k
  rw [RegBlock.still_mbx, RegBlock.still_mbx]
  exact Mailbox.sameData_iff.1 (b.engineSteps_sameData a es m)

theorem State.still_quiet (hn : s.NoReset) : s.still.Quiet := ⟨rfl, hn, rfl⟩

/-- A gap is invisible in the still state. -/
theorem State.gap_still (hn : s.NoReset) : s.gap.still = s.still := by
  have hresets : s.env.pass.resets = s.env.resets := (Env.pass_resets_nil s.env hn).trans hn.symm
  rw [State.gap_of_noReset hn]
  simp only [State.still, RegBlock.engineSteps_still]
  simp only [Env.pass] at hresets ⊢
  rw [hresets]

/-- Equal still states have had the same inputs. -/
theorem State.SameInputs.of_still (he : t.still.env = s.still.env) (hp : t.cmdPort = s.cmdPort) : s.SameInputs t :=
  ⟨hp, congrArg (·.fPclk) he, congrArg (·.regBase) he, congrArg (·.autoRetx) he, congrArg (·.fair) he,
    congrArg (·.resets) he⟩

/-! ### ADDFILTER sees only the still state -/

/-- An outcome with its state still. -/
def stillOutcome : Host.Outcome State Fault Refusal → Host.Outcome State Fault Refusal
  | .next t => .next t.still
  | .fault f => .fault f
  | .refused r => .refused r

theorem stillOutcome_eq_next {x : Host.Outcome State Fault Refusal} (h : stillOutcome x = .next t) :
    ∃ u, x = .next u ∧ u.still = t := by
  cases x with
  | next u => exact ⟨u, rfl, by injection h⟩
  | fault f => cases h
  | refused r => cases h

theorem RegBlock.writeBanks_still (b : RegBlock) (f : BankId → Bank → Bank) :
    b.still.writeBanks f = (b.writeBanks f).map RegBlock.still := by
  show (if b.finit then _ else _) = (if b.finit then _ else _ : Except Refusal RegBlock).map RegBlock.still
  cases b.finit <;> rfl

theorem State.regWrite_still {r : Reg} {v : r.Val} (q : Seq)
    (h : s.regs.still.write r v = (s.regs.write r v).map RegBlock.still) :
    s.still.regWrite r v q = stillOutcome (s.regWrite r v q) := by
  have hs : s.still.regs.write r v = (s.regs.write r v).map RegBlock.still := h
  unfold State.regWrite
  rw [hs]
  cases s.regs.write r v <;> rfl

/-- Every micro-step of ADDFILTER reads and writes the still part only (10_state R52, 42_filter R183). -/
theorem addfilterMicro_still (o : AddfilterOps) (p : AddfilterPos) (s : State) :
    addfilterMicro o p s.still = stillOutcome (addfilterMicro o p s) := by
  cases p
  case s1 | s3 | s7 | s9 | s11 | s13 | s15 => rfl
  case s2 | s14 => exact State.regWrite_still (s := s) (r := .fctlr) _ rfl
  case s4 | s5 | s6 | s8 | s10 | s12 => exact State.regWrite_still _ (RegBlock.writeBanks_still _ _)

/-- SEQ is IDLE or in ADDFILTER. -/
def Seq.InAddfilter (o : AddfilterOps) (q : Seq) : Prop := q = .idle ∨ ∃ p, q = .addfilter o p

theorem micro_still (hq : s.seq.InAddfilter o) : micro s.still = stillOutcome (micro s) := by
  rcases hq with hq | ⟨p, hq⟩
  · have hidle {u : State} (hu : u.seq = .idle) : micro u = .next u := by simp only [micro, hu]
    rw [hidle hq, hidle (u := s.still) hq]; rfl
  · rw [micro_addfilter hq, micro_addfilter (s := s.still) hq, addfilterMicro_still]

theorem State.regWrite_env {r : Reg} {v : r.Val} {q : Seq} (h : s.regWrite r v q = .next t) : t.env = s.env := by
  rcases s.regWrite_cases r v q with ⟨b, -, hn⟩ | ⟨e, -, hn⟩ <;> rw [hn] at h <;> cases h
  rfl

/-- A micro-step of ADDFILTER leaves the inputs, and ADDFILTER goes on or ends. -/
theorem micro_inAddfilter (hq : s.seq.InAddfilter o) (h : micro s = .next t) :
    t.env = s.env ∧ t.seq.InAddfilter o := by
  rcases hq with hq | ⟨p, hq⟩
  · simp only [micro, hq] at h
    cases h; exact ⟨rfl, .inl hq⟩
  · rw [micro_addfilter hq] at h
    refine ⟨?_, (addfilterMicro_advances h).1⟩
    cases p <;> simp only [addfilterMicro] at h
    case s1 | s3 | s7 | s9 | s11 | s13 | s15 => cases h; rfl
    case s2 | s4 | s5 | s6 | s8 | s10 | s12 | s14 => exact State.regWrite_env h

/-- With no block reset coming, a run of ADDFILTER's micro-steps depends on the still part only, whatever the gaps hold. -/
theorem drive_still (n : Nat) (hn : s.NoReset) (hq : s.seq.InAddfilter o) :
    drive micro n s.still = stillOutcome (drive micro n s) := by
  induction n generalizing s with
  | zero => rfl
  | succ n ih =>
    by_cases hi : s.seq = .idle
    · rw [drive_idle _ hi, drive_idle (s := s.still) _ hi]; rfl
    · have hgap : s.gap.seq.InAddfilter o := by rwa [State.gap_seq hn]
      have hmicro : micro s.still.gap = stillOutcome (micro s.gap) := by
        rw [State.gap_quiet (State.still_quiet hn), ← State.gap_still hn, micro_still hgap]
      unfold drive
      rw [if_neg hi, if_neg (show s.still.seq ≠ .idle from hi), hmicro]
      cases hm : micro s.gap with
      | fault f => rfl
      | refused r => rfl
      | next t =>
        obtain ⟨henv, ht⟩ := micro_inAddfilter hgap hm
        exact ih ((State.gap_noReset hn).of_same henv) ht

/-- ADDFILTER comes to the response it comes to with the engine still, up to what the engine may change. -/
theorem exec_addfilter_still (o : AddfilterOps) (hi : s.seq = .idle) (hn : s.NoReset)
    (hc : s.handle.constructed = true) :
    ∃ t, exec (.addfilter o.bank.val o.bitmode o.matchmode o.idvalue o.idmask o.fifo) s = .next t
      ∧ t.still = s.still.afterAddfilter o := by
  have hrun : stillOutcome (drive micro s.budget (s.begin (.addfilter o .s1))) = .next (s.still.afterAddfilter o) :=
    calc stillOutcome (drive micro s.budget (s.begin (.addfilter o .s1)))
        = drive micro (s.env.gaps.length + 17 + 15) (s.still.begin (.addfilter o .s1)) :=
          (drive_still s.budget (s := s.begin (.addfilter o .s1)) hn (.inr ⟨_, rfl⟩)).symm
      _ = .next (s.still.afterAddfilter o) := drive_addfilter_quiet o _ hi (State.still_quiet hn)
  rw [exec_addfilter o hi hc]
  exact stillOutcome_eq_next hrun

/-- Settles O18: the fields of the still state after ADDFILTER, none of which the engine writes. -/
theorem addfilterInstallsFilter : Obligations.AddfilterInstallsFilter := by
  intro bank bm mm idvalue idmask fifo s hi hn hc
  obtain ⟨t, ht, hstill⟩ := exec_addfilter_still ⟨bank, bm, mm, idvalue, idmask, fifo⟩ hi hn hc
  have hbank (k : BankId) := (congrArg (·.regs.bank k) hstill).trans (s.still.afterAddfilter_bank _ k)
  have hfinit := congrArg (·.regs.finit) hstill
  have hinrq := congrArg (·.regs.inrq) hstill
  have htiming := congrArg (·.regs.timing) hstill
  have hmailboxes := congrArg (·.regs.mailboxes) hstill
  have hhandle := congrArg State.handle hstill
  have henv := congrArg State.env hstill
  have hcmdPort := congrArg State.cmdPort hstill
  exact ⟨t, ht, (congrArg State.seq hstill).trans hi, congrArg State.respPort hstill,
    (hbank bank).trans ((if_pos rfl).trans (AddfilterOps.filter_eq _)), fun k hk => (hbank k).trans (if_neg hk),
    hfinit, hinrq, htiming, RegBlock.sameData_of_still hmailboxes, hhandle, .of_still henv hcmdPort⟩

end Sys2Proof.Machine
end

section
/-!
PROOF. What happens to a transmit mailbox (43_transmit R196 to R206): the engine's steps on it, that no command cancels its
request, and TXSTATUS, which reports its status.
-/
namespace Sys2Proof.Machine

variable {s t : State}

/-! ### The engine's steps on a mailbox (R203 to R206) -/

/-- Settles O42: the guard of R203 is `RegBlock.selectable`, with identifiers compared as numbers. -/
theorem arbiterTakesLowestIdentifier : Obligations.ArbiterTakesLowestIdentifier := by
  intro b a m
  have hguard : b.enabled a (.txSelect m) = true ↔ _ := RegBlock.selectable_iff
  simp only [BitVec.not_lt, BitVec.le_def] at hguard
  exact ⟨fun h => if_pos (hguard.2 h), fun h => if_neg (h ∘ hguard.1)⟩

theorem RegBlock.sending_iff {b : RegBlock} {m : MbxId} :
    b.sending m = true ↔ b.inak = false ∧ (b.mbx m).xmit = true := by
  simp [RegBlock.sending]

theorem retxAllows_iff {a : Option Bool} {retry : Bool} : retxAllows a retry = true ↔ a = none ∨ a = some retry := by
  cases a <;> simp [retxAllows]

/-- Settles O43: the effect is `Mailbox.sent`, and the guard is `RegBlock.sending`. -/
theorem transmissionSucceeds : Obligations.TransmissionSucceeds := fun _ _ _ =>
  if_congr RegBlock.sending_iff rfl rfl

/-- Settles O44: both steps have one guard, and the choice of retry or abort decides three flags. -/
theorem transmissionFails : Obligations.TransmissionFails := by
  intro b a m retry x taken
  have hguard : (b.sending m && retxAllows a retry) = true ↔ taken := by
    rw [Bool.and_eq_true, RegBlock.sending_iff, retxAllows_iff, and_assoc]
  refine ⟨fun h => (if_pos (hguard.2 h)).trans ?_, fun h => (if_pos (hguard.2 h)).trans ?_,
    fun h => ⟨if_neg (h ∘ hguard.1), if_neg (h ∘ hguard.1)⟩⟩
  · cases retry <;> rfl
  · cases retry <;> rfl

/-! ### Requests stay (R199) -/

/-- A mailbox from `x` to `y` keeps its request, and is not made Empty. -/
def Mailbox.KeepsRequest (x y : Mailbox) : Prop :=
  (x.txrq = true → y.txrq = true) ∧ (x.tme = false → y.tme = false)

theorem Mailbox.KeepsRequest.refl (x : Mailbox) : x.KeepsRequest x := ⟨id, id⟩

/-- A write of an identifier register sets TXRQ or leaves it, and TME likewise falls or stays (10_state R32). -/
theorem Mailbox.writeId_keepsRequest (x : Mailbox) (v : Txmir) : x.KeepsRequest (x.writeId v) := by
  unfold Mailbox.writeId
  cases v.txrq
  · exact .refl x
  · exact ⟨fun _ => rfl, fun _ => rfl⟩

theorem RegBlock.setMbx_keepsRequest {b : RegBlock} {k : MbxId} {x : Mailbox} (h : (b.mbx k).KeepsRequest x) (m : MbxId) :
    (b.mbx m).KeepsRequest ((b.setMbx k x).mbx m) := by
  rw [RegBlock.mbx_setMbx]
  split
  · next hm => exact hm ▸ h
  · exact .refl _

theorem RegBlock.writeBanks_mbx {b c : RegBlock} {f : BankId → Bank → Bank} (h : b.writeBanks f = .ok c) (m : MbxId) :
    c.mbx m = b.mbx m := by
  unfold RegBlock.writeBanks at h
  split at h <;> cases h
  rfl

/-- No register write cancels a request. -/
theorem RegBlock.write_keepsRequest {b c : RegBlock} {r : Reg} {v : r.Val} (h : b.write r v = .ok c) (m : MbxId) :
    (b.mbx m).KeepsRequest (c.mbx m) := by
  cases r with
  | ctlr | statr | tstatr | rxmir | rxmdtr | rxmdlr | rxmdhr | fctlr => cases h; exact .refl _
  | txmir k => cases h; exact RegBlock.setMbx_keepsRequest (Mailbox.writeId_keepsRequest _ _) m
  | txmdtr k | txmdlr k | txmdhr k =>
    cases h
    refine RegBlock.setMbx_keepsRequest ?_ m
    exact ⟨id, id⟩
  | rfifo f =>
    cases h
    split <;> exact .refl _
  | btimr =>
    simp only [RegBlock.write] at h
    split at h <;> cases h
    exact .refl _
  | fmcfgr | fscfgr | fafifor | fwr | fir1 | fir2 => rw [RegBlock.writeBanks_mbx h m]; exact .refl _

/-- A micro-step of CONSTRUCT but the peripheral reset makes at most one register write. -/
theorem constructMicro_atMostOneWrite {o : ConstructOps} {p : ConstructPos} (hp : ∀ r, p ≠ .s2 r)
    (h : constructMicro o p s = .next t) : s.AtMostOneWrite t := by
  cases p <;> simp only [constructMicro] at h
  case s1 => split at h <;> cases h <;> exact .inl rfl
  case s2 r => exact absurd rfl (hp r)
  case s3 | e1 | e3 | e4 | l1 | l3 | l4 | s7 | s8 => cases h; exact .inl rfl
  case e2 | s5 | l2 => exact (State.regWrite_advances (cmd := .construct o) h).2

theorem micro_atMostOneWrite (hp : ∀ o r, s.seq ≠ .construct o (.s2 r)) (h : micro s = .next t) :
    s.AtMostOneWrite t := by
  cases hq : s.seq with
  | construct o p =>
    rw [micro_construct hq] at h
    exact constructMicro_atMostOneWrite (fun r hr => hp o r (hr ▸ hq)) h
  | idle | btcalc | addfilter | transmit | txstatus | tryrecv =>
    exact (micro_outsideConstruct (by rw [hq]; rfl) h).2

/-- Settles O29: every other micro-step makes at most one register write, and none cancels a request. -/
theorem noCommandCancelsRequest : Obligations.NoCommandCancelsRequest := by
  intro s t m h hp
  rcases micro_atMostOneWrite hp h with hregs | ⟨r, v, hw⟩
  · rw [hregs]; exact Mailbox.KeepsRequest.refl (s.regs.mbx m)
  · exact RegBlock.write_keepsRequest hw m


/-! ### TXSTATUS (R197) -/

/-- In a constructed idle state TXSTATUS is legal and runs from its first micro-step. -/
theorem exec_txstatus (hi : s.seq = .idle) (hc : s.handle.constructed = true) :
    exec .txstatus s = drive micro s.budget (s.begin (.txstatus .s1)) := by
  show s.dispatch micro s.handle.constructed _ = _
  rw [hc, dispatch_legal hi]

theorem micro_txstatus {p : TxstatusPos} (hq : s.seq = .txstatus p) : micro s = txstatusMicro p s := by
  simp only [micro, hq]

theorem txstatusMicro_s1_none (h : s.handle.lastMbx = none) :
    txstatusMicro .s1 s = .next (s.respond (txstatusResponse .otherError)) := by
  simp only [txstatusMicro, h]

theorem txstatusMicro_s1_some {m : MbxId} (h : s.handle.lastMbx = some m) :
    txstatusMicro .s1 s = .next (s.goto (.txstatus .s2)) := by
  simp only [txstatusMicro, h]

theorem txstatusMicro_s2_some {m : MbxId} (h : s.handle.lastMbx = some m) :
    txstatusMicro .s2 s = .next (s.goto (.txstatus (.s3 m))) := by
  simp only [txstatusMicro, h]

/-- Settles O30: step 1 answers, after one gap. -/
theorem txstatusBeforeTransmit : Obligations.TxstatusBeforeTransmit := by
  intro s hi hn hc hlast
  have hstart := State.OnlyEngine.start hn (.txstatus .s1)
  have hm : micro (s.begin (.txstatus .s1)).gap
      = .next ((s.begin (.txstatus .s1)).gap.respond (txstatusResponse .otherError)) := by
    rw [micro_txstatus (State.gap_seq hstart.noReset), txstatusMicro_s1_none (hstart.gap.handle ▸ hlast)]
  obtain ⟨-, hinputs, hregs, hhandle⟩ := hstart.gap
  refine ⟨(s.begin (.txstatus .s1)).gap.respond (txstatusResponse .otherError), ?_, rfl, rfl, hhandle, by simp,
    hregs, hinputs.of_same rfl rfl⟩
  rw [exec_txstatus hi hc]
  exact drive_step (n := s.env.gaps.length + 31) nofun hm (drive_idle _ rfl)

/-- TXSTATUS before step 3: the engine has moved in two gaps, and SEQ holds LAST_MBX. -/
def State.mailboxFound (m : MbxId) (s : State) : State :=
  ((s.begin (.txstatus .s1)).gap.goto (.txstatus .s2)).gap.goto (.txstatus (.s3 m))

/-- TXSTATUS before step 4: after a third gap the status has been read. -/
def State.statusRead (m : MbxId) (s : State) : State :=
  (s.mailboxFound m).gap.afterRead (.txstatus (.s4 m ((s.mailboxFound m).gap.regVal .tstatr)))

/-- TXSTATUS at its response. -/
def State.statusReported (m : MbxId) (s : State) : State :=
  (s.statusRead m).gap.respond (txstatusResponse (txsOf (s.gap.gap.gap.regs.mbx m).flags))

theorem State.mailboxFound_onlyEngine (m : MbxId) (hn : s.NoReset) : s.OnlyEngine (s.mailboxFound m) :=
  ((State.OnlyEngine.start hn _).gap.of_same (u := (s.begin (.txstatus .s1)).gap.goto (.txstatus .s2))
    rfl rfl rfl rfl).gap.of_same rfl rfl rfl rfl

theorem State.statusRead_onlyEngine (m : MbxId) (hn : s.NoReset) : s.OnlyEngine (s.statusRead m) :=
  (State.mailboxFound_onlyEngine m hn).gap.of_same rfl rfl rfl rfl

theorem State.statusReported_onlyEngine (m : MbxId) (hn : s.NoReset) : s.OnlyEngine (s.statusReported m) :=
  (State.statusRead_onlyEngine m hn).gap.of_same rfl rfl rfl rfl

/-- What a read of TSTATR shows of a mailbox (30_encoding R119). -/
@[simp] theorem State.regVal_tstatr_flags (s : State) (m : MbxId) :
    PerMbx.get (Tstatr.flags (s.regVal .tstatr)) m = (s.regs.mbx m).flags :=
  PerMbx.get_map s.regs.mailboxes Mailbox.flags m

theorem State.mailboxFound_gap_regs (m : MbxId) (s : State) : (s.mailboxFound m).gap.regs = s.gap.gap.gap.regs := by
  simp [State.mailboxFound]

/-- After its first micro-step TXSTATUS goes on to read the status of the mailbox LAST_MBX. -/
theorem drive_mailboxFound {m : MbxId} {n : Nat} (hn : s.NoReset) (hlast : s.handle.lastMbx = some m) :
    drive micro (n + 2) (s.begin (.txstatus .s1)) = drive micro n (s.mailboxFound m) := by
  have h1 := State.OnlyEngine.start hn (.txstatus .s1)
  have h2 : s.OnlyEngine ((s.begin (.txstatus .s1)).gap.goto (.txstatus .s2)) := h1.gap.of_same rfl rfl rfl rfl
  have step1 : micro (s.begin (.txstatus .s1)).gap = .next ((s.begin (.txstatus .s1)).gap.goto (.txstatus .s2)) := by
    rw [micro_txstatus (State.gap_seq h1.noReset), txstatusMicro_s1_some (h1.gap.handle ▸ hlast)]
  have step2 : micro ((s.begin (.txstatus .s1)).gap.goto (.txstatus .s2)).gap = .next (s.mailboxFound m) := by
    rw [micro_txstatus (State.gap_seq h2.noReset), txstatusMicro_s2_some (h2.gap.handle ▸ hlast)]
    rfl
  exact drive_step nofun step1 (drive_step nofun step2 rfl)

/-- Steps 3 and 4 read the status and respond with it. -/
theorem drive_statusReported {m : MbxId} {n : Nat} (hn : s.NoReset) :
    drive micro (n + 2) (s.mailboxFound m) = .next (s.statusReported m) := by
  have step3 : micro (s.mailboxFound m).gap = .next (s.statusRead m) :=
    micro_txstatus (State.gap_seq (State.mailboxFound_onlyEngine m hn).noReset)
  have step4 : micro (s.statusRead m).gap = .next (s.statusReported m) := by
    rw [micro_txstatus (State.gap_seq (State.statusRead_onlyEngine m hn).noReset), txstatusMicro,
      State.regVal_tstatr_flags, State.mailboxFound_gap_regs]
    rfl
  exact drive_step nofun step3 (drive_step nofun step4 (drive_idle _ rfl))

/-- The response of TXSTATUS as words, by the first flag that is set (R198, R111). -/
theorem txstatusResponse_txsOf (x : Mailbox) : txstatusResponse (txsOf x.flags) =
    [if x.txok = true then 0x00000100 else if x.alst = true then 0x00000200
      else if x.terr = true then 0x00000300 else if x.tme = false then 0x00000000 else 0x00000400] := by
  simp only [txsOf, Mailbox.flags, Bool.not_eq_true']
  split_ifs <;> rfl

/-- Settles O31: two micro-steps to find the mailbox, two to read and report it. -/
theorem txstatusReportsLastMailbox : Obligations.TxstatusReportsLastMailbox := by
  intro s m hi hn hc hlast x
  obtain ⟨-, hinputs, hregs, hhandle⟩ := State.statusReported_onlyEngine m hn
  refine ⟨s.statusReported m, ?_, rfl, txstatusResponse_txsOf x, hhandle, ?_, hregs, hinputs⟩
  · calc exec .txstatus s
        = drive micro (s.env.gaps.length + 30 + 2) (s.begin (.txstatus .s1)) := exec_txstatus hi hc
      _ = drive micro (s.env.gaps.length + 28 + 2) (s.mailboxFound m) := drive_mailboxFound hn hlast
      _ = .next (s.statusReported m) := drive_statusReported hn
  · simp [State.statusReported, State.statusRead, State.mailboxFound]

end Sys2Proof.Machine
end

section
/-!
PROOF. The Transmit Mailbox Allocator (43_transmit R190 to R195, R201): TRANSMIT scans the pool in two micro-steps, and either
answers WOULD_BLOCK or loads the chosen mailbox in six more.
-/
namespace Sys2Proof.Machine

variable {s t : State} {o : TransmitOps} {m : MbxId}

/-! ### Acceptance and the scan (R190 steps 1 and 2, R191) -/

/-- In a constructed idle state TRANSMIT with a legal length runs from its first micro-step. -/
theorem exec_transmit (o : TransmitOps) (hi : s.seq = .idle) (hc : s.handle.constructed = true)
    (hd : o.dlc ≤ Config.dlcMax) :
    exec (.transmit o.id o.dlc o.datal o.datah) s = drive micro s.budget (s.begin (.transmit o .s1)) := by
  show s.dispatch micro (decide (o.dlc ≤ Config.dlcMax) && s.handle.constructed) _ = _
  rw [hc, decide_eq_true hd, Bool.and_self, dispatch_legal hi]

theorem micro_transmit {p : TransmitPos} (hq : s.seq = .transmit o p) : micro s = transmitMicro o p s := by
  simp only [micro, hq]

theorem firstEmpty_eq_none {st : Tstatr} (h : ∀ k, (st.flags.get k).tme = false) : firstEmpty st = none := by
  have h0 := h .mbx0
  have h1 := h .mbx1
  have h2 := h .mbx2
  simp_all [firstEmpty, PerMbx.get]

theorem firstEmpty_eq_some {st : Tstatr} (hm : (st.flags.get m).tme = true)
    (hlower : ∀ k : MbxId, k.toNat < m.toNat → (st.flags.get k).tme = false) : firstEmpty st = some m := by
  have h0 := hlower .mbx0
  have h1 := hlower .mbx1
  cases m <;> simp_all [firstEmpty, PerMbx.get, MbxId.toNat]

/-- The status that TRANSMIT step 1 reads, after the first gap. -/
def State.poolStatus (s : State) : Tstatr := s.gap.regVal .tstatr

theorem State.poolStatus_tme (s : State) (k : MbxId) : (s.poolStatus.flags.get k).tme = (s.gap.regs.mbx k).tme := by
  rw [State.poolStatus, State.regVal_tstatr_flags]; rfl

/-- TRANSMIT before step 2: the status has been read. -/
def State.poolRead (o : TransmitOps) (s : State) : State :=
  (s.begin (.transmit o .s1)).gap.afterRead (.transmit o (.s2 s.poolStatus))

/-- TRANSMIT at its response when no mailbox is Empty. -/
def State.blocked (o : TransmitOps) (s : State) : State := (s.poolRead o).gap.raise .wouldBlock

/-- TRANSMIT before step 3: mailbox `m` has been chosen. -/
def State.chosen (o : TransmitOps) (m : MbxId) (s : State) : State := (s.poolRead o).gap.goto (.transmit o (.s3 m))

theorem State.poolRead_onlyEngine (o : TransmitOps) (hn : s.NoReset) : s.OnlyEngine (s.poolRead o) :=
  (State.OnlyEngine.start hn (.transmit o .s1)).gap.of_same rfl rfl rfl rfl

theorem State.blocked_onlyEngine (o : TransmitOps) (hn : s.NoReset) : s.OnlyEngine (s.blocked o) :=
  (State.poolRead_onlyEngine o hn).gap.of_same rfl rfl rfl rfl

theorem State.chosen_onlyEngine (o : TransmitOps) (m : MbxId) (hn : s.NoReset) : s.OnlyEngine (s.chosen o m) :=
  (State.poolRead_onlyEngine o hn).gap.of_same rfl rfl rfl rfl

/-- Step 1. -/
theorem micro_poolRead (hn : s.NoReset) : micro (s.begin (.transmit o .s1)).gap = .next (s.poolRead o) := by
  have hstatus : (s.begin (.transmit o .s1)).gap.regVal .tstatr = s.poolStatus := by
    simp [State.poolStatus, State.regVal]
  rw [micro_transmit (State.gap_seq (State.OnlyEngine.start hn _).noReset), transmitMicro, hstatus]
  rfl

theorem drive_blocked {n : Nat} (hn : s.NoReset) (h : firstEmpty s.poolStatus = none) :
    drive micro (n + 2) (s.begin (.transmit o .s1)) = .next (s.blocked o) := by
  have step2 : micro (s.poolRead o).gap = .next (s.blocked o) := by
    rw [micro_transmit (State.gap_seq (State.poolRead_onlyEngine o hn).noReset)]
    simp only [transmitMicro, h]
    rfl
  exact drive_step nofun (micro_poolRead hn) (drive_step nofun step2 (drive_idle _ rfl))

theorem drive_chosen {n : Nat} (hn : s.NoReset) (h : firstEmpty s.poolStatus = some m) :
    drive micro (n + 2) (s.begin (.transmit o .s1)) = drive micro n (s.chosen o m) := by
  have step2 : micro (s.poolRead o).gap = .next (s.chosen o m) := by
    rw [micro_transmit (State.gap_seq (State.poolRead_onlyEngine o hn).noReset)]
    simp only [transmitMicro, h]
    rfl
  exact drive_step nofun (micro_poolRead hn) (drive_step nofun step2 rfl)

/-- With no Empty mailbox TRANSMIT is two micro-steps. -/
theorem exec_transmit_blocked (o : TransmitOps) (hi : s.seq = .idle) (hn : s.NoReset)
    (hc : s.handle.constructed = true) (hd : o.dlc ≤ Config.dlcMax) (hfull : ∀ k, (s.gap.regs.mbx k).tme = false) :
    exec (.transmit o.id o.dlc o.datal o.datah) s = .next (s.blocked o) := by
  rw [exec_transmit o hi hc hd]
  exact drive_blocked (n := s.env.gaps.length + 30) hn (firstEmpty_eq_none fun k => by rw [s.poolStatus_tme, hfull k])

/-- With an Empty mailbox TRANSMIT goes on from step 3 with the lowest-numbered one. -/
theorem exec_transmit_chosen (o : TransmitOps) (hi : s.seq = .idle) (hn : s.NoReset)
    (hc : s.handle.constructed = true) (hd : o.dlc ≤ Config.dlcMax) (hm : (s.gap.regs.mbx m).tme = true)
    (hlower : ∀ k : MbxId, k.toNat < m.toNat → (s.gap.regs.mbx k).tme = false) :
    exec (.transmit o.id o.dlc o.datal o.datah) s = drive micro (s.env.gaps.length + 30) (s.chosen o m) := by
  rw [exec_transmit o hi hc hd]
  exact drive_chosen hn (firstEmpty_eq_some (by rw [s.poolStatus_tme, hm]) fun k hk => by
    rw [s.poolStatus_tme, hlower k hk])

/-- Settles O25: the status is read, the response goes out, and nothing is written. -/
theorem transmitWouldBlock : Obligations.TransmitWouldBlock := by
  intro id dlc datal datah s hi hn hc hd hfull
  obtain ⟨-, hinputs, hregs, hhandle⟩ := State.blocked_onlyEngine ⟨id, dlc, datal, datah⟩ hn
  exact ⟨_, exec_transmit_blocked ⟨id, dlc, datal, datah⟩ hi hn hc hd hfull, rfl, rfl, hhandle,
    by simp [State.blocked, State.poolRead], hregs, hinputs⟩

/-! ### The four writes (R190 steps 3 to 6) -/

/-- The state with mailbox `m` changed by `f` and SEQ at `q`. -/
def State.loadMbx (m : MbxId) (f : Mailbox → Mailbox) (q : Seq) (s : State) : State :=
  { s with regs := s.regs.setMbx m (f (s.regs.mbx m)), seq := q }

theorem State.loadMbx_loadMbx (m : MbxId) (f g : Mailbox → Mailbox) (q q' : Seq) (s : State) :
    (s.loadMbx m f q).loadMbx m g q' = s.loadMbx m (g ∘ f) q' := by
  simp [State.loadMbx]

/-- What step 3 writes. -/
def TransmitOps.putDlc (o : TransmitOps) (x : Mailbox) : Mailbox := { x with dlc := BitVec.ofNat 4 o.dlc }
/-- What step 4 writes. -/
def TransmitOps.putDatal (o : TransmitOps) (x : Mailbox) : Mailbox := { x with datal := o.datal }
/-- What step 5 writes. -/
def TransmitOps.putDatah (o : TransmitOps) (x : Mailbox) : Mailbox := { x with datah := o.datah }
/-- What step 6 writes, with its side effects (10_state R32). -/
def TransmitOps.putRequest (o : TransmitOps) (x : Mailbox) : Mailbox :=
  Mailbox.request { x with stid := o.id, ide := false, rtr := false }
/-- The four writes together. -/
def TransmitOps.load (o : TransmitOps) : Mailbox → Mailbox := o.putRequest ∘ o.putDatah ∘ o.putDatal ∘ o.putDlc

theorem transmitMicro_s3 (o : TransmitOps) (m : MbxId) (s : State) :
    transmitMicro o (.s3 m) s = .next (s.loadMbx m o.putDlc (.transmit o (.s4 m))) := by
  simp only [transmitMicro, State.regWrite, RegBlock.write, txmdtr_unpack_dlc]
  rfl

theorem transmitMicro_s4 (o : TransmitOps) (m : MbxId) (s : State) :
    transmitMicro o (.s4 m) s = .next (s.loadMbx m o.putDatal (.transmit o (.s5 m))) := rfl

theorem transmitMicro_s5 (o : TransmitOps) (m : MbxId) (s : State) :
    transmitMicro o (.s5 m) s = .next (s.loadMbx m o.putDatah (.transmit o (.s6 m))) := rfl

theorem transmitMicro_s6 (o : TransmitOps) (m : MbxId) (s : State) :
    transmitMicro o (.s6 m) s = .next (s.loadMbx m o.putRequest (.transmit o (.s7 m))) := by
  obtain ⟨w, hw⟩ := txmir_unpack_request o.id
  simp only [transmitMicro, State.regWrite, RegBlock.write, hw]
  rfl

/-- A micro-step that loads one mailbox changes no other. -/
theorem State.loadMbx_changed {k : MbxId} {f : Mailbox → Mailbox} {q : Seq}
    (h : (s.loadMbx k f q).regs.mbx m ≠ s.regs.mbx m) : m = k :=
  not_imp_comm.1 (RegBlock.mbx_setMbx_ne s.regs (f (s.regs.mbx k))) h

/-- Settles O27: steps 3 to 6 write the chosen mailbox, whose TME the invariant keeps at 1 until then; no other step writes a
mailbox. -/
theorem transmitWritesOnlyEmptyMailbox : Obligations.TransmitWritesOnlyEmptyMailbox := by
  intro s t o p m hinv hq h hne
  have hseq := hinv.seq
  simp only [State.SeqHolds, hq] at hseq
  obtain ⟨-, -, hchosen⟩ := hseq
  have empty {k : MbxId} {f : Mailbox → Mailbox} {q : Seq} (hk : (s.regs.mbx k).tme = true)
      (h : (.next (s.loadMbx k f q) : Host.Outcome State Fault Refusal) = .next t) :
        (s.regs.mbx m).state = some .empty := by
    cases h
    rw [State.loadMbx_changed hne]
    exact (hinv.regs.mailbox k).of_tme hk
  rw [micro_transmit hq] at h
  cases p with
  | s3 k => exact empty hchosen ((transmitMicro_s3 o k s).symm.trans h)
  | s4 k => exact empty hchosen ((transmitMicro_s4 o k s).symm.trans h)
  | s5 k => exact empty hchosen ((transmitMicro_s5 o k s).symm.trans h)
  | s6 k => exact empty hchosen ((transmitMicro_s6 o k s).symm.trans h)
  | s1 | s7 | s8 => cases h; exact absurd rfl hne
  | s2 st =>
    simp only [transmitMicro] at h
    split at h <;> cases h <;> exact absurd rfl hne

/-! ### The engine still -/

/-- The state when TRANSMIT has loaded mailbox `m` and responded. -/
def State.loaded (o : TransmitOps) (m : MbxId) (s : State) : State :=
  { s.loadMbx m o.load .idle with
    handle := { s.handle with lastMbx := some m }
    respPort := okResponse }

/-- In a quiet state steps 3 to 8 load the mailbox, note it and respond. -/
theorem drive_loaded_quiet {n : Nat} (hq : s.Quiet) (hs : s.seq = .transmit o (.s3 m)) :
    drive micro (n + 6) s = .next (s.loaded o m) := by
  have quiet (f q) : (s.loadMbx m f q).Quiet := hq.of_same rfl rfl rfl
  refine drive_quiet hq (by simp [hs]) ((micro_transmit hs).trans (transmitMicro_s3 o m s)) ?_
  refine drive_quiet (quiet _ _) nofun ((micro_transmit rfl).trans (transmitMicro_s4 o m _)) ?_
  rw [State.loadMbx_loadMbx]
  refine drive_quiet (quiet _ _) nofun ((micro_transmit rfl).trans (transmitMicro_s5 o m _)) ?_
  rw [State.loadMbx_loadMbx]
  refine drive_quiet (quiet _ _) nofun ((micro_transmit rfl).trans (transmitMicro_s6 o m _)) ?_
  rw [State.loadMbx_loadMbx]
  refine drive_quiet (quiet _ _) nofun ((micro_transmit (p := .s7 m) rfl).trans rfl) ?_
  exact drive_quiet (hq.of_same rfl rfl rfl) nofun ((micro_transmit (p := .s8) rfl).trans rfl) (drive_idle _ rfl)

theorem State.poolRead_of_quiet (o : TransmitOps) (hq : s.Quiet) :
    s.poolRead o = (s.begin (.transmit o .s1)).afterRead (.transmit o (.s2 s.poolStatus)) := by
  rw [State.poolRead, State.gap_quiet (s := s.begin (.transmit o .s1)) (hq.of_same rfl rfl rfl)]

theorem State.Quiet.poolRead (hq : s.Quiet) (o : TransmitOps) : (s.poolRead o).Quiet := by
  rw [State.poolRead_of_quiet o hq]
  exact hq.of_same rfl rfl rfl

/-- With the engine still TRANSMIT reads one register and loads the lowest-numbered Empty mailbox. -/
theorem exec_transmit_quiet (o : TransmitOps) (hi : s.seq = .idle) (hq : s.Quiet) (hc : s.handle.constructed = true)
    (hd : o.dlc ≤ Config.dlcMax) (hm : (s.regs.mbx m).tme = true)
    (hlower : ∀ k : MbxId, k.toNat < m.toNat → (s.regs.mbx k).tme = false) :
    exec (.transmit o.id o.dlc o.datal o.datah) s = .next ({ s with free := s.free + 1 }.loaded o m) := by
  have hchosen : s.chosen o m = { s with seq := .transmit o (.s3 m), respPort := [], free := s.free + 1 } := by
    rw [State.chosen, State.gap_quiet (hq.poolRead o), State.poolRead_of_quiet o hq]
    rfl
  rw [← State.gap_quiet hq] at hm hlower
  rw [exec_transmit_chosen o hi hq.resets hc hd hm hlower, hchosen, hq.gaps]
  exact drive_loaded_quiet (n := 24) (hq.of_same rfl rfl rfl) rfl

/-- Settles O24: the four writes as one update of the mailbox. -/
theorem transmitFrame : Obligations.TransmitFrame := by
  intro id dlc datal datah m s hi hq hc hd hm hlower
  rw [exec_transmit_quiet ⟨id, dlc, datal, datah⟩ hi hq hc hd hm hlower, State.loaded, State.loadMbx, ← hi]
  rfl

/-! ### Filling the pool (R201) -/

/-- Between commands, constructed, with the engine still, and TME of each mailbox as in `e`. -/
structure State.PoolIs (e : MbxId → Bool) (s : State) : Prop where
  seq : s.seq = .idle
  quiet : s.Quiet
  constructed : s.handle.constructed = true
  tme : ∀ k, (s.regs.mbx k).tme = e k

/-- TRANSMIT takes the lowest-numbered Empty mailbox out of the pool. -/
theorem State.PoolIs.transmit {e : MbxId → Bool} (h : s.PoolIs e) (o : TransmitOps) (hd : o.dlc ≤ Config.dlcMax)
    (hm : e m = true) (hlower : ∀ k : MbxId, k.toNat < m.toNat → e k = false) :
    ∃ t, exec (.transmit o.id o.dlc o.datal o.datah) s = .next t ∧ t.PoolIs (Function.update e m false)
      ∧ t.respPort = [0] ∧ t.handle.lastMbx = some m := by
  obtain ⟨hi, hq, hc, he⟩ := h
  refine ⟨_, exec_transmit_quiet o hi hq hc hd ((he m).trans hm) fun k hk => (he k).trans (hlower k hk),
    ⟨rfl, hq.of_same rfl rfl rfl, hc, fun k => ?_⟩, rfl, rfl⟩
  show ((s.regs.setMbx m (o.load (s.regs.mbx m))).mbx k).tme = _
  rw [RegBlock.mbx_setMbx, Function.update_apply]
  split
  · rfl
  · exact he k

/-- With the pool used up TRANSMIT leaves the handle and the register block. -/
theorem State.PoolIs.transmit_blocked (h : s.PoolIs fun _ => false) (o : TransmitOps) (hd : o.dlc ≤ Config.dlcMax) :
    ∃ t, exec (.transmit o.id o.dlc o.datal o.datah) s = .next t ∧ t.respPort = [1] ∧ t.handle = s.handle
      ∧ t.regs = s.regs := by
  obtain ⟨hi, hq, hc, he⟩ := h
  refine ⟨_, exec_transmit_blocked o hi hq.resets hc hd (by rwa [State.gap_quiet hq]), rfl,
    (State.blocked_onlyEngine o hq.resets).handle, ?_⟩
  rw [State.blocked, State.gap_quiet (hq.poolRead o), State.poolRead_of_quiet o hq]
  rfl

/-- Settles O28: the pool is taken from below, mailbox by mailbox. -/
theorem poolFillsThenBlocks : Obligations.PoolFillsThenBlocks := by
  intro id dlc datal datah s hi hq hc hd hempty
  have h : s.PoolIs fun _ => true := ⟨hi, hq, hc, hempty⟩
  obtain ⟨t0, he0, h0, hr0, hl0⟩ := h.transmit (m := .mbx0) ⟨id 0, dlc 0, datal 0, datah 0⟩ (hd 0) rfl nofun
  obtain ⟨t1, he1, h1, hr1, hl1⟩ := h0.transmit (m := .mbx1) ⟨id 1, dlc 1, datal 1, datah 1⟩ (hd 1) rfl
    fun k => by cases k <;> decide
  obtain ⟨t2, he2, h2, hr2, hl2⟩ := h1.transmit (m := .mbx2) ⟨id 2, dlc 2, datal 2, datah 2⟩ (hd 2) rfl
    fun k => by cases k <;> decide
  have hfull : t2.PoolIs fun _ => false :=
    ⟨h2.seq, h2.quiet, h2.constructed, fun k => (h2.tme k).trans (by cases k <;> rfl)⟩
  obtain ⟨t3, he3, hr3, hh3, hregs3⟩ := hfull.transmit_blocked ⟨id 3, dlc 3, datal 3, datah 3⟩ (hd 3)
  exact ⟨t0, t1, t2, t3, he0, he1, he2, he3, hr0, hl0, hr1, hl1, hr2, hl2, hr3, hh3 ▸ hl2, hregs3⟩

/-! ### The engine moving

From step 3 on TRANSMIT reads nothing, and the data registers it writes are nothing that the engine writes (10_state R52), so
it runs as it does with the engine still, up to what the engine may change. -/

theorem RegBlock.setMbx_still (b : RegBlock) (m : MbxId) (x : Mailbox) :
    (b.setMbx m x).still = b.still.setMbx m x.dataOnly := by
  cases m <;> rfl

/-- A change of a mailbox whose data registers depend on data registers only is seen in the still state. -/
theorem State.loadMbx_still {f : Mailbox → Mailbox} (hf : ∀ x, (f x.dataOnly).dataOnly = (f x).dataOnly) (q : Seq) :
    (s.still.loadMbx m f q).still = (s.loadMbx m f q).still := by
  have hregs : (s.regs.still.setMbx m (f (s.regs.still.mbx m))).still
      = (s.regs.setMbx m (f (s.regs.mbx m))).still := by
    rw [RegBlock.setMbx_still, RegBlock.setMbx_still, RegBlock.still_mbx, hf]
    rfl
  exact congrArg (fun b : RegBlock => { s.still with regs := b, seq := q }) hregs

/-- SEQ is IDLE or in TRANSMIT past the scan. -/
def Seq.pastScan : Seq → Bool
  | .idle => true
  | .transmit _ .s1 | .transmit _ (.s2 _) => false
  | .transmit _ _ => true
  | _ => false

/-- A micro-step past the scan answers, leaves the inputs, and gives what it gives in the still state. -/
theorem micro_pastScan (hp : s.seq.pastScan = true) : ∃ t, micro s = .next t ∧ t.seq.pastScan = true ∧ t.env = s.env
    ∧ ∃ u, micro s.still = .next u ∧ u.still = t.still := by
  cases hq : s.seq with
  | idle =>
    have hidle {u : State} (hu : u.seq = .idle) : micro u = .next u := by simp only [micro, hu]
    exact ⟨s, hidle hq, hp, rfl, s.still, hidle hq, rfl⟩
  | transmit o p =>
    rw [micro_transmit hq, micro_transmit (s := s.still) hq]
    have loads {m : MbxId} {f : Mailbox → Mailbox} {q : Seq} (hp : q.pastScan = true)
        (hf : ∀ x, (f x.dataOnly).dataOnly = (f x).dataOnly)
        (h : ∀ s, transmitMicro o p s = .next (s.loadMbx m f q)) :
        ∃ t, transmitMicro o p s = .next t ∧ t.seq.pastScan = true ∧ t.env = s.env
          ∧ ∃ u, transmitMicro o p s.still = .next u ∧ u.still = t.still :=
      ⟨_, h s, hp, rfl, _, h s.still, State.loadMbx_still hf q⟩
    cases p with
    | s1 | s2 => rw [hq] at hp; cases hp
    | s3 m => exact loads rfl (fun _ => rfl) (transmitMicro_s3 o m)
    | s4 m => exact loads rfl (fun _ => rfl) (transmitMicro_s4 o m)
    | s5 m => exact loads rfl (fun _ => rfl) (transmitMicro_s5 o m)
    | s6 m => exact loads rfl (fun _ => rfl) (transmitMicro_s6 o m)
    | s7 | s8 => exact ⟨_, rfl, rfl, rfl, _, rfl, rfl⟩
  | btcalc | construct | addfilter | txstatus | tryrecv => rw [hq] at hp; cases hp

/-- Past the scan, with no block reset coming, a run depends on the still part only, whatever the gaps hold. -/
theorem drive_pastScan (n : Nat) (hn : s.NoReset) (hp : s.seq.pastScan = true) (hst : t.still = s.still) :
    stillOutcome (drive micro n t) = stillOutcome (drive micro n s) := by
  have hseq : t.seq = s.seq := (congrArg State.seq hst :)
  have hnt : t.NoReset := (congrArg (·.env.resets) hst :).trans hn
  induction n generalizing s t with
  | zero => exact congrArg Host.Outcome.next hst
  | succ n ih =>
    by_cases hi : s.seq = .idle
    · rw [drive_idle _ hi, drive_idle _ (hseq.trans hi)]
      exact congrArg Host.Outcome.next hst
    · obtain ⟨u, hu, hup, huenv, u', hu', hustill⟩ := micro_pastScan (s := s.gap) (by rwa [State.gap_seq hn])
      obtain ⟨v, hv, -, hvenv, v', hv', hvstill⟩ := micro_pastScan (s := t.gap) (by rwa [State.gap_seq hnt, hseq])
      have hvu : v.still = u.still := by
        rw [State.gap_still hn, ← hst, ← State.gap_still hnt, hv'] at hu'
        cases hu'
        exact hvstill.symm.trans hustill
      rw [drive_next hi hu, drive_next (hseq ▸ hi) hv]
      exact ih ((State.gap_noReset hn).of_same huenv) hup hvu (congrArg State.seq hvu :)
        ((State.gap_noReset hnt).of_same hvenv)

/-- From step 3 TRANSMIT comes to the response it comes to with the engine still, up to what the engine may change. -/
theorem drive_loaded {n : Nat} (hn : s.NoReset) (hs : s.seq = .transmit o (.s3 m)) :
    ∃ t, drive micro (n + 6) s = .next t ∧ t.still = (s.still.loaded o m).still := by
  apply stillOutcome_eq_next
  rw [← drive_pastScan (t := s.still) (n + 6) hn (by rw [hs]; rfl) rfl, drive_loaded_quiet (State.still_quiet hn) hs]
  rfl

/-- Engine steps do not show in the still register block. -/
theorem RegBlock.UpToEngine.still {a : Option Bool} {b c : RegBlock} (h : RegBlock.UpToEngine a b c) :
    c.still = b.still := by
  obtain ⟨es, rfl⟩ := h
  exact b.engineSteps_still a es

theorem State.SameInputs.trans {s t u : State} (h : s.SameInputs t) (k : t.SameInputs u) : s.SameInputs u :=
  ⟨k.cmdPort.trans h.cmdPort, k.fPclk.trans h.fPclk, k.regBase.trans h.regBase, k.autoRetx.trans h.autoRetx,
    k.fair.trans h.fair, k.resets.trans h.resets⟩

/-- Whatever the engine does, TRANSMIT responds OK and notes mailbox `m`; of the registers that the engine does not write it
has changed that mailbox's data only. -/
theorem exec_transmit_still (o : TransmitOps) (hi : s.seq = .idle) (hn : s.NoReset)
    (hc : s.handle.constructed = true) (hd : o.dlc ≤ Config.dlcMax) (hm : (s.gap.regs.mbx m).tme = true)
    (hlower : ∀ k : MbxId, k.toNat < m.toNat → (s.gap.regs.mbx k).tme = false) :
    ∃ t, exec (.transmit o.id o.dlc o.datal o.datah) s = .next t ∧ t.seq = .idle ∧ t.respPort = okResponse
      ∧ t.handle = { s.handle with lastMbx := some m }
      ∧ t.regs.still = s.regs.still.setMbx m (o.load (s.regs.mbx m)).dataOnly ∧ s.SameInputs t := by
  obtain ⟨hnoReset, hinputs, hregs, hhandle⟩ := State.chosen_onlyEngine o m hn
  obtain ⟨t, ht, hstill⟩ := drive_loaded (n := s.env.gaps.length + 24) hnoReset (s := s.chosen o m) (o := o) (m := m) rfl
  refine ⟨t, (exec_transmit_chosen o hi hn hc hd hm hlower).trans ht, congrArg State.seq hstill,
    congrArg State.respPort hstill, (congrArg State.handle hstill).trans (by rw [← hhandle]; rfl), ?_, ?_⟩
  · have h : t.regs.still = ((s.chosen o m).regs.still.setMbx m (o.load ((s.chosen o m).regs.still.mbx m))).still :=
      congrArg State.regs hstill
    rw [h, hregs.still, RegBlock.setMbx_still, RegBlock.still_mbx]
    rfl
  · exact hinputs.trans (.of_still (congrArg State.env hstill :) (congrArg State.cmdPort hstill :))

/-- Settles O23: the fields of the still register block after TRANSMIT, none of which the engine writes. -/
theorem transmitLoadsFirstEmpty : Obligations.TransmitLoadsFirstEmpty := by
  intro id dlc datal datah m s hi hn hc hd hm hlower
  obtain ⟨t, ht, hseq, hresp, hhandle, hregs, hinputs⟩ :=
    exec_transmit_still ⟨id, dlc, datal, datah⟩ hi hn hc hd hm hlower
  have hmbx (k : MbxId) := (t.regs.still_mbx k).symm.trans (congrArg (·.mbx k) hregs)
  obtain ⟨hstid, hide, hrtr, hdlc, hdatal, hdatah⟩ :=
    Mailbox.sameData_iff.2 ((hmbx m).trans (RegBlock.mbx_setMbx_same ..))
  have hlen : (BitVec.ofNat 4 dlc).toNat = dlc := by
    rw [BitVec.toNat_ofNat, Nat.mod_eq_of_lt (by omega)]
  have hothers (k : MbxId) (hk : k ≠ m) : (t.regs.mbx k).SameData (s.regs.mbx k) := by
    rw [Mailbox.sameData_iff, hmbx k, RegBlock.mbx_setMbx_ne _ _ hk, RegBlock.still_mbx]
  exact ⟨t, ht, hseq, hresp, hhandle, hstid, hide, hrtr, hdlc ▸ hlen, hdatal, hdatah, hothers,
    (congrArg (·.inrq) hregs :), (congrArg (·.timing) hregs :), (congrArg (·.finit) hregs :),
    (congrArg (·.banks) hregs :), hinputs⟩

end Sys2Proof.Machine
end

section
/-!
PROOF. Reception: when a frame on the bus enters a FIFO (44_receive R221 to R223), what alone stops a step (R218), and the
Receive FIFO Drainer (R215 to R219, R227). TRYRECV reads the count and then the four words of the head, which stays whatever the
engine does (20_memory R87 (b)), and releases it once.
-/
namespace Sys2Proof.Machine

variable {s t : State} {slot : Slot} {frame : Frame} {k n N : Nat} {p : TryrecvPos}

/-! ### The engine's steps on a FIFO (R221 to R223) -/

/-- Settles O21: each of the three conditions falsifies a conjunct of R221, and the engine changes neither FINIT nor a
bank. -/
theorem nothingStoredWhileSuspended : Obligations.NothingStoredWhileSuspended := by
  refine fun b a es f => ⟨fun h idw => Bool.eq_false_iff.2 fun hacc => ?_,
    fun h => RegBlock.engineSteps_fifos_of_blocked h f⟩
  obtain ⟨hinak, hfinit, k, hfact, -, -⟩ := RegBlock.accepts_iff.1 hacc
  rcases h with h | h | h
  · exact absurd hfinit (by simp [h])
  · exact absurd hinak (by simp [h])
  · exact absurd hfact (by simp [h k])

theorem RegBlock.enabled_rxStore_iff {b : RegBlock} {a : Option Bool} {f : FifoId} :
    b.enabled a (.rxStore f slot) = true ↔
      b.accepts f slot.idw = true ∧ (b.fifo f).q.length < Config.fifoDepth := by
  rw [RegBlock.enabled, Bool.and_eq_true, decide_eq_true_eq]

theorem RegBlock.enabled_rxOverflow_iff {b : RegBlock} {a : Option Bool} {f : FifoId} {replace : Bool} :
    b.enabled a (.rxOverflow f slot replace) = true ↔
      b.accepts f slot.idw = true ∧ (b.fifo f).q.length = Config.fifoDepth := by
  rw [RegBlock.enabled, Bool.and_eq_true, decide_eq_true_eq]

/-- Settles O45: the guards of RxStore and RxOverflow as propositions. -/
theorem frameStoredWhenAccepted : Obligations.FrameStoredWhenAccepted := by
  intro b a f slot replace accepted q
  have hstore : b.enabled a (.rxStore f slot) = true ↔ accepted ∧ q.length < 3 :=
    RegBlock.enabled_rxStore_iff.trans (and_congr_left' RegBlock.accepts_iff)
  have hover : b.enabled a (.rxOverflow f slot replace) = true ↔ accepted ∧ q.length = 3 :=
    RegBlock.enabled_rxOverflow_iff.trans (and_congr_left' RegBlock.accepts_iff)
  exact ⟨fun h => if_pos (hstore.2 h), fun h => if_neg (h ∘ hstore.1), fun h => if_pos (hover.2 h),
    fun h => if_neg (h ∘ hover.1)⟩

/-! ### A step from the invariant (R218, 70_reset_and_hazards R290, R291) -/

/-- From the invariant a run of micro-steps stops only on TRYRECV's slot. -/
theorem drive_stopsOnlyOnForeignFrame (n : Nat) (hs : s.Inv) :
    (∃ t, drive micro n s = .next t) ∨ drive micro n s = .refused .receiveSlotOutsideFrameType := by
  induction n generalizing s with
  | zero => exact .inl ⟨s, rfl⟩
  | succ n ih =>
    by_cases hi : s.seq = .idle
    · exact .inl ⟨s, drive_idle _ hi⟩
    · rcases micro_inv (State.gap_inv hs) with ⟨t, hm, ht⟩ | hm
      · rw [drive_next hi hm]
        exact ih ht
      · exact .inr (drive_refused hi hm)

theorem exec_stopsOnlyOnForeignFrame (i : Instr) (hs : s.Inv) (hi : s.seq = .idle) :
    (∃ t, exec i s = .next t) ∨ exec i s = .refused .receiveSlotOutsideFrameType := by
  rcases exec_cases i hi with he | ⟨q, hq, he⟩ <;> rw [he]
  · exact .inl ⟨_, rfl⟩
  · exact drive_stopsOnlyOnForeignFrame _ (State.begin_inv hs hi hq)

theorem step_no_packet (hi : s.seq = .idle) (hp : takePacket s.cmdPort = none) : step s = .next s.gap := by
  simp only [step, hi, hp]

/-- Settles O51: a gap and an illegal packet answer, and a command keeps the invariant at each micro-step before it
stops. -/
theorem stepStopsOnlyOnForeignFrame : Obligations.StepStopsOnlyOnForeignFrame := by
  intro s hs
  by_cases hi : s.seq = .idle
  · cases hp : takePacket s.cmdPort with
    | none => exact .inl ⟨_, step_no_packet hi hp⟩
    | some taken =>
      cases hd : decode taken.1 with
      | error e => exact .inl ⟨_, step_decode_error hi hp hd⟩
      | ok i =>
        rw [step_decode_ok hi hp hd]
        exact exec_stopsOnlyOnForeignFrame (s := { s with cmdPort := taken.2 }) i
          (State.inv_idle_congr hs hi hi rfl rfl) hi
  · rw [step_resume hi]
    exact drive_stopsOnlyOnForeignFrame s.budget hs

/-! ### Following TRYRECV through its gaps -/

/-- TRYRECV before the micro-step `p`: `k` gaps have passed and `n` registers have been read. -/
def State.receiving (k : Nat) (p : TryrecvPos) (n : Nat) (s : State) : State :=
  { s with
    seq := .tryrecv p
    regs := (State.gap^[k] s).regs
    env := (State.gap^[k] s).env
    respPort := []
    free := s.free + n }

theorem State.NoReset.gaps (hn : s.NoReset) (k : Nat) : (State.gap^[k] s).NoReset :=
  Function.Iterate.rec (fun s : State => s.NoReset) hn (fun _ h => State.gap_noReset h) k

/-- With no block reset coming a gap touches the register block and the inputs only. -/
theorem State.receiving_gap (hn : s.NoReset) (k : Nat) (p : TryrecvPos) (n : Nat) :
    (s.receiving k p n).gap = s.receiving (k + 1) p n := by
  rw [State.gap_of_noReset (s := s.receiving k p n) (hn.gaps k), State.receiving, State.receiving,
    Function.iterate_succ_apply', State.gap_regs, State.gap_env]

theorem State.receiving_onlyEngine (hn : s.NoReset) (k : Nat) (p : TryrecvPos) (n : Nat) :
    s.OnlyEngine (s.receiving k p n) := by
  induction k with
  | zero => exact (State.OnlyEngine.start hn (.tryrecv p)).of_same rfl rfl rfl rfl
  | succ k ih => rw [← State.receiving_gap hn]; exact ih.gap

/-- With the engine still, gaps change nothing. -/
theorem State.receiving_quiet (hq : s.Quiet) (k : Nat) (p : TryrecvPos) (n : Nat) :
    s.receiving k p n = { s with seq := .tryrecv p, respPort := [], free := s.free + n } := by
  rw [State.receiving, Function.iterate_fixed (State.gap_quiet hq)]

/-- In a constructed idle state TRYRECV is legal and runs from its first micro-step. -/
theorem exec_tryrecv (hi : s.seq = .idle) (hc : s.handle.constructed = true) :
    exec .tryrecv s = drive micro s.budget (s.receiving 0 .s1 0) := by
  show s.dispatch micro s.handle.constructed _ = _
  rw [hc, dispatch_legal hi]
  rfl

theorem micro_tryrecv (hq : s.seq = .tryrecv p) : micro s = tryrecvMicro p s := by
  simp only [micro, hq]

theorem drive_receiving (hn : s.NoReset) (h : tryrecvMicro p (s.receiving (k + 1) p n) = .next t) :
    drive micro (N + 1) (s.receiving k p n) = drive micro N t :=
  drive_next nofun (by rw [State.receiving_gap hn]; exact h)

/-! ### The count (R216 steps 1 and 2) -/

theorem tryrecvMicro_s2_zero {r : Rfifo} (h : r.fmp = 0) : tryrecvMicro (.s2 r) s = .next (s.raise .wouldBlock) := by
  rw [tryrecvMicro, if_pos h]

theorem tryrecvMicro_s2_ne {r : Rfifo} (h : r.fmp ≠ 0) : tryrecvMicro (.s2 r) s = .next (s.goto (.tryrecv .s3)) := by
  rw [tryrecvMicro, if_neg h]

/-- The count that step 1 reads, after the first gap. -/
def State.countRead (s : State) : Rfifo := (s.receiving 1 .s1 0).regVal (.rfifo s.handle.boundFifo)

theorem State.countRead_fmp (s : State) : s.countRead.fmp = (s.gap.regs.fifo s.handle.boundFifo).fmp := rfl

theorem drive_countRead (hn : s.NoReset) :
    drive micro (N + 1) (s.receiving 0 .s1 0) = drive micro N (s.receiving 1 (.s2 s.countRead) 1) :=
  drive_receiving hn rfl

/-- With the bound FIFO empty at the first read TRYRECV is two micro-steps. -/
theorem exec_tryrecv_empty (hi : s.seq = .idle) (hn : s.NoReset) (hc : s.handle.constructed = true)
    (hq : (s.gap.regs.fifo s.handle.boundFifo).q = []) :
    exec .tryrecv s = .next ((s.receiving 2 (.s2 s.countRead) 1).raise .wouldBlock) := by
  have hfmp : s.countRead.fmp = 0 := by rw [State.countRead_fmp, Fifo.fmp, hq]; rfl
  rw [exec_tryrecv hi hc, State.budget, microBudget, drive_countRead hn,
    drive_receiving hn (tryrecvMicro_s2_zero hfmp), drive_idle _ rfl]

/-- Settles O34: the count is read, the response goes out, and nothing is written. -/
theorem tryrecvWouldBlock : Obligations.TryrecvWouldBlock := by
  intro s hi hn hc hq
  obtain ⟨-, hinputs, hregs, hhandle⟩ := State.receiving_onlyEngine hn 2 (.s2 s.countRead) 1
  exact ⟨_, exec_tryrecv_empty hi hn hc hq, rfl, rfl, hhandle, rfl, hregs, hinputs.of_same rfl rfl⟩

/-! ### The head (R216 steps 3 to 6, R217) -/

/-- The bound FIFO has `slot` at its head and is not over-full when step 1 reads its count, after the first gap. -/
structure State.HeadPending (slot : Slot) (s : State) : Prop where
  head : (s.gap.regs.fifo s.handle.boundFifo).q.head? = some slot
  depth : (s.gap.regs.fifo s.handle.boundFifo).q.length ≤ Config.fifoDepth

theorem State.HeadPending.fmp_ne_zero (h : s.HeadPending slot) : s.countRead.fmp ≠ 0 := by
  intro h0
  have hlen := Fifo.fmp_toNat h.depth
  rw [← State.countRead_fmp, h0] at hlen
  have hhead := h.head
  rw [List.eq_nil_of_length_eq_zero hlen.symm] at hhead
  cases hhead

/-- The head stays in every later gap (20_memory R87 (b)). -/
theorem State.HeadPending.stays (h : s.HeadPending slot) (k : Nat) :
    ((State.gap^[k + 1] s).regs.fifo s.handle.boundFifo).q.head? = some slot := by
  suffices H : ((State.gap^[k + 1] s).regs.fifo s.handle.boundFifo).q.head? = some slot
      ∧ ((State.gap^[k + 1] s).regs.fifo s.handle.boundFifo).q.length ≤ Config.fifoDepth from H.1
  induction k with
  | zero => exact ⟨h.head, h.depth⟩
  | succ k ih =>
    obtain ⟨hhead, -, hdepth⟩ := RegBlock.engineSteps_head (a := (State.gap^[k + 1] s).env.autoRetx)
      (es := (State.gap^[k + 1] s).env.nextGap) ih.1 ih.2
    rw [Function.iterate_succ_apply', State.gap_regs]
    exact ⟨hhead, hdepth⟩

theorem Fifo.output_of_head {x : Fifo} (h : x.q.head? = some slot) (word : Slot → Word) (free : Word) :
    x.output word free = word slot := by
  obtain ⟨rest, hq⟩ := List.head?_eq_some_iff.1 h
  simp only [Fifo.output, hq]

/-- Each output register shows its word of the head, whenever it is read after the first gap. -/
theorem State.HeadPending.output (h : s.HeadPending slot) (k : Nat) (word : Slot → Word) (free : Word) :
    ((s.receiving (k + 1) p n).regs.fifo s.handle.boundFifo).output word free = word slot :=
  Fifo.output_of_head (h.stays k) word free

/-- A micro-step that reads a word of the head goes on with the slot's word. -/
theorem drive_headWord (hn : s.NoReset) (h : s.HeadPending slot) (word : Slot → Word) (next : Word → TryrecvPos)
    (hread : ∀ u : State, tryrecvMicro p u = .next (u.afterRead (.tryrecv
      (next ((u.regs.fifo u.handle.boundFifo).output word (Config.freeWord u.free)))))) :
    drive micro (N + 1) (s.receiving k p n) = drive micro N (s.receiving (k + 1) (next (word slot)) (n + 1)) := by
  refine drive_receiving hn ((hread _).trans ?_)
  rw [← h.output k word]
  rfl

/-- Steps 1 to 6 read the count and the head. -/
theorem drive_headRead (hn : s.NoReset) (h : s.HeadPending slot) :
    drive micro (N + 6) (s.receiving 0 .s1 0) = drive micro N (s.receiving 6 (.s7 slot) 5) :=
  calc drive micro (N + 6) (s.receiving 0 .s1 0)
      = drive micro (N + 5) (s.receiving 1 (.s2 s.countRead) 1) := drive_countRead hn
    _ = drive micro (N + 4) (s.receiving 2 .s3 1) := drive_receiving hn (tryrecvMicro_s2_ne h.fmp_ne_zero)
    _ = drive micro (N + 3) (s.receiving 3 (.s4 slot.idw) 2) := drive_headWord hn h Slot.idw .s4 fun _ => rfl
    _ = drive micro (N + 2) (s.receiving 4 (.s5 slot.idw slot.dtw) 3) :=
      drive_headWord hn h Slot.dtw (.s5 slot.idw) fun _ => rfl
    _ = drive micro (N + 1) (s.receiving 5 (.s6 slot.idw slot.dtw slot.dlw) 4) :=
      drive_headWord hn h Slot.dlw (.s6 slot.idw slot.dtw) fun _ => rfl
    _ = drive micro N (s.receiving 6 (.s7 slot) 5) :=
      drive_headWord hn h Slot.dhw (fun dhw => .s7 ⟨slot.idw, slot.dtw, slot.dlw, dhw⟩) fun _ => rfl

/-- With a frame pending TRYRECV comes to step 7 with its slot. -/
theorem exec_tryrecv_headRead (hi : s.seq = .idle) (hn : s.NoReset) (hc : s.handle.constructed = true)
    (h : s.HeadPending slot) :
    exec .tryrecv s = drive micro (s.env.gaps.length + 26) (s.receiving 6 (.s7 slot) 5) :=
  (exec_tryrecv hi hc).trans (drive_headRead hn h)

/-! ### The refusal (R218) -/

theorem tryrecvMicro_s7_none (h : decodeRaw slot = none) :
    tryrecvMicro (.s7 slot) s = .refused .receiveSlotOutsideFrameType := by
  simp only [tryrecvMicro, h]

theorem tryrecvMicro_s7_some (h : decodeRaw slot = some frame) :
    tryrecvMicro (.s7 slot) s = .next (s.goto (.tryrecv (.s8 slot frame))) := by
  simp only [tryrecvMicro, h]

/-- Settles O35: each cause makes the slot ill-formed, and step 7 stops on it. -/
theorem tryrecvRefusesForeignFrame : Obligations.TryrecvRefusesForeignFrame := by
  intro s slot f hi hn hc hhead hdepth hforeign
  have hill : ¬ slot.wellFormed = true := by
    rw [Slot.wellFormed_iff]
    rintro ⟨hide, hrtr, hdlc⟩
    rcases hforeign with h | h | h
    · rw [hide] at h; cases h
    · rw [hrtr] at h; cases h
    · exact absurd hdlc (Nat.not_le_of_lt h)
  rw [exec_tryrecv_headRead hi hn hc ⟨hhead, hdepth⟩]
  refine drive_refused nofun ?_
  rw [State.receiving_gap hn]
  exact tryrecvMicro_s7_none (decodeRaw_of_not_wellFormed hill)

/-! ### Release and response (R216 steps 7 to 9, R219) -/

/-- TRYRECV before step 9: after the eighth gap the head has been released. -/
def State.headReleased (slot : Slot) (frame : Frame) (s : State) : State :=
  let r := s.receiving 8 (.s9 slot frame) 5
  { r with regs := r.regs.setFifo s.handle.boundFifo (r.regs.fifo s.handle.boundFifo).release }

/-- TRYRECV at its response. -/
def State.received (slot : Slot) (frame : Frame) (s : State) : State :=
  (s.headReleased slot frame).gap.respond (tryrecvResponse slot frame)

theorem State.headReleased_noReset (hn : s.NoReset) : (s.headReleased slot frame).NoReset := hn.gaps 8

theorem RegBlock.write_release (b : RegBlock) (f : FifoId) :
    b.write (.rfifo f) (Rfifo.unpack releaseWord) = .ok (b.setFifo f (b.fifo f).release) := by
  simp only [RegBlock.write, rfifo_unpack_release, if_true]

theorem tryrecvMicro_s8 (slot : Slot) (frame : Frame) (s : State) :
    tryrecvMicro (.s8 slot frame) s = .next { s with
      regs := s.regs.setFifo s.handle.boundFifo (s.regs.fifo s.handle.boundFifo).release
      seq := .tryrecv (.s9 slot frame) } :=
  State.regWrite_ok _ (RegBlock.write_release _ _)

/-- Steps 7 to 9 decode the slot, release the head and respond. -/
theorem drive_received (hn : s.NoReset) (hd : decodeRaw slot = some frame) :
    drive micro (N + 3) (s.receiving 6 (.s7 slot) 5) = .next (s.received slot frame) := by
  have step9 : micro (s.headReleased slot frame).gap = .next (s.received slot frame) :=
    micro_tryrecv (State.gap_seq (State.headReleased_noReset hn))
  calc drive micro (N + 3) (s.receiving 6 (.s7 slot) 5)
      = drive micro (N + 2) (s.receiving 7 (.s8 slot frame) 5) := drive_receiving hn (tryrecvMicro_s7_some hd)
    _ = drive micro (N + 1) (s.headReleased slot frame) := drive_receiving hn (tryrecvMicro_s8 slot frame _)
    _ = .next (s.received slot frame) := drive_step nofun step9 (drive_idle _ rfl)

/-- With a well-formed frame pending TRYRECV is nine micro-steps. -/
theorem exec_tryrecv_received (hi : s.seq = .idle) (hn : s.NoReset) (hc : s.handle.constructed = true)
    (h : s.HeadPending slot) (hd : decodeRaw slot = some frame) : exec .tryrecv s = .next (s.received slot frame) :=
  (exec_tryrecv_headRead hi hn hc h).trans (drive_received hn hd)

theorem Status.ok_code_or (w : Word) : Status.ok.code ||| w = w := BitVec.zero_or

/-- A well-formed slot decodes, and the response has its identifier, its length and its payload below the length. -/
theorem decodeRaw_tryrecvResponse (h : slot.wellFormed = true) : ∃ frame, decodeRaw slot = some frame
    ∧ tryrecvResponse slot frame = (let p := (slot.dhw ++ slot.dlw) &&& ((1#64 <<< (8 * slot.dlc)) - 1)
        [((slot.idw.extractLsb' 21 11).setWidth 32 <<< 16) ||| (BitVec.ofNat 32 slot.dlc <<< 8),
          p.extractLsb' 0 32, p.extractLsb' 32 32]) := by
  refine ⟨_, decodeRaw_of_wellFormed h, ?_⟩
  rw [tryrecvResponse, Status.ok_code_or]
  rfl

/-- Settles O32: `b` is the register block that step 8 finds, after eight gaps; a ninth follows the release. -/
theorem tryrecvReturnsHead : Obligations.TryrecvReturnsHead := by
  intro s slot f hi hn hc hhead hdepth hide hrtr hdlc
  have hpending : s.HeadPending slot := ⟨hhead, hdepth⟩
  obtain ⟨frame, hd, hresp⟩ := decodeRaw_tryrecvResponse (Slot.wellFormed_iff.2 ⟨hide, hrtr, hdlc⟩)
  have hstart := State.receiving_onlyEngine hn 8 (.s9 slot frame) 5
  have hreleased : s.SameInputs (s.headReleased slot frame) := hstart.inputs.of_same rfl rfl
  refine ⟨s.received slot frame, (State.gap^[8] s).regs, exec_tryrecv_received hi hn hc hpending hd, rfl, hresp,
    State.gap_handle (State.headReleased_noReset hn), State.gap_free _,
    (hreleased.gap (State.headReleased_noReset hn)).of_same rfl rfl, hstart.regs, hpending.stays 7, ?_⟩
  rw [← hreleased.autoRetx]
  exact State.gap_upToEngine (s.headReleased slot frame)

/-! ### The engine still -/

/-- With the engine still TRYRECV releases the head and responds with its frame. -/
theorem exec_tryrecv_quiet {rest : List Slot} (hi : s.seq = .idle) (hq : s.Quiet) (hc : s.handle.constructed = true)
    (hslot : (s.regs.fifo s.handle.boundFifo).q = slot :: rest) (hrest : rest.length < Config.fifoDepth)
    (hd : decodeRaw slot = some frame) :
    exec .tryrecv s = .next { s with
      regs := s.regs.setFifo s.handle.boundFifo { s.regs.fifo s.handle.boundFifo with q := rest }
      respPort := tryrecvResponse slot frame
      free := s.free + 5 } := by
  have hpending : s.HeadPending slot := by
    constructor <;> rw [State.gap_quiet hq, hslot]
    · rfl
    · exact hrest
  have hreleased : (s.headReleased slot frame).gap = s.headReleased slot frame := by
    apply State.gap_quiet
    rw [State.headReleased, State.receiving_quiet hq]
    exact hq.of_same rfl rfl rfl
  rw [exec_tryrecv_received hi hq.resets hc hpending hd, State.received, hreleased, State.headReleased,
    State.receiving_quiet hq, State.respond, Fifo.release, hslot, hi]
  rfl

/-- Settles O33: with the engine still the nine micro-steps leave the release, the response and five reads. -/
theorem tryrecvFrame : Obligations.TryrecvFrame := fun _ _ _ _ => exec_tryrecv_quiet

/-- With the engine still and the bound FIFO empty TRYRECV leaves the register block. -/
theorem exec_tryrecv_empty_quiet (hi : s.seq = .idle) (hq : s.Quiet) (hc : s.handle.constructed = true)
    (hempty : (s.regs.fifo s.handle.boundFifo).q = []) :
    exec .tryrecv s = .next { s with respPort := [Status.wouldBlock.code], free := s.free + 1 } := by
  rw [exec_tryrecv_empty hi hq.resets hc (by rw [State.gap_quiet hq, hempty]), State.receiving_quiet hq, hi]
  rfl

/-- Settles O40: the stored slot is the whole queue, so the first TRYRECV leaves an empty one to the second. -/
theorem receiveAfterStore : Obligations.ReceiveAfterStore := by
  intro s slot frame f hi hq hc hempty hd
  have hstored : ((s.regs.effect (.rxStore f slot)).fifo f).q = [slot] := by
    rw [RegBlock.effect, RegBlock.fifo_setFifo_same, Fifo.store, hempty]
    rfl
  have hreceived : ((s.regs.effect (.rxStore f slot)).setFifo f
      { (s.regs.effect (.rxStore f slot)).fifo f with q := [] }).fifo f = _ := RegBlock.fifo_setFifo_same ..
  exact ⟨_, _, exec_tryrecv_quiet (s := { s with regs := s.regs.effect (.rxStore f slot) }) hi
      (hq.of_same rfl rfl rfl) hc hstored (by decide) hd, rfl,
    exec_tryrecv_empty_quiet hi (hq.of_same rfl rfl rfl) hc (congrArg Fifo.q hreceived), rfl,
    congrArg Fifo.q hreceived⟩

end Sys2Proof.Machine
end

section
/-!
PROOF. The facade (45_facade R235 to R245): a step runs the command at the front of the port, CONSTRUCT readies the handle or
has no effect, and once constructed no command changes the configuration.
-/
namespace Sys2Proof.Machine

variable {s t u : State} {o : ConstructOps} {r : BitTiming}

/-! ### The step (R235) -/

/-- Settles O6: SEQ, the port and the decoder decide which branch of `step` is taken. -/
theorem stepRunsDecodedCommand : Obligations.StepRunsDecodedCommand := fun _ =>
  ⟨fun hi _ _ _ hp hd => step_decode_ok hi hp hd, step_no_packet, step_resume⟩

/-! ### CONSTRUCT fails (R238) -/

/-- In an unconstructed idle state CONSTRUCT is legal and runs from its first micro-step. -/
theorem exec_construct (o : ConstructOps) (hi : s.seq = .idle) (hc : s.handle.constructed = false) :
    exec (.construct o.fifo o.mode o.bitrate) s = drive micro s.budget (s.begin (.construct o .s1)) :=
  calc exec (.construct o.fifo o.mode o.bitrate) s
      = s.dispatch micro (!s.handle.constructed) (.construct o .s1) := rfl
    _ = drive micro s.budget (s.begin (.construct o .s1)) := by rw [hc]; exact dispatch_legal hi

theorem constructMicro_s1_none (h : btc s.env.fPclk o.bitrate = none) :
    constructMicro o .s1 s = .next (s.raise .invalidTimings) := by
  simp only [constructMicro, h]

theorem constructMicro_s1_some (h : btc s.env.fPclk o.bitrate = some r) :
    constructMicro o .s1 s = .next (s.goto (.construct o (.s2 r))) := by
  simp only [constructMicro, h]

/-- When BTC fails CONSTRUCT is one micro-step, which raises INVALID_TIMINGS. -/
theorem exec_construct_fails (o : ConstructOps) (hi : s.seq = .idle) (hn : s.NoReset) (hc : s.handle.constructed = false)
    (h : btc s.env.fPclk o.bitrate = none) : exec (.construct o.fifo o.mode o.bitrate) s
      = .next ((s.begin (.construct o .s1)).gap.raise .invalidTimings) := by
  have step1 : micro (s.begin (.construct o .s1)).gap = .next ((s.begin (.construct o .s1)).gap.raise .invalidTimings) :=
    (micro_construct (State.gap_seq (s := s.begin _) hn)).trans (constructMicro_s1_none (by simpa using h))
  exact (exec_construct o hi hc).trans (drive_step (n := s.env.gaps.length + 31) nofun step1 (drive_idle _ rfl))

/-- Settles O13: the one micro-step comes after one gap, and raising a response touches the response port and SEQ only. -/
theorem constructFailsWithoutEffect : Obligations.ConstructFailsWithoutEffect := by
  intro fifo mode bitrate s hi hn hc hbtc
  obtain ⟨-, hinputs, hregs, hhandle⟩ := (State.OnlyEngine.start hn (.construct ⟨fifo, mode, bitrate⟩ .s1)).gap
  exact ⟨_, exec_construct_fails ⟨fifo, mode, bitrate⟩ hi hn hc hbtc, rfl, rfl, hhandle, State.gap_free _, hregs,
    hinputs.of_same rfl rfl⟩

/-! ### CONSTRUCT completes (R237, R241) -/

/-- What peripheral reset gives and stays until the first TRANSMIT or ADDFILTER: mailboxes Empty without flags, FIFOs empty
without overflow, no bank active (R241). -/
structure RegBlock.Fresh (b : RegBlock) : Prop where
  mailbox : ∀ m, (b.mbx m).state = some .empty ∧ (b.mbx m).rqcp = false ∧ (b.mbx m).txok = false
    ∧ (b.mbx m).alst = false ∧ (b.mbx m).terr = false
  fifo : ∀ f, b.fifo f = ⟨[], false⟩
  bank : b.NoBankActive

theorem RegBlock.afterReset_fresh (n : Nat) : (RegBlock.afterReset n).Fresh where
  mailbox m := by
    obtain ⟨k, hk⟩ := RegBlock.afterReset_mbx n m
    rw [hk]
    exact ⟨rfl, rfl, rfl, rfl, rfl⟩
  fifo := RegBlock.afterReset_fifo n
  bank := RegBlock.afterReset_noBankActive n

/-- The engine has nothing to do in a fresh register block: no mailbox is Pending, and no bank accepts a frame. -/
theorem RegBlock.Fresh.engineSteps {b : RegBlock} (h : b.Fresh) (a : Option Bool) (es : List EngineEvent) :
    (b.engineSteps a es).Fresh where
  mailbox m := by
    rw [RegBlock.engineSteps_mailboxes_of_empty fun m => (h.mailbox m).1]
    exact h.mailbox m
  fifo f := (RegBlock.engineSteps_fifos_of_blocked (.inr h.bank) f).trans (h.fifo f)
  bank := RegBlock.engineSteps_noBankActive h.bank

/-- A write of CTLR or BTIMR leaves the register block fresh. -/
theorem RegBlock.Fresh.of_same {b c : RegBlock} (h : b.Fresh) (hm : c.mailboxes = b.mailboxes) (hf : c.fifos = b.fifos)
    (hb : c.banks = b.banks) : c.Fresh where
  mailbox m := by rw [RegBlock.mbx, hm]; exact h.mailbox m
  fifo f := by rw [RegBlock.fifo, hf]; exact h.fifo f
  bank k := by rw [RegBlock.bank, hb]; exact h.bank k

/-- The timing fields of BTIMR after step 5. -/
def ConstructOps.timing (o : ConstructOps) (r : BitTiming) : Timing := (Btimr.unpack (constructTiming o.mode r)).timing

/-- What CONSTRUCT has built at each of its positions, `r` being BTC's result: the fresh register block from step 2, the
timing from step 5, the handle from step 7 (R237). -/
def ConstructPos.Built (o : ConstructOps) (r : BitTiming) (s : State) : ConstructPos → Prop
  | .s1 => btc s.env.fPclk o.bitrate = some r
  | .s2 x => x = r
  | .s3 x | .e1 x | .e2 x _ | .e3 x | .e4 x _ | .s5 x => x = r ∧ s.regs.Fresh
  | .l1 | .l2 _ | .l3 | .l4 _ | .s7 => s.regs.Fresh ∧ s.regs.timing = o.timing r
  | .s8 => s.regs.Fresh ∧ s.regs.timing = o.timing r ∧ s.handle = ⟨true, o.fifo, none⟩

/-- What CONSTRUCT has built at its response (R241). -/
structure State.Ready (o : ConstructOps) (r : BitTiming) (s : State) : Prop where
  respPort : s.respPort = okResponse
  inrq : s.regs.inrq = false
  inak : s.regs.inak = false
  fresh : s.regs.Fresh
  timing : s.regs.timing = o.timing r
  handle : s.handle = ⟨true, o.fifo, none⟩

/-- CONSTRUCT is at one of its positions with what it has built there, or has responded. -/
def State.Builds (o : ConstructOps) (r : BitTiming) (s : State) : Prop :=
  match s.seq with
  | .idle => s.Ready o r
  | .construct o' p => o' = o ∧ p.Built o r s
  | _ => False

theorem ConstructPos.Built.gap {p : ConstructPos} (h : p.Built o r s) (hn : s.NoReset) : p.Built o r s.gap := by
  have fresh (hb : s.regs.Fresh) : s.gap.regs.Fresh := by rw [s.gap_regs]; exact hb.engineSteps _ _
  have timing : s.gap.regs.timing = s.regs.timing := by simp
  cases p with
  | s1 => simpa [Built] using h
  | s2 x => exact h
  | s3 x | e1 x | e2 x y | e3 x | e4 x y | s5 x => exact ⟨h.1, fresh h.2⟩
  | l1 | l2 x | l3 | l4 x | s7 => exact ⟨fresh h.1, timing.trans h.2⟩
  | s8 => exact ⟨fresh h.1, timing.trans h.2.1, (State.gap_handle hn).trans h.2.2⟩

theorem State.Ready.gap (h : s.Ready o r) (hn : s.NoReset) : s.gap.Ready o r where
  respPort := by simp [h.respPort]
  inrq := by simp [h.inrq]
  inak := by rw [s.gap_regs]; exact RegBlock.engineSteps_inak_clear h.inrq h.inak
  fresh := by rw [s.gap_regs]; exact h.fresh.engineSteps _ _
  timing := by simp [h.timing]
  handle := (State.gap_handle hn).trans h.handle

theorem State.Builds.gap (h : s.Builds o r) (hn : s.NoReset) : s.gap.Builds o r := by
  unfold State.Builds at h ⊢
  rw [State.gap_seq hn]
  cases hq : s.seq <;> rw [hq] at h
  case idle => exact State.Ready.gap h hn
  case construct o' p => exact ⟨h.1, h.2.gap hn⟩
  all_goals exact h

/-- A micro-step of CONSTRUCT builds what its next position has. -/
theorem constructMicro_builds {p : ConstructPos} (h : p.Built o r s) (hmode : p.modeHolds s.regs)
    (hm : constructMicro o p s = .next t) : t.Builds o r := by
  cases p with
  | s1 => rw [constructMicro_s1_some h] at hm; cases hm; exact ⟨rfl, rfl⟩
  | s2 x => cases hm; exact ⟨rfl, h, RegBlock.afterReset_fresh _⟩
  | s3 x | e1 x | e3 x | l1 | l3 => cases hm; exact ⟨rfl, h⟩
  | e2 x y => cases hm; exact ⟨rfl, h.1, h.2.of_same rfl rfl rfl⟩
  | e4 x st => cases hm; exact ⟨rfl, by cases st.inak <;> exact h⟩
  | s5 x =>
    obtain ⟨rfl, hfresh⟩ := h
    rw [constructMicro, State.regWrite_ok _ (RegBlock.write_btimr hmode.1 hmode.2 _)] at hm
    cases hm
    exact ⟨rfl, hfresh.of_same rfl rfl rfl, rfl⟩
  | l2 x => cases hm; exact ⟨rfl, h.1.of_same rfl rfl rfl, h.2⟩
  | l4 st => cases hm; exact ⟨rfl, by cases st.inak <;> exact h⟩
  | s7 => cases hm; exact ⟨rfl, h.1, h.2, rfl⟩
  | s8 =>
    cases hm
    obtain ⟨hfresh, htiming, hhandle⟩ := h
    exact ⟨rfl, hmode.1, hmode.2, hfresh, htiming, hhandle⟩

theorem State.Builds.micro (h : s.Builds o r) (hc : s.OnCourse) (hi : s.seq ≠ .idle) (hm : micro s = .next t) :
    t.Builds o r := by
  unfold State.Builds at h
  unfold State.OnCourse at hc
  cases hq : s.seq <;> rw [hq] at h hc
  case idle => exact absurd hq hi
  case construct o' p =>
    obtain ⟨rfl, hp⟩ := h
    exact constructMicro_builds hp hc ((micro_construct hq).symm.trans hm)
  all_goals exact h.elim

theorem State.Builds.receiving (h : s.Builds o r) : s.seq.receiving = false := by
  unfold State.Builds at h
  cases hq : s.seq <;> rw [hq] at h
  case tryrecv => exact h.elim
  all_goals rfl

/-- CONSTRUCT, accepted in `s`, is on its way to its response, with an engine that acknowledges, or has responded. -/
structure State.Constructs (o : ConstructOps) (r : BitTiming) (s t : State) : Prop where
  underway : t.Underway s.cmdPort
  inputs : s.SameInputs t
  builds : t.Builds o r

theorem State.Constructs.start (hn : s.NoReset) (hf : s.env.fair = true) (hc : s.handle.constructed = false)
    (h : btc s.env.fPclk o.bitrate = some r) : s.Constructs o r (s.begin (.construct o .s1)) :=
  ⟨(Seq.Starts.construct o.fifo o.mode o.bitrate hc).underway hn hf, (State.OnlyEngine.start hn _).inputs, rfl, h⟩

theorem State.Constructs.gap (h : s.Constructs o r t) : s.Constructs o r t.gap :=
  ⟨h.underway.gap, h.inputs.gap h.underway.noReset, h.builds.gap h.underway.noReset⟩

/-- A micro-step of CONSTRUCT comes nearer the response. -/
theorem State.Constructs.micro (h : s.Constructs o r t) (hi : t.seq ≠ .idle) :
    ∃ u, micro t = .next u ∧ s.Constructs o r u ∧ u.env = t.env
      ∧ (t.regs.inak = t.regs.inrq → u.seq ≠ .idle → u.seq.rank < t.seq.rank) := by
  obtain ⟨hunderway, hinputs, hbuilds⟩ := h
  rcases hunderway.micro hi with ⟨u, hm, hu, he, hrank⟩ | ⟨hr, -⟩
  · have hport : u.cmdPort = t.cmdPort := hu.cmdPort.trans hunderway.cmdPort.symm
    exact ⟨u, hm, ⟨hu, hinputs.of_same he hport, hbuilds.micro hunderway.onCourse hi hm⟩, he, hrank⟩
  · rw [hbuilds.receiving] at hr; cases hr

/-- With an engine that acknowledges CONSTRUCT comes to its response, whatever else the engine does meanwhile. -/
theorem exec_construct_ready (o : ConstructOps) (hi : s.seq = .idle) (hn : s.NoReset) (hf : s.env.fair = true)
    (hc : s.handle.constructed = false) (h : btc s.env.fPclk o.bitrate = some r) :
    ∃ t, exec (.construct o.fifo o.mode o.bitrate) s = .next t ∧ t.seq = .idle ∧ t.Ready o r ∧ s.SameInputs t := by
  obtain ⟨t, ht, ⟨-, hinputs, hbuilds⟩, hti⟩ := run_completes (s.Constructs o r) (fun _ h => h.underway.noReset)
    (fun _ h => h.underway.fair) (fun _ h => h.gap) (fun _ h => h.micro) (State.Constructs.start hn hf hc h)
  have hready : t.Ready o r := by simpa only [State.Builds, hti] using hbuilds
  exact ⟨t, (exec_construct o hi hc).trans ht, hti, hready, hinputs⟩

/-- The timing fields of step 5 are those of R128's image with the operating mode's bits (R129). -/
theorem ConstructOps.timing_eq (o : ConstructOps) (r : BitTiming) :
    o.timing r = Timing.unpack (encodeTiming r (o.mode == .loopback) (o.mode == .silent)) := by
  obtain ⟨fifo, mode, bitrate⟩ := o
  cases mode <;> rfl

/-- Settles O12: the command comes to its response by rank, and what it has built by then is what its positions say. -/
theorem constructCompletes : Obligations.ConstructCompletes := by
  intro fifo mode bitrate r s hi hn hf hc hbtc
  obtain ⟨t, ht, hti, ⟨hresp, hinrq, hinak, hfresh, htiming, hhandle⟩, hinputs⟩ :=
    exec_construct_ready ⟨fifo, mode, bitrate⟩ hi hn hf hc hbtc
  exact ⟨t, ht, hti, hresp, hhandle, hinrq, hinak, htiming.trans (ConstructOps.timing_eq _ r), hfresh.mailbox, hfresh.fifo,
    hfresh.bank, hinputs⟩

/-! ### Once constructed (R245) -/

/-- From `s` to `t` the configuration stays: CONSTRUCTED and BOUND_FIFO, the timing fields with the operating mode, INRQ. So
do the block resets to come, one of which would unmake the handle. -/
structure State.SameConfig (s t : State) : Prop where
  constructed : t.handle.constructed = s.handle.constructed
  boundFifo : t.handle.boundFifo = s.handle.boundFifo
  timing : t.regs.timing = s.regs.timing
  inrq : t.regs.inrq = s.regs.inrq
  resets : t.env.resets = s.env.resets

theorem State.SameConfig.trans (h : s.SameConfig t) (k : t.SameConfig u) : s.SameConfig u :=
  ⟨k.constructed.trans h.constructed, k.boundFifo.trans h.boundFifo, k.timing.trans h.timing, k.inrq.trans h.inrq,
    k.resets.trans h.resets⟩

theorem State.SameConfig.of_same (he : t.env = s.env) (hh : t.handle = s.handle) (hr : t.regs = s.regs) :
    s.SameConfig t :=
  ⟨by rw [hh], by rw [hh], by rw [hr], by rw [hr], by rw [he]⟩

theorem State.gap_sameConfig (hn : s.NoReset) : s.SameConfig s.gap where
  constructed := by rw [State.gap_handle hn]
  boundFifo := by rw [State.gap_handle hn]
  timing := by simp
  inrq := by simp
  resets := (State.gap_noReset hn).trans hn.symm

theorem RegBlock.writeBanks_config {b c : RegBlock} {f : BankId → Bank → Bank} (h : b.writeBanks f = .ok c) :
    c.timing = b.timing ∧ c.inrq = b.inrq := by
  unfold RegBlock.writeBanks at h
  split at h <;> cases h
  exact ⟨rfl, rfl⟩

/-- Every register but CTLR and BTIMR leaves INRQ and the timing fields when written. -/
theorem RegBlock.write_config {b c : RegBlock} {q : Reg} {v : q.Val} (h : b.write q v = .ok c) (hctlr : q ≠ .ctlr)
    (hbtimr : q ≠ .btimr) : c.timing = b.timing ∧ c.inrq = b.inrq := by
  cases q with
  | ctlr => exact absurd rfl hctlr
  | btimr => exact absurd rfl hbtimr
  | statr | tstatr | txmir | txmdtr | txmdlr | txmdhr | rxmir | rxmdtr | rxmdlr | rxmdhr | fctlr =>
    cases h; exact ⟨rfl, rfl⟩
  | rfifo f =>
    cases h
    split <;> exact ⟨rfl, rfl⟩
  | fmcfgr | fscfgr | fafifor | fwr | fir1 | fir2 => exact RegBlock.writeBanks_config h

theorem State.regWrite_sameConfig {q : Reg} {v : q.Val} {next : Seq} (h : s.regWrite q v next = .next t)
    (hctlr : q ≠ .ctlr) (hbtimr : q ≠ .btimr) : s.SameConfig t := by
  rcases s.regWrite_cases q v next with ⟨b, hb, hn⟩ | ⟨e, -, hn⟩ <;> rw [hn] at h <;> cases h
  obtain ⟨htiming, hinrq⟩ := RegBlock.write_config hb hctlr hbtimr
  exact ⟨rfl, rfl, htiming, hinrq, rfl⟩

theorem btcalcMicro_sameConfig (clk bitrate : Word) (p : BtcalcPos) (s : State) :
    s.SameConfig (btcalcMicro clk bitrate p s) := by
  cases p with
  | s1 => exact .of_same rfl rfl rfl
  | s2 r => cases r <;> exact .of_same rfl rfl rfl

theorem addfilterMicro_sameConfig {o : AddfilterOps} {p : AddfilterPos} (h : addfilterMicro o p s = .next t) :
    s.SameConfig t := by
  cases p <;> simp only [addfilterMicro] at h
  case s1 | s3 | s7 | s9 | s11 | s13 | s15 => cases h; exact .of_same rfl rfl rfl
  case s2 | s4 | s5 | s6 | s8 | s10 | s12 | s14 => exact State.regWrite_sameConfig h nofun nofun

theorem transmitMicro_sameConfig {o : TransmitOps} {p : TransmitPos} (h : transmitMicro o p s = .next t) :
    s.SameConfig t := by
  cases p <;> simp only [transmitMicro] at h
  case s1 | s8 => cases h; exact .of_same rfl rfl rfl
  case s2 => split at h <;> cases h <;> exact .of_same rfl rfl rfl
  case s3 | s4 | s5 | s6 => exact State.regWrite_sameConfig h nofun nofun
  case s7 => cases h; exact ⟨rfl, rfl, rfl, rfl, rfl⟩

theorem txstatusMicro_sameConfig {p : TxstatusPos} (h : txstatusMicro p s = .next t) : s.SameConfig t := by
  cases p <;> simp only [txstatusMicro] at h
  case s1 | s2 => split at h <;> cases h <;> exact .of_same rfl rfl rfl
  case s3 | s4 => cases h; exact .of_same rfl rfl rfl

theorem tryrecvMicro_sameConfig {p : TryrecvPos} (h : tryrecvMicro p s = .next t) : s.SameConfig t := by
  cases p <;> simp only [tryrecvMicro] at h
  case s1 | s3 | s4 | s5 | s6 | s9 => cases h; exact .of_same rfl rfl rfl
  case s2 => split at h <;> cases h <;> exact .of_same rfl rfl rfl
  case s7 => split at h <;> cases h; exact .of_same rfl rfl rfl
  case s8 => exact State.regWrite_sameConfig h nofun nofun

/-- Outside CONSTRUCT a micro-step keeps the configuration. -/
theorem micro_sameConfig (hc : s.seq.constructing = false) (h : micro s = .next t) : s.SameConfig t := by
  unfold micro at h
  cases hq : s.seq <;> rw [hq] at h
  case idle => cases h; exact .of_same rfl rfl rfl
  case construct => rw [hq] at hc; cases hc
  case btcalc clk bitrate p => cases h; exact btcalcMicro_sameConfig clk bitrate p s
  case addfilter => exact addfilterMicro_sameConfig h
  case transmit => exact transmitMicro_sameConfig h
  case txstatus => exact txstatusMicro_sameConfig h
  case tryrecv => exact tryrecvMicro_sameConfig h

/-- Outside CONSTRUCT a run with no block reset coming keeps the configuration. -/
theorem drive_sameConfig {n : Nat} (hn : s.NoReset) (hc : s.seq.constructing = false) (h : drive micro n s = .next t) :
    s.SameConfig t := by
  refine (drive_keeps (m := micro) (fun u => u.seq.constructing = false ∧ s.SameConfig u) (fun u v ⟨hc, hu⟩ _ hm => ?_)
    ⟨hc, .of_same rfl rfl rfl⟩ h).2
  have hnu : u.NoReset := hu.resets.trans hn
  have hgap : u.gap.seq.constructing = false := by rwa [State.gap_seq hnu]
  exact ⟨(micro_outsideConstruct hgap hm).1, (hu.trans (State.gap_sameConfig hnu)).trans (micro_sameConfig hgap hm)⟩

theorem State.raise_of_idle (hi : s.seq = .idle) (st : Status) : s.raise st = { s with respPort := [st.code] } := by
  rw [State.raise, State.respond, ← hi]

/-- Settles O54: a constructed handle makes CONSTRUCT illegal, and no other command writes CTLR, BTIMR, CONSTRUCTED or
BOUND_FIFO. -/
theorem configurationFixedOnceConstructed : Obligations.ConfigurationFixedOnceConstructed := by
  intro i s t hi hn hc h
  rcases exec_cases i hi with he | ⟨q, hq, he⟩ <;> rw [he] at h
  · cases h
    exact ⟨hc, rfl, rfl, rfl, fun _ => State.raise_of_idle hi _⟩
  · have hnot : ¬ ∃ f m b, i = .construct f m b := by
      rintro ⟨f, m, b, rfl⟩
      exact Bool.noConfusion (hc.symm.trans hq.legalWhen)
    have hstart : q.constructing = false := by
      cases hq with
      | construct f m b => exact absurd ⟨f, m, b, rfl⟩ hnot
      | btcalc | addfilter | transmit | txstatus | tryrecv => rfl
    obtain ⟨hconstructed, hbound, htiming, hinrq, -⟩ := drive_sameConfig (s := s.begin q) hn hstart h
    exact ⟨hconstructed.trans hc, hbound, htiming, hinrq, fun hi => absurd hi hnot⟩

end Sys2Proof.Machine
end

section
/-!
PROOF. Exceptions (60_exceptions R250 to R253, R264): a command answered WOULD_BLOCK, INVALID_TIMINGS or ILLEGAL_COMMAND has
left the state to the engine. Each command settles at one of its first micro-steps whether it fails; up to there it writes
nothing, and from there on its response is OK.
-/
namespace Sys2Proof.Machine

variable {s t u : State}

/-- The response WOULD_BLOCK, INVALID_TIMINGS or ILLEGAL_COMMAND (R250). -/
def NonOkResponse (ws : List Word) : Prop := ws = [1] ∨ ws = [2] ∨ ws = [3]

theorem okResponse_ok : ¬ NonOkResponse okResponse := by unfold NonOkResponse; decide

theorem txstatusResponse_ok (x : Txs) : ¬ NonOkResponse (txstatusResponse x) := by
  unfold NonOkResponse; cases x <;> decide

/-- TRYRECV's OK response has three words. -/
theorem tryrecvResponse_ok (slot : Slot) (frame : Frame) : ¬ NonOkResponse (tryrecvResponse slot frame) := by
  rintro (h | h | h) <;> cases congrArg List.length h

/-- The command in execution can still end in a non-OK response: BTCALC until its response, CONSTRUCT until BTC has succeeded,
TRANSMIT until it has found an Empty mailbox, TRYRECV until it has found its FIFO non-empty (R251 to R253). -/
def Seq.mayFail : Seq → Bool
  | .btcalc _ _ _ | .construct _ .s1 => true
  | .transmit _ .s1 | .transmit _ (.s2 _) => true
  | .tryrecv .s1 | .tryrecv (.s2 _) => true
  | _ => false

/-! ### One micro-step -/

/-- How a micro-step bears on the outcome: from a position where the command may fail it touches neither the register block,
the handle nor the inputs, and responds only to end the command; or it comes to a position where the command can no longer
fail, without a non-OK response. -/
inductive State.Decides (s t : State) : Prop
  | untouched (hq : s.seq.mayFail = true) (he : t.env = s.env) (hr : t.regs = s.regs) (hh : t.handle = s.handle)
      (hc : t.cmdPort = s.cmdPort) (ha : t.seq = .idle ∨ t.respPort = s.respPort)
  | settled (hq : t.seq.mayFail = false) (ha : NonOkResponse t.respPort → NonOkResponse s.respPort)

theorem State.Decides.answersOk {ws : List Word} (h : ¬ NonOkResponse ws) : s.Decides (s.respond ws) :=
  .settled rfl fun ha => absurd ha h

theorem State.regWrite_decides {r : Reg} {v : r.Val} {q : Seq} (hq : q.mayFail = false)
    (h : s.regWrite r v q = .next t) : s.Decides t := by
  rcases s.regWrite_cases r v q with ⟨b, -, hn⟩ | ⟨e, -, hn⟩ <;> rw [hn] at h <;> cases h
  exact .settled hq id

theorem btcalcMicro_decides {clk bitrate : Word} {p : BtcalcPos} (hq : s.seq = .btcalc clk bitrate p) :
    s.Decides (btcalcMicro clk bitrate p s) := by
  have hmay : s.seq.mayFail = true := by rw [hq]; rfl
  cases p with
  | s1 => exact .untouched hmay rfl rfl rfl rfl (.inr rfl)
  | s2 r => rw [btcalcMicro_s2]; exact .untouched hmay rfl rfl rfl rfl (.inl rfl)

theorem constructMicro_decides {o : ConstructOps} {p : ConstructPos} (hq : s.seq = .construct o p)
    (h : constructMicro o p s = .next t) : s.Decides t := by
  cases p <;> simp only [constructMicro] at h
  case s1 =>
    have hmay : s.seq.mayFail = true := by rw [hq]; rfl
    split at h <;> cases h
    · exact .untouched hmay rfl rfl rfl rfl (.inl rfl)
    · exact .untouched hmay rfl rfl rfl rfl (.inr rfl)
  case s2 | s3 | e1 | e3 | l1 | l3 | s7 => cases h; exact .settled rfl id
  case e4 r st => cases h; exact .settled (by cases st.inak <;> rfl) id
  case l4 st => cases h; exact .settled (by cases st.inak <;> rfl) id
  case e2 | s5 | l2 => exact State.regWrite_decides rfl h
  case s8 => cases h; exact .answersOk okResponse_ok

theorem addfilterMicro_decides {o : AddfilterOps} {p : AddfilterPos} (h : addfilterMicro o p s = .next t) :
    s.Decides t := by
  cases p <;> simp only [addfilterMicro] at h
  case s1 | s3 | s7 | s9 | s11 | s13 => cases h; exact .settled rfl id
  case s2 | s4 | s5 | s6 | s8 | s10 | s12 | s14 => exact State.regWrite_decides rfl h
  case s15 => cases h; exact .answersOk okResponse_ok

theorem transmitMicro_decides {o : TransmitOps} {p : TransmitPos} (hq : s.seq = .transmit o p)
    (h : transmitMicro o p s = .next t) : s.Decides t := by
  cases p <;> simp only [transmitMicro] at h
  case s1 => cases h; exact .untouched (by rw [hq]; rfl) rfl rfl rfl rfl (.inr rfl)
  case s2 =>
    have hmay : s.seq.mayFail = true := by rw [hq]; rfl
    split at h <;> cases h
    · exact .untouched hmay rfl rfl rfl rfl (.inl rfl)
    · exact .untouched hmay rfl rfl rfl rfl (.inr rfl)
  case s3 | s4 | s5 | s6 => exact State.regWrite_decides rfl h
  case s7 => cases h; exact .settled rfl id
  case s8 => cases h; exact .answersOk okResponse_ok

theorem txstatusMicro_decides {p : TxstatusPos} (h : txstatusMicro p s = .next t) : s.Decides t := by
  cases p <;> simp only [txstatusMicro] at h
  case s1 | s2 =>
    split at h <;> cases h
    · exact .answersOk (txstatusResponse_ok _)
    · exact .settled rfl id
  case s3 => cases h; exact .settled rfl id
  case s4 => cases h; exact .answersOk (txstatusResponse_ok _)

theorem tryrecvMicro_decides {p : TryrecvPos} (hq : s.seq = .tryrecv p) (h : tryrecvMicro p s = .next t) :
    s.Decides t := by
  cases p <;> simp only [tryrecvMicro] at h
  case s1 => cases h; exact .untouched (by rw [hq]; rfl) rfl rfl rfl rfl (.inr rfl)
  case s2 =>
    have hmay : s.seq.mayFail = true := by rw [hq]; rfl
    split at h <;> cases h
    · exact .untouched hmay rfl rfl rfl rfl (.inl rfl)
    · exact .untouched hmay rfl rfl rfl rfl (.inr rfl)
  case s3 | s4 | s5 | s6 => cases h; exact .settled rfl id
  case s7 => split at h <;> cases h; exact .settled rfl id
  case s8 => exact State.regWrite_decides rfl h
  case s9 => cases h; exact .answersOk (tryrecvResponse_ok _ _)

theorem micro_decides (hi : s.seq ≠ .idle) (h : micro s = .next t) : s.Decides t := by
  unfold micro at h
  cases hq : s.seq <;> rw [hq] at h
  case idle => exact absurd hq hi
  case btcalc => cases h; exact btcalcMicro_decides hq
  case construct => exact constructMicro_decides hq h
  case addfilter => exact addfilterMicro_decides h
  case transmit => exact transmitMicro_decides hq h
  case txstatus => exact txstatusMicro_decides h
  case tryrecv => exact tryrecvMicro_decides hq h

/-! ### From acceptance to the response -/

/-- A command accepted in `s` has left everything to the engine as long as it may fail, and when it has failed. -/
structure State.FailsClean (s t : State) : Prop where
  mayFail : t.seq.mayFail = true → s.OnlyEngine t
  failed : NonOkResponse t.respPort → t.seq = .idle ∧ s.OnlyEngine t

theorem State.FailsClean.start (hn : s.NoReset) (q : Seq) : s.FailsClean (s.begin q) :=
  ⟨fun _ => .start hn q, nofun⟩

theorem State.FailsClean.gap (h : s.FailsClean t) : s.FailsClean t.gap where
  mayFail hq := by
    rcases t.gap_cases with ⟨hs, -⟩ | ⟨hs, -⟩ <;> rw [hs] at hq
    · exact (h.mayFail hq).gap
    · cases hq
  failed ha := by
    rw [State.gap_respPort] at ha
    obtain ⟨hi, ho⟩ := h.failed ha
    exact ⟨(State.gap_seq ho.noReset).trans hi, ho.gap⟩

theorem State.FailsClean.micro (h : s.FailsClean t) (hi : t.seq ≠ .idle) (hm : micro t = .next u) : s.FailsClean u := by
  have hopen : ¬ NonOkResponse t.respPort := fun ha => hi (h.failed ha).1
  cases micro_decides hi hm with
  | untouched hq he hr hh hc hend =>
    have ho : s.OnlyEngine u := (h.mayFail hq).of_same he hr hh hc
    refine ⟨fun _ => ho, fun ha => ⟨hend.resolve_right fun hresp => hopen ?_, ho⟩⟩
    rwa [← hresp]
  | settled hq ha => exact ⟨fun hq' => Bool.noConfusion (hq.symm.trans hq'), fun ha' => absurd (ha ha') hopen⟩

/-- A run keeps this; a gap that resets the block ends it without a response. -/
theorem drive_failsClean {n : Nat} (h : s.FailsClean t) (hd : drive micro n t = .next u) : s.FailsClean u := by
  refine drive_keeps (m := micro) s.FailsClean (fun v w hv _ hm => ?_) h hd
  by_cases hi : v.gap.seq = .idle
  · simp only [Machine.micro, hi] at hm; cases hm; exact hv.gap
  · exact hv.gap.micro hi hm

/-- Settles O53: a command its handle rejects touches the response port only; one that runs has failed before it touched
anything, or not at all. -/
theorem nonOkLeavesState : Obligations.NonOkLeavesState := by
  intro i s t hi hn h ha
  rcases exec_cases i hi with he | ⟨q, -, he⟩ <;> rw [he] at h
  · cases h; exact ⟨rfl, rfl, .refl _, (State.SameInputs.refl s).of_same rfl rfl⟩
  · obtain ⟨hti, -, hinputs, hregs, hhandle⟩ := (drive_failsClean (.start hn q) h).failed ha
    exact ⟨hti, hhandle, hregs, hinputs⟩

end Sys2Proof.Machine
end

section
/-!
PROOF. What the resets and hazards of 70_reset_and_hazards.md leave alone: the timing fields outside Initialization (R290),
the banks while the filters run (R291), and the register block when a block reset abandons a command (R280).
-/
namespace Sys2Proof.Machine

variable {s t : State} {b c : RegBlock} {r : Reg} {v : r.Val} {later : List Nat}

/-! ### The two guarded kinds of write (R290, R291) -/

theorem RegBlock.writable_of_write_btimr {v : Btimr} (h : b.write .btimr v = .ok c) : b.inrq = true ∧ b.inak = true := by
  simp only [RegBlock.write] at h
  split at h
  · next hw => exact RegBlock.timingWritable_iff.mp hw
  · cases h

/-- A register write keeps the timing fields, or finds Initialization. -/
theorem RegBlock.write_timing (h : b.write r v = .ok c) :
    c.timing = b.timing ∨ b.inrq = true ∧ b.inak = true := by
  by_cases hctlr : r = .ctlr
  · subst hctlr; cases h; exact .inl rfl
  · by_cases hbtimr : r = .btimr
    · subst hbtimr; exact .inr (RegBlock.writable_of_write_btimr h)
    · exact .inl (RegBlock.write_config h hctlr hbtimr).1

theorem RegBlock.finit_of_writeBanks {f : BankId → Bank → Bank} (h : b.writeBanks f = .ok c) : b.finit = true := by
  unfold RegBlock.writeBanks at h
  split at h
  · next hf => exact hf
  · cases h

/-- A register write keeps the banks, or finds the filters suspended. -/
theorem RegBlock.write_banks (h : b.write r v = .ok c) : c.banks = b.banks ∨ b.finit = true := by
  cases r with
  | ctlr | statr | tstatr | txmir | txmdtr | txmdlr | txmdhr | rxmir | rxmdtr | rxmdlr | rxmdhr | fctlr =>
    cases h; exact .inl rfl
  | rfifo f =>
    cases h
    split <;> exact .inl rfl
  | btimr =>
    simp only [RegBlock.write] at h
    split at h <;> cases h
    exact .inl rfl
  | fmcfgr | fscfgr | fafifor | fwr | fir1 | fir2 => exact .inr (RegBlock.finit_of_writeBanks h)

theorem micro_peripheralReset_or_atMostOneWrite (h : micro s = .next t) :
    (∃ o r, s.seq = .construct o (.s2 r)) ∨ s.AtMostOneWrite t := by
  by_cases hp : ∃ o r, s.seq = .construct o (.s2 r)
  · exact .inl hp
  · exact .inr (micro_atMostOneWrite (fun o r hq => hp ⟨o, r, hq⟩) h)

/-- Settles O15: but for the peripheral reset a micro-step makes at most one register write, and the one that changes the
timing fields is guarded. -/
theorem timingWrittenOnlyInInitialization : Obligations.TimingWrittenOnlyInInitialization := by
  intro s t h hne
  rcases micro_peripheralReset_or_atMostOneWrite h with hp | hregs | ⟨r, v, hw⟩
  · exact .inr hp
  · exact absurd (congrArg RegBlock.timing hregs) hne
  · exact .inl ((RegBlock.write_timing hw).resolve_left hne)

/-- Settles O20: likewise, the write that changes a bank is guarded by FINIT. -/
theorem banksWrittenOnlyWhileSuspended : Obligations.BanksWrittenOnlyWhileSuspended := by
  intro s t k h hne
  rcases micro_peripheralReset_or_atMostOneWrite h with hp | hregs | ⟨r, v, hw⟩
  · exact .inr hp
  · exact absurd (congrArg (·.bank k) hregs) hne
  · exact .inl ((RegBlock.write_banks hw).resolve_left fun hbanks => hne (congrArg (PerBank.get · k) hbanks))

/-! ### Block reset during a command (R280) -/

/-- The gap in which the block-reset input is asserted is the engine's steps, then block reset. -/
theorem State.gap_of_resetNow (h : s.env.resets = 0 :: later) :
    s.gap = State.blockReset { s with
      regs := s.regs.engineSteps s.env.autoRetx s.env.nextGap
      env := s.env.pass } := by
  simp [State.gap, Env.resetNow, h]

theorem Env.pass_resets_now {e : Env} (h : e.resets = 0 :: later) : e.pass.resets = later := by simp [Env.pass, h]

/-- A command that goes on and is reset in its first gap has made no further micro-step. -/
theorem step_of_resetNow (hi : s.seq ≠ .idle) (h : s.env.resets = 0 :: later) : step s = .next s.gap := by
  have hidle : s.gap.seq = .idle := by rw [State.gap_of_resetNow h]; rfl
  have hmicro : micro s.gap = .next s.gap := by simp only [micro, hidle]
  have hbudget : ∃ n, s.budget = n + 1 := ⟨_, rfl⟩
  obtain ⟨n, hn⟩ := hbudget
  calc step s
    _ = drive micro (n + 1) s := by rw [step_resume hi, State.resume, hn]
    _ = drive micro n s.gap := drive_next hi hmicro
    _ = .next s.gap := drive_idle n hidle

/-- Settles O46: the step is the gap with the reset in it, and a gap touches no port and draws no free value. -/
theorem blockResetAbandonsCommand : Obligations.BlockResetAbandonsCommand := by
  refine ⟨fun s => rfl, fun s later hi h => ⟨s.gap, step_of_resetNow hi h, ?_, ?_, ?_⟩⟩
  · rw [State.gap_of_resetNow h]; rfl
  · rw [State.gap_of_resetNow h]; rfl
  · refine ⟨State.gap_respPort s, State.gap_cmdPort s, State.gap_free s, ?_, s.env.nextGap, State.gap_regs s⟩
    rw [State.gap_env, Env.pass_resets_now h]

end Sys2Proof.Machine
end
